-- ==== Sys2Proof/Word.lean ====
section
/-! DEFINITION. The word types of the block (rules R10 and R11): 32-bit registers and 8-bit bytes. -/

namespace Sys2Proof

/-- A register value, 32 bits (rule R11). -/
abbrev Word := BitVec 32

/-- A byte of BUF, of a port, or of a unit's buffer (rules R10 and R80). -/
abbrev Byte := BitVec 8

end Sys2Proof
end

