-- ==== Sys2Proof/Syntax.lean ====
section
/-! DEFINITION. The commands of the block, one constructor per row of spec/opcode_table.json (rule R114). The A-registers
and the implicit state a command reads are no part of its word (rule R112), so only IMM gives a constructor arguments. -/

namespace Sys2Proof

/-- A command (rules R110, R113 and R114). -/
inductive Instr where
  /-- NOP, OP 0x00 (rule R141). -/
  | nop
  /-- SRESET, OP 0x01 (rule R142). -/
  | sreset
  /-- IN_READ, OP 0x10 (rule R163). -/
  | inRead
  /-- BSR_OPEN, OP 0x11 (rule R164). -/
  | bsrOpen
  /-- BSR_READ, OP 0x12, IMM bit 0 EODOK (rule R165). -/
  | bsrRead (eodok : Bool)
  /-- BSR_DRAIN, OP 0x13 (rule R166). -/
  | bsrDrain
  /-- LZW_INIT, OP 0x20, IMM the minCodeSize (rule R215). -/
  | lzwInit (m : Nat)
  /-- LZW_DECODE, OP 0x21 (rule R218). -/
  | lzwDecode
  /-- LZW_FINISH, OP 0x22 (rule R222). -/
  | lzwFinish
  /-- CRC_INIT, OP 0x30 (rule R262). -/
  | crcInit
  /-- CRC_UPDATE, OP 0x31 (rule R263). -/
  | crcUpdate
  /-- ZLIB_COMPRESS, OP 0x40 (rule R300). -/
  | zlibCompress
  /-- CHUNK_WRITE, OP 0x50 (rule R266). -/
  | chunkWrite
  /-- OUT_WRITE, OP 0x51 (rule R268). -/
  | outWrite
  deriving DecidableEq, Repr

end Sys2Proof
end

