-- ==== Sys2Proof/WellFormed.lean ====
section
/-! DEFINITION. Which commands have a word: every field fits the bits rule R110 gives it. -/

namespace Sys2Proof

/-- The command can be encoded: a minCodeSize fits the 8 bits of IMM (rules R110 and R113). Every 8-bit minCodeSize is a legal
encoding, the ones LZW_INIT then faults on included (rule R117). -/
def Instr.wf : Instr → Bool
  | .lzwInit m => decide (m < 256)
  | .nop | .sreset | .inRead | .bsrOpen | .bsrRead _ | .bsrDrain | .lzwDecode | .lzwFinish
  | .crcInit | .crcUpdate | .zlibCompress | .chunkWrite | .outWrite => true

end Sys2Proof
end

