-- ==== Sys2Proof/Decode.lean ====
section
/-! DEFINITION. The decoder of rule R115, total on every word and rejecting by name, and the encoder of the same table. -/

namespace Sys2Proof

/-- The bits `hi` down to `lo` of a word, as an unsigned number (rule R12). -/
def field (w : Word) (hi lo : Nat) : Nat :=
  (w.toNat >>> lo) % 2 ^ (hi + 1 - lo)

/-- Why a word is ILLEGAL (rule R116). -/
inductive DecodeError where
  /-- RSV, bits 31:16, is not 0. -/
  | reservedBits
  /-- OP, bits 7:0, is no row of rule R114. -/
  | unassignedOp
  /-- IMM, bits 15:8, breaks the constraint of its row. -/
  | badImm
  deriving DecidableEq, Repr

/-- What a command word decodes to: every word is one command or ILLEGAL (rule R116). -/
inductive Decoded where
  | command (i : Instr)
  | illegal (why : DecodeError)
  deriving DecidableEq, Repr

/-- A row of rule R114 whose IMM must be 0. -/
def decodeBare (imm : Nat) (i : Instr) : Decoded :=
  if imm = 0 then .command i else .illegal .badImm

/-- The row OP selects, with IMM checked (rules R113 to R115). -/
def decodeOp (op imm : Nat) : Decoded :=
  match op with
  | 0x00 => decodeBare imm .nop
  | 0x01 => decodeBare imm .sreset
  | 0x10 => decodeBare imm .inRead
  | 0x11 => decodeBare imm .bsrOpen
  | 0x12 => if imm / 2 = 0 then .command (.bsrRead (imm % 2 == 1)) else .illegal .badImm
  | 0x13 => decodeBare imm .bsrDrain
  | 0x20 => .command (.lzwInit imm)
  | 0x21 => decodeBare imm .lzwDecode
  | 0x22 => decodeBare imm .lzwFinish
  | 0x30 => decodeBare imm .crcInit
  | 0x31 => decodeBare imm .crcUpdate
  | 0x40 => decodeBare imm .zlibCompress
  | 0x50 => decodeBare imm .chunkWrite
  | 0x51 => decodeBare imm .outWrite
  | _ => .illegal .unassignedOp

/-- `Decode(w)` of rule R115. -/
def decode (w : Word) : Decoded :=
  if field w 31 16 = 0 then decodeOp (field w 7 0) (field w 15 8) else .illegal .reservedBits

/-- OP of a command (rule R114). -/
def Instr.op : Instr → Nat
  | .nop => 0x00
  | .sreset => 0x01
  | .inRead => 0x10
  | .bsrOpen => 0x11
  | .bsrRead _ => 0x12
  | .bsrDrain => 0x13
  | .lzwInit _ => 0x20
  | .lzwDecode => 0x21
  | .lzwFinish => 0x22
  | .crcInit => 0x30
  | .crcUpdate => 0x31
  | .zlibCompress => 0x40
  | .chunkWrite => 0x50
  | .outWrite => 0x51

/-- IMM of a command (rule R113). -/
def Instr.imm : Instr → Nat
  | .bsrRead eodok => eodok.toNat
  | .lzwInit m => m
  | .nop | .sreset | .inRead | .bsrOpen | .bsrDrain | .lzwDecode | .lzwFinish | .crcInit
  | .crcUpdate | .zlibCompress | .chunkWrite | .outWrite => 0

/-- The word of a command: OP in bits 7:0, IMM in bits 15:8, RSV 0 (rule R110). -/
def encode (i : Instr) : Word :=
  BitVec.ofNat 32 (i.op + 256 * i.imm)

/-- The command the decoder reads from a table row's word of `nbits` bits. A command is one 32-bit word (rule R111), so a
word with a bit above bit 31 is none. -/
def decodeTableWord (nbits w : Nat) : Option Instr :=
  let v := w % 2 ^ nbits
  if v < 2 ^ 32 then
    match decode (BitVec.ofNat 32 v) with
    | .command i => some i
    | .illegal _ => none
  else none

end Sys2Proof
end

