-- ==== Sys2Proof/Config.lean ====
section
/-! DEFINITION. What one block fixes once (rules R2, R10, R11), and the values the spec leaves open (93_implementation_defined.md
U3 to U6), each a constant with no body, so that no proof can learn what it is. The parameters a claim must be able
to vary (BUF_BYTES, the ports' answers, which DEFLATE the block has) stand in State instead: log entries 1, 2 and 3. -/

namespace Sys2Proof.Config

/-- The identity word the ID register reads (rules R2 and R51). -/
def idWord : Word := 0x4C5A5701

/-- The number of dictionary slots, codes 0 to 4095 (rule R11). -/
def dictSize : Nat := 4096

/-- The widest LZW code, in bits (rule R10). -/
def maxWidth : Nat := 12

/-- FREE VALUE. What BUF holds since power-up at an address nothing has written (rule R83, U3).
It depends on the address alone, because a read is idempotent (rule R97): log entry 5. -/
opaque unwrittenByte : Nat → Byte

/-- FREE VALUE. What `bsr_buf[i]` holds after reset, before a fill writes it (rule R54, U4): log entry 6. -/
opaque unspecifiedBsrByte : Nat → Byte

/-- FREE VALUE. What `lzw_prefix[k]` holds before an entry is written there (rule R56, U5): log entry 7. -/
opaque unspecifiedPrefix : Nat → BitVec 12

/-- FREE VALUE. What `lzw_suffix[k]` holds before an entry is written there (rule R56, U5): log entry 7. -/
opaque unspecifiedSuffix : Nat → Byte

/-- FREE VALUE. The bytes compressor number `k` proposes for an input (rules R8 and R302, U6). `Machine.deflate` takes them
only where they meet the laws of rule R302: log entry 3. -/
opaque proposedDeflate : Nat → List Byte → List Byte

end Sys2Proof.Config
end

