-- ==== Sys2Proof/Machine/State.lean ====
section
/-! DEFINITION. The state of the block (10_state.md), with the environment a run needs beside it: the two ports, the
open parameters and the host's accesses still to come (rules R6, R7, R8, R9 and R60). All of it is plain data. -/

namespace Sys2Proof.Machine

/-- A table held as its written slots, in strictly rising order of key. -/
abbrev Store (α : Type) := List (Nat × α)

/-- The contents of BUF: its written bytes, in strictly rising order of address. An unlisted address has no value yet
(rule R83, log entry 22). -/
abbrev Memory := List Host.Cell

/-- `lzw_state` (rule R55). -/
inductive LzwState where
  | idle
  | active
  | done
  deriving DecidableEq, Repr

/-- How IN ends once its bytes are used up (rule R84). -/
inductive InEnd where
  | eof
  | err (e : Word)
  deriving DecidableEq, Repr

/-- Which lawful DEFLATE the block has (rules R8 and R302): the instance DEFLATE_STORED of rule R340, or an open one. -/
inductive DeflateChoice where
  | stored
  | other (k : Nat)
  deriving DecidableEq, Repr

/-- One host operation (rule R470), with the width in bits of the access, since an access of another width is refused
(log entry 18). -/
inductive HostOp where
  /-- `RegRead(off)`. -/
  | regRead (off bits : Nat)
  /-- `RegWrite(off, v)`. -/
  | regWrite (off bits : Nat) (v : Word)
  /-- `BufRead(a)`. -/
  | bufRead (a bits : Nat)
  /-- `BufWrite(a, b)`. -/
  | bufWrite (a bits : Nat) (b : Byte)
  /-- Hardware reset. -/
  | hardReset
  deriving DecidableEq, Repr

/-- What a host read returned. -/
inductive Reply where
  | reg (v : Word)
  | buf (b : Byte)
  deriving DecidableEq, Repr

/-- The fault codes of rule R401. A fault of the block is no stop of the model: it is recorded in FAULT, FINFO0 and FINFO1, and
the machine goes on, locked (rules R403 and R405). -/
inductive FaultCode where
  | truncated
  | unexpectedEnd
  | lzwInvalidCode
  | lzwEarlyEoi
  | lzwTooMuchData
  | extraSubblock
  | badMinCodeSize
  | inIoError
  | outIoError
  | illegalCommand
  | bufRange
  | sequence
  deriving DecidableEq, Repr

/-- The model-only outcomes that end a run. -/
inductive Fault where
  /-- A command reads as data a BUF byte nothing has written since power-up (rule R83, U3: the outcome `ReadUnwritten`). Raised by
  CRC_UPDATE, OUT_WRITE, CHUNK_WRITE and ZLIB_COMPRESS. Safe: a device goes on with some value (log entry 20). -/
  | readUnwritten (addr : Nat)
  /-- A unit's loop has run its bound of passes. Raised by LZW_DECODE, LZW_FINISH and BSR_DRAIN in no state that keeps the
  invariants of rule R58 (log entry 8). Safe: it only stops. -/
  | loopBound
  deriving DecidableEq, Repr

/-- Why the model has no step: the instruction has no meaning yet, or the host breaks a condition of rule R470 (U11). -/
inductive Refusal where
  /-- Raised by no arm of `exec` in this model: every command has its meaning. Safe. -/
  | notModelled (mnemonic : String)
  /-- A register access whose offset is no multiple of 4, or is at or above 0x100. Raised by `RegRead` and `RegWrite`. Safe. -/
  | regOffset (off : Nat)
  /-- A register access of a width other than 32 bits. Raised by `RegRead` and `RegWrite`. Safe. -/
  | regWidth (bits : Nat)
  /-- A BUF access at or above BUF_BYTES. Raised by `BufRead` and `BufWrite`. Safe. -/
  | bufAddress (a : Nat)
  /-- A BUF access of a width other than 8 bits. Raised by `BufRead` and `BufWrite`. Safe. -/
  | bufWidth (bits : Nat)
  deriving DecidableEq, Repr

/-- The block, the ports and the host. Every field of the block is named as 10_state.md names it. -/
structure State where
  /-- CMD (rule R31). -/
  cmd : Word
  /-- A0 (rule R32). -/
  a0 : Word
  /-- A1 (rule R33). -/
  a1 : Word
  /-- A2 (rule R34). -/
  a2 : Word
  /-- RES (rule R35). -/
  res : Word
  /-- FAULT (rule R37). -/
  fault : Word
  /-- FINFO0 (rule R38). -/
  finfo0 : Word
  /-- FINFO1 (rule R39). -/
  finfo1 : Word
  /-- CTRL (rule R40). -/
  ctrl : Word
  /-- CRC (rule R41). -/
  crc : Word
  /-- ZADLER (rule R43). -/
  zadler : Word
  /-- IN_COUNT (rule R49). -/
  inCount : Word
  /-- OUT_COUNT (rule R50). -/
  outCount : Word
  /-- `bsr_buf`, the slots written since reset (rule R54). -/
  bsrBuf : Store Byte
  /-- `bsr_len` (rule R54). -/
  bsrLen : Nat
  /-- `bsr_pos` (rule R54). -/
  bsrPos : Nat
  /-- `bsr_term` (rule R54). -/
  bsrTerm : Bool
  /-- `lzw_state` (rule R55). -/
  lzwState : LzwState
  /-- `lzw_min` (rule R55). -/
  lzwMin : Nat
  /-- `lzw_width` (rule R55). -/
  lzwWidth : Nat
  /-- `lzw_next` (rule R55). -/
  lzwNext : Nat
  /-- `lzw_prev` (rule R55). -/
  lzwPrev : Nat
  /-- `lzw_prev_valid` (rule R55). -/
  lzwPrevValid : Bool
  /-- `lzw_bitbuf` (rule R55). -/
  lzwBitbuf : Word
  /-- `lzw_nbits` (rule R55). -/
  lzwNbits : Nat
  /-- `lzw_prefix`, the slots written since reset (rule R56). -/
  lzwPrefix : Store Nat
  /-- `lzw_suffix`, the slots written since reset (rule R56). -/
  lzwSuffix : Store Byte
  /-- `lzw_pend` (rule R57). -/
  lzwPend : List Byte
  /-- BUF (rule R80). -/
  buf : Memory
  /-- The parameter BUF_BYTES (rules R7 and R60). No step changes it. -/
  bufBytes : Nat
  /-- The parameter DEFLATE (rule R8). No step changes it. -/
  deflateChoice : DeflateChoice
  /-- What is left of the IN stream (rule R84). -/
  inBytes : List Byte
  /-- IN's end outcome (rule R84). No step changes it. -/
  inEnd : InEnd
  /-- The bytes OUT has accepted, oldest first (rule R85). -/
  outBytes : List Byte
  /-- The output positions at which OUT refuses, each with its error value (rules R85 and R86). No step changes it. -/
  outRefusals : Store Word
  /-- The host's operations still to come, next first (rules R6, R99 and R470). -/
  hostOps : List HostOp
  /-- What the host's reads have returned, oldest first (rules R30 and R81). -/
  hostReplies : List Reply
  deriving DecidableEq, Repr

/-- The machine after power-up and hardware reset (rule R450). Everything of the block is at the value rule R450 gives; the
unspecified tables list no slot. The parameters are those the spec's own vectors assume (95_test_vectors.md, conventions): BUF of
0x10000 bytes, DEFLATE_STORED, an IN that ends with Eof, an OUT that accepts every byte; IN is empty and no
host operation is waiting. These are DESIGN CHOICES, log entries 1, 2, 3 and 4. -/
def State.reset : State where
  cmd := 0
  a0 := 0
  a1 := 0
  a2 := 0
  res := 0
  fault := 0
  finfo0 := 0
  finfo1 := 0
  ctrl := 0
  crc := 0xFFFFFFFF
  zadler := 1
  inCount := 0
  outCount := 0
  bsrBuf := []
  bsrLen := 0
  bsrPos := 0
  bsrTerm := true
  lzwState := .idle
  lzwMin := 0
  lzwWidth := 0
  lzwNext := 0
  lzwPrev := 0
  lzwPrevValid := false
  lzwBitbuf := 0
  lzwNbits := 0
  lzwPrefix := []
  lzwSuffix := []
  lzwPend := []
  buf := []
  bufBytes := 0x10000
  deflateChoice := .stored
  inBytes := []
  inEnd := .eof
  outBytes := []
  outRefusals := []
  hostOps := []
  hostReplies := []

end Sys2Proof.Machine
end

