-- ==== Sys2Proof/Machine/Ops.lean ====
section
/-! DEFINITION. The named operations every command is made of: the sparse tables, BUF (rules R14, R80 and R82), the ports
(rules R87 and R89), recording a fault (rules R16 and R403), and leaving the faulted state by a reset (rules R406 and R450). -/

namespace Sys2Proof.Machine

/-- How a part of a command ends: it goes on with a value, or it has raised a fault, now recorded, which ends the command
(rule R16), or the model stops. -/
inductive Flow (α : Type) where
  | done (a : α) (s : State)
  | raised (s : State)
  | stop (f : Fault)

/-- Go on with `k` unless the command has ended (rule R16: "The pseudocode after it is not executed"). -/
def Flow.bind {α β : Type} (x : Flow α) (k : α → State → Flow β) : Flow β :=
  match x with
  | .done a s => k a s
  | .raised s => .raised s
  | .stop f => .stop f

/-- The outcome of a whole command: success and a recorded fault both leave the block in a next state (rule R143). -/
def Flow.outcome (x : Flow Unit) : Host.Outcome State Fault Refusal :=
  match x with
  | .done _ s => .next s
  | .raised s => .next s
  | .stop f => .fault f

/-- Run `body` for `i, i + 1, …`, `k` times, in increasing order (rule R96). -/
def forUp (body : Nat → State → Flow Unit) : (k i : Nat) → State → Flow Unit
  | 0, _, s => .done () s
  | k + 1, i, s => (body i s).bind fun _ s' => forUp body k (i + 1) s'

/-- Run `body` for the bytes of a list, in order. -/
def forBytes (body : Byte → State → Flow Unit) : List Byte → State → Flow Unit
  | [], s => .done () s
  | b :: bs, s => (body b s).bind fun _ s' => forBytes body bs s'

/-- The value of slot `a`, if it has been written. -/
def Store.find {α : Type} : Store α → Nat → Option α
  | [], _ => none
  | (k, v) :: m, a => if a = k then some v else Store.find m a

/-- The table with slot `a` holding `v`; the keys stay in strictly rising order. -/
def Store.put {α : Type} : Store α → Nat → α → Store α
  | [], a, v => [(a, v)]
  | (k, w) :: m, a, v =>
    if a < k then (a, v) :: (k, w) :: m
    else if a = k then (a, v) :: m
    else (k, w) :: Store.put m a v

/-- The canonical form of a table: the keys rise strictly. -/
abbrev Store.Rising {α : Type} (m : Store α) : Prop :=
  m.Pairwise (fun x y => x.1 < y.1)

/-- The canonical form of BUF. An unlisted address has no value, so no entry can equal what one reads as. -/
abbrev Memory.wf (m : Memory) : Prop :=
  Store.Rising m

/-- `BUF[a]`, or nothing where no byte was written (rule R83). -/
def Memory.read (m : Memory) (a : Nat) : Option Byte :=
  Store.find m a

/-- `BUF[a] <- b` (rule R14). -/
def Memory.write (m : Memory) (a : Nat) (b : Byte) : Memory :=
  Store.put m a b

/-- `MemWrite(a, n, v)` of rule R14, `n` being the length of the list. -/
def Memory.writeList : Memory → Nat → List Byte → Memory
  | m, _, [] => m
  | m, a, b :: bs => Memory.writeList (Memory.write m a b) (a + 1) bs

/-- `MemRead(a, n)` of rule R14, or nothing where one of the bytes was never written. -/
def Memory.readList (m : Memory) : (a n : Nat) → Option (List Byte)
  | _, 0 => some []
  | a, n + 1 =>
    match Memory.read m a, Memory.readList m (a + 1) n with
    | some b, some bs => some (b :: bs)
    | _, _ => none

/-- The 4 bytes of a word, most significant first (rule R13). -/
def be32 (v : Word) : List Byte :=
  [v.extractLsb' 24 8, v.extractLsb' 16 8, v.extractLsb' 8 8, v.extractLsb' 0 8]

/-- The code of a fault (rule R401). -/
def FaultCode.code : FaultCode → Byte
  | .truncated => 0x10
  | .unexpectedEnd => 0x11
  | .lzwInvalidCode => 0x12
  | .lzwEarlyEoi => 0x13
  | .lzwTooMuchData => 0x14
  | .extraSubblock => 0x15
  | .badMinCodeSize => 0x16
  | .inIoError => 0x30
  | .outIoError => 0x31
  | .illegalCommand => 0x40
  | .bufRange => 0x41
  | .sequence => 0x42

/-- Fault entry (rule R403): the code and its two context words are recorded, and nothing else is saved or changed. -/
def State.recordFault (s : State) (c : FaultCode) (info0 info1 : Word) : State :=
  { s with fault := c.code.setWidth 32, finfo0 := info0, finfo1 := info1 }

/-- `raise Fault(code, info0, info1)` (rules R16 and R403). A context word keeps the low 32 bits of its number
(log entry 17). -/
def raise {α : Type} (c : FaultCode) (info0 info1 : Nat) (s : State) : Flow α :=
  .raised (s.recordFault c (BitVec.ofNat 32 info0) (BitVec.ofNat 32 info1))

/-- The way out of a fault (rule R406) and hardware reset alike: every state of the block but BUF goes to its value of rule
R450, the unspecified tables listing no slot. BUF, the ports, the parameters and the host stay (rules R83 and R450). -/
def State.resetBlock (s : State) : State :=
  { State.reset with
    buf := s.buf
    bufBytes := s.bufBytes
    deflateChoice := s.deflateChoice
    inBytes := s.inBytes
    inEnd := s.inEnd
    outBytes := s.outBytes
    outRefusals := s.outRefusals
    hostOps := s.hostOps
    hostReplies := s.hostReplies }

/-- `RES <- v` (rule R35). -/
def State.setRes (s : State) (v : Word) : State :=
  { s with res := v }

/-- `CRC <- v` (rule R41). -/
def State.setCrc (s : State) (v : Word) : State :=
  { s with crc := v }

/-- `BUF[a] <- b` (rule R14). -/
def State.writeBuf (s : State) (a : Nat) (b : Byte) : State :=
  { s with buf := Memory.write s.buf a b }

/-- `MemWrite` of a list of bytes (rule R14). -/
def State.writeBufList (s : State) (a : Nat) (bs : List Byte) : State :=
  { s with buf := Memory.writeList s.buf a bs }

/-- IN without its first byte, which is counted (rule R87). -/
def State.tookByte (s : State) (rest : List Byte) : State :=
  { s with inBytes := rest, inCount := s.inCount + 1 }

/-- OUT with one more accepted byte, which is counted (rule R89). -/
def State.gaveByte (s : State) (b : Byte) : State :=
  { s with outBytes := s.outBytes ++ [b], outCount := s.outCount + 1 }

/-- `RangeCheck(a, n)` of rule R82: the sum is not wrapped. -/
def rangeCheck (a n : Nat) (s : State) : Flow Unit :=
  if a + n > s.bufBytes then raise .bufRange a n s else .done () s

/-- A command reads `BUF[a]` as data; a byte never written ends the run (rule R83, U3). -/
def readByte (a : Nat) (s : State) : Flow Byte :=
  match Memory.read s.buf a with
  | some b => .done b s
  | none => .stop (.readUnwritten a)

/-- `MemRead(a, n)` of rule R14 as a command uses it, one byte at a time in increasing order (rule R96). -/
def readBytes : (a n : Nat) → State → Flow (List Byte)
  | _, 0, s => .done [] s
  | a, n + 1, s =>
    (readByte a s).bind fun b s₁ =>
    (readBytes (a + 1) n s₁).bind fun bs s₂ => .done (b :: bs) s₂

/-- `InByte(exp, got)` of rule R87. -/
def inByte (exp got : Nat) (s : State) : Flow Byte :=
  match s.inBytes with
  | b :: rest => .done b (s.tookByte rest)
  | [] =>
    match s.inEnd with
    | .eof => raise .truncated exp got s
    | .err e => raise .inIoError e.toNat s.inCount.toNat s

/-- `OutByte(b)` of rule R89. OUT's answer is the one of this output position (rules R85 and R86, log entry 9). -/
def outByte (b : Byte) (s : State) : Flow Unit :=
  match Store.find s.outRefusals s.outBytes.length with
  | none => .done () (s.gaveByte b)
  | some e => raise .outIoError e.toNat s.outCount.toNat s

end Sys2Proof.Machine
end

