-- ==== Sys2Proof/Machine/Control.lean ====
section
/-! DEFINITION. The control commands (40_control.md). -/

namespace Sys2Proof.Machine

/-- NOP: nothing changes, RES neither (rule R141). -/
def execNop (s : State) : Host.Outcome State Fault Refusal :=
  .next s

/-- SRESET: everything of the block to its reset value but CMD and BUF (rules R142 and R450). It unlocks the block (rule R406).
Rule R144 is read as not speaking of it (log entry 13). -/
def execSreset (s : State) : Host.Outcome State Fault Refusal :=
  .next { s.resetBlock with cmd := s.cmd }

end Sys2Proof.Machine
end

