-- ==== Sys2Proof/Machine/Operands.lean ====
section
/-! DEFINITION. The operand forms of rule R112: the A-registers as 32-bit unsigned numbers, IMM, and the implicit state a command
reads. No operand is sign-extended, scaled or shifted, and no command writes one (rule R144). -/

namespace Sys2Proof.Machine

/-- A0 as an address in BUF, the source or the destination (rule R32). -/
def State.addr (s : State) : Nat :=
  s.a0.toNat

/-- A1 as a byte count (rule R33). -/
def State.count (s : State) : Nat :=
  s.a1.toNat

/-- A2 as the destination address of ZLIB_COMPRESS (rule R34). -/
def State.dest (s : State) : Nat :=
  s.a2.toNat

/-- A2 as the 4-byte chunk type of CHUNK_WRITE (rules R34 and R266). -/
def State.chunkType (s : State) : Word :=
  s.a2

/-- CTRL.STRICT_END, read by LZW_FINISH when it starts (rules R40 and R464). -/
def State.strictEnd (s : State) : Bool :=
  s.ctrl.getLsbD 0

/-- The command word, which SEQUENCE records (rule R401). -/
def State.commandWord (s : State) : Nat :=
  s.cmd.toNat

/-- The clear code `1 << lzw_min`, never stored (rule R55). -/
def State.clearCode (s : State) : Nat :=
  1 <<< s.lzwMin

/-- The end code `clear + 1`, never stored (rule R55). -/
def State.eoiCode (s : State) : Nat :=
  s.clearCode + 1

/-- `bsr_buf[i]`; a slot not written since reset holds an unspecified byte (rule R54, U4). -/
def State.bsrByte (s : State) (i : Nat) : Byte :=
  (Store.find s.bsrBuf i).getD (Config.unspecifiedBsrByte i)

/-- `lzw_prefix[k]`; a slot not written since reset holds an unspecified code (rule R56, U5). -/
def State.prefixOf (s : State) (k : Nat) : Nat :=
  (Store.find s.lzwPrefix k).getD (Config.unspecifiedPrefix k).toNat

/-- `lzw_suffix[k]`; a slot not written since reset holds an unspecified byte (rule R56, U5). -/
def State.suffixOf (s : State) (k : Nat) : Byte :=
  (Store.find s.lzwSuffix k).getD (Config.unspecifiedSuffix k)

/-- The data bytes of the current sub-block not yet served (rule R54). -/
def State.bsrLeft (s : State) : Nat :=
  s.bsrLen - s.bsrPos

end Sys2Proof.Machine
end

