-- ==== Sys2Proof/Machine/Crc.lean ====
section
/-! DEFINITION. The CRC-32 generator, the chunk writer and raw output (43_crc_chunk.md). -/

namespace Sys2Proof.Machine

/-- One of the 8 shifts of `CrcByte` (rule R260). -/
def crcShift (c : Word) : Word :=
  if c.getLsbD 0 then (c >>> 1) ^^^ 0xEDB88320 else c >>> 1

/-- `CrcByte(b)` of rule R260, as a function of the running state. -/
def crcByte (c : Word) (b : Byte) : Word :=
  crcShift (crcShift (crcShift (crcShift (crcShift (crcShift (crcShift (crcShift
    (c ^^^ b.setWidth 32))))))))

/-- The running state after a list of bytes, fed in order (rule R260). -/
def crcBytes (c : Word) (bs : List Byte) : Word :=
  bs.foldl crcByte c

/-- The finished CRC-32 of a byte string (rule R260). -/
def crc32 (bs : List Byte) : Word :=
  crcBytes 0xFFFFFFFF bs ^^^ 0xFFFFFFFF

/-- The bytes of a chunk of type `t` and payload `p` (rule R265). -/
def chunkBytes (t : Word) (p : List Byte) : List Byte :=
  be32 (BitVec.ofNat 32 p.length) ++ be32 t ++ p ++ be32 (crc32 (be32 t ++ p))

/-- `OutByte(b); CrcByte(b)`, for a byte the chunk's CRC covers (rule R266). A refused byte does not reach the CRC. -/
def outCrcByte (b : Byte) (s : State) : Flow Unit :=
  (outByte b s).bind fun _ s₁ => .done () (s₁.setCrc (crcByte s₁.crc b))

/-- CRC_UPDATE (rule R263). -/
def crcUpdate (s : State) : Flow Unit :=
  (rangeCheck s.addr s.count s).bind fun _ s₁ =>
  (forUp (fun i t => (readByte (s.addr + i) t).bind fun b t' => .done () (t'.setCrc (crcByte t'.crc b)))
    s.count 0 s₁).bind fun _ s₂ => .done () (s₂.setRes s.a1)

/-- CHUNK_WRITE (rule R266). The payload is read byte by byte as it is written (rule R96, log entry 10). -/
def chunkWrite (s : State) : Flow Unit :=
  (rangeCheck s.addr s.count s).bind fun _ s₁ =>
  (forBytes outByte (be32 s.a1) s₁).bind fun _ s₂ =>
  (forBytes outCrcByte (be32 s.chunkType) (s₂.setCrc 0xFFFFFFFF)).bind fun _ s₃ =>
  (forUp (fun i t => (readByte (s.addr + i) t).bind outCrcByte) s.count 0 s₃).bind fun _ s₄ =>
  (forBytes outByte (be32 (s₄.crc ^^^ 0xFFFFFFFF)) s₄).bind fun _ s₅ =>
    .done () (s₅.setRes (BitVec.ofNat 32 (s.count + 12)))

/-- OUT_WRITE (rule R268). -/
def outWrite (s : State) : Flow Unit :=
  (rangeCheck s.addr s.count s).bind fun _ s₁ =>
  (forUp (fun i t => (readByte (s.addr + i) t).bind outByte) s.count 0 s₁).bind fun _ s₂ =>
    .done () (s₂.setRes s.a1)

/-- CRC_INIT (rule R262). -/
def execCrcInit (s : State) : Host.Outcome State Fault Refusal :=
  .next ((s.setCrc 0xFFFFFFFF).setRes 0)

/-- CRC_UPDATE (rule R263). -/
def execCrcUpdate (s : State) : Host.Outcome State Fault Refusal :=
  (crcUpdate s).outcome

/-- CHUNK_WRITE (rule R266). -/
def execChunkWrite (s : State) : Host.Outcome State Fault Refusal :=
  (chunkWrite s).outcome

/-- OUT_WRITE (rule R268). -/
def execOutWrite (s : State) : Host.Outcome State Fault Refusal :=
  (outWrite s).outcome

end Sys2Proof.Machine
end

