-- ==== Sys2Proof/Machine/Stream.lean ====
section
/-! DEFINITION. Raw input and the block stream reader (41_stream_reader.md). -/

namespace Sys2Proof.Machine

/-- `bsr_buf[i] <- b` (rule R161). -/
def State.writeBsr (s : State) (i : Nat) (b : Byte) : State :=
  { s with bsrBuf := Store.put s.bsrBuf i b }

/-- A sub-block of `len` bytes is held, none of it served (rule R161). -/
def State.setBsr (s : State) (len pos : Nat) : State :=
  { s with bsrLen := len, bsrPos := pos }

/-- The BSR with every byte of the current sub-block served or dropped: `bsr_pos <- bsr_len` (rule R166). -/
def State.dropBlock (s : State) : State :=
  { s with bsrPos := s.bsrLen }

/-- `bsr_term <- 1` (rule R161). -/
def State.closeBsr (s : State) : State :=
  { s with bsrTerm := true }

/-- A new sub-block sequence starts at the current IN position (rule R164). -/
def State.openBsr (s : State) : State :=
  { s with bsrLen := 0, bsrPos := 0, bsrTerm := false }

/-- `BsrFill()` of rule R161. -/
def bsrFill (s : State) : Flow Unit :=
  (inByte 1 0 s).bind fun l s₁ =>
    if l = 0 then .done () s₁.closeBsr
    else
      (forUp (fun i t => (inByte l.toNat i t).bind fun b t' => .done () (t'.writeBsr i b))
        l.toNat 0 s₁).bind fun _ s₂ => .done () (s₂.setBsr l.toNat 0)

/-- The byte at `bsr_pos`, served (rule R162). -/
def serveByte (s : State) : Flow (Option Byte) :=
  .done (some (s.bsrByte s.bsrPos)) { s with bsrPos := s.bsrPos + 1 }

/-- `BsrNextByte()` of rule R162, `none` being EOD. The rule's loop runs BsrFill at most once: a fill that returns leaves either
a non-empty sub-block with nothing served, or `bsr_term = 1` (rule R161, log entry 16). -/
def bsrNextByte (s : State) : Flow (Option Byte) :=
  if s.bsrPos ≠ s.bsrLen then serveByte s
  else if s.bsrTerm then .done none s
  else (bsrFill s).bind fun _ s₁ =>
    if s₁.bsrPos ≠ s₁.bsrLen then serveByte s₁ else .done none s₁

/-- `while bsr_term = 0: BsrFill(); d <- d + (bsr_len - bsr_pos); bsr_pos <- bsr_len` of rules R166 and R222, returning `d`.
Each pass takes a byte from IN or raises, so a bound above the number of bytes left on IN is never reached (log entry 8). -/
def drainLoop : (bound d : Nat) → State → Flow Nat
  | 0, _, _ => .stop .loopBound
  | k + 1, d, s =>
    if s.bsrTerm then .done d s
    else (bsrFill s).bind fun _ s₁ => drainLoop k (d + s₁.bsrLeft) s₁.dropBlock

/-- Drop the rest of the current sub-block and every later one, up to and including the terminator, returning how many data bytes
that was (rules R166 and R224). -/
def drain (s : State) : Flow Nat :=
  drainLoop (s.inBytes.length + 2) s.bsrLeft s.dropBlock

/-- IN_READ: raw bytes from IN into BUF (rule R163). -/
def inRead (s : State) : Flow Unit :=
  (rangeCheck s.addr s.count s).bind fun _ s₁ =>
  (forUp (fun i t => (inByte s.count i t).bind fun b t' => .done () (t'.writeBuf (s.addr + i) b))
    s.count 0 s₁).bind fun _ s₂ => .done () (s₂.setRes s.a1)

/-- The bytes `bsr_buf[bsr_pos] … bsr_buf[bsr_pos + k - 1]` (rule R165). -/
def State.bsrSlice (s : State) (k : Nat) : List Byte :=
  (List.range k).map fun i => s.bsrByte (s.bsrPos + i)

/-- `k` bytes of the current sub-block copied to BUF at `dst` and served (rule R165). -/
def State.copyBlock (s : State) (dst k : Nat) : State :=
  { s.writeBufList dst (s.bsrSlice k) with bsrPos := s.bsrPos + k }

/-- BSR_READ once the buffer has been filled: the end of data, or the copy of `min(requested, available)` bytes (rule R165). -/
def bsrCopy (eodok : Bool) (dst n : Nat) (s : State) : Flow Unit :=
  if s.bsrPos = s.bsrLen then
    if eodok then .done () (s.setRes 0) else raise .unexpectedEnd n 0 s
  else
    let k := min n s.bsrLeft
    .done () ((s.copyBlock dst k).setRes (BitVec.ofNat 32 k))

/-- BSR_READ (rule R165). -/
def bsrRead (eodok : Bool) (s : State) : Flow Unit :=
  (rangeCheck s.addr s.count s).bind fun _ s₁ =>
  if s.count = 0 then .done () (s₁.setRes 0)
  else
    (if s₁.bsrPos = s₁.bsrLen ∧ s₁.bsrTerm = false then bsrFill s₁ else .done () s₁).bind fun _ s₂ =>
      bsrCopy eodok s.addr s.count s₂

/-- IN_READ (rule R163). -/
def execInRead (s : State) : Host.Outcome State Fault Refusal :=
  (inRead s).outcome

/-- BSR_OPEN (rule R164). -/
def execBsrOpen (s : State) : Host.Outcome State Fault Refusal :=
  .next (s.openBsr.setRes 0)

/-- BSR_READ (rule R165). -/
def execBsrRead (eodok : Bool) (s : State) : Host.Outcome State Fault Refusal :=
  (bsrRead eodok s).outcome

/-- BSR_DRAIN (rule R166). -/
def execBsrDrain (s : State) : Host.Outcome State Fault Refusal :=
  ((drain s).bind fun d s₁ => .done () (s₁.setRes (BitVec.ofNat 32 d))).outcome

end Sys2Proof.Machine
end

