-- ==== Sys2Proof/Machine/Lzw.lean ====
section
/-! DEFINITION. The LZW decompressor (42_lzw.md). -/

namespace Sys2Proof.Machine

/-- `LzwReset()` of rule R204. -/
def State.lzwReset (s : State) : State :=
  { s with
    lzwWidth := s.lzwMin + 1
    lzwNext := s.clearCode + 2
    lzwPrev := 0
    lzwPrevValid := false }

/-- `string(c)` of rule R203, read from the tables to the depth of the bound. An entry's prefix is below the entry (rule R58),
so a depth above `c` reaches the literal that ends the recursion (log entry 11). -/
def stringTo (s : State) : (depth c : Nat) → List Byte
  | 0, _ => []
  | k + 1, c =>
    if c < s.clearCode then [BitVec.ofNat 8 c]
    else stringTo s k (s.prefixOf c) ++ [s.suffixOf c]

/-- `string(c)` of rule R203. -/
def State.stringOf (s : State) (c : Nat) : List Byte :=
  stringTo s (c + 1) c

/-- The first byte of an expanded string. A string is never empty (rule R203). -/
def firstByte (bs : List Byte) : Byte :=
  bs.headD 0

/-- The bytes a data code stands for, or nothing where the code is invalid (rules R205, R207 and R210). -/
def State.codeString (s : State) (c : Nat) : Option (List Byte) :=
  if c < s.clearCode then some (s.stringOf c)
  else if s.eoiCode < c ∧ c < s.lzwNext then some (s.stringOf c)
  else if c = s.lzwNext ∧ s.lzwPrevValid = true ∧ s.lzwNext < Config.dictSize then
    some (s.stringOf s.lzwPrev ++ [firstByte (s.stringOf s.lzwPrev)])
  else none

/-- The code width after the entry that made `lzw_next` what it is (rule R211). -/
def grownWidth (next width : Nat) : Nat :=
  if next = 1 <<< width ∧ width < Config.maxWidth then width + 1 else width

/-- The entry a data code adds, the first byte of whose string is `b` (rules R208, R209, R211 and R212). -/
def State.addEntry (s : State) (b : Byte) : State :=
  if s.lzwPrevValid = true ∧ s.lzwNext < Config.dictSize then
    { s with
      lzwPrefix := Store.put s.lzwPrefix s.lzwNext s.lzwPrev
      lzwSuffix := Store.put s.lzwSuffix s.lzwNext b
      lzwNext := s.lzwNext + 1
      lzwWidth := grownWidth (s.lzwNext + 1) s.lzwWidth }
  else s

/-- `lzw_prev <- c; lzw_prev_valid <- 1` (rule R205). -/
def State.setPrev (s : State) (c : Nat) : State :=
  { s with lzwPrev := c, lzwPrevValid := true }

/-- The end code closes the code stream: `lzw_state <- DONE` (rule R205). -/
def State.finishLzw (s : State) : State :=
  { s with lzwState := .done }

/-- `Step(c)` of rule R205, `none` being EOI. -/
def stepCode (c : Nat) (s : State) : Flow (Option (List Byte)) :=
  if c = s.clearCode then .done (some []) s.lzwReset
  else if c = s.eoiCode then .done none s.finishLzw
  else
    match s.codeString c with
    | none => raise .lzwInvalidCode c s.lzwNext s
    | some bs => .done (some bs) ((s.addEntry (firstByte bs)).setPrev c)

/-- One more stream byte above the valid bits of the accumulator (rule R206). -/
def State.pushBits (s : State) (b : Byte) : State :=
  { s with
    lzwBitbuf := s.lzwBitbuf ||| (b.setWidth 32 <<< s.lzwNbits)
    lzwNbits := s.lzwNbits + 8 }

/-- Take stream bytes until the accumulator holds `lzw_width` bits, answering whether it does, or EOD came first (rule R206).
A pass adds 8 bits, so a bound of `lzw_width` passes is always enough. -/
def fetchBits : (bound : Nat) → State → Flow Bool
  | 0, s => .done true s
  | k + 1, s =>
    if s.lzwNbits < s.lzwWidth then
      (bsrNextByte s).bind fun b s₁ =>
        match b with
        | none => .done false s₁
        | some b => fetchBits k (s₁.pushBits b)
    else .done true s

/-- The code in the low `lzw_width` bits of the accumulator (rule R206). -/
def State.nextCode (s : State) : Nat :=
  (s.lzwBitbuf &&& ((1 : Word) <<< s.lzwWidth - 1)).toNat

/-- The accumulator without the code just taken from it (rule R206). -/
def State.dropCode (s : State) : State :=
  { s with
    lzwBitbuf := s.lzwBitbuf >>> s.lzwWidth
    lzwNbits := s.lzwNbits - s.lzwWidth }

/-- `ReadCode()` of rule R206, `none` being EOD. -/
def readCode (s : State) : Flow (Option Nat) :=
  (fetchBits s.lzwWidth s).bind fun ready s₁ =>
    if ready then .done (some s₁.nextCode) s₁.dropCode else .done none s₁

/-- The bits of the code stream not yet used: in the accumulator, in `bsr_buf` and on IN. A code takes at least one of them, so
they bound how many codes a command can read. -/
def State.bitsLeft (s : State) : Nat :=
  s.lzwNbits + 8 * (s.bsrLeft + s.inBytes.length)

/-- The pending list is `bs` (rule R57). -/
def State.setPend (s : State) (bs : List Byte) : State :=
  { s with lzwPend := bs }

/-- What a processed code leaves pending: its string, or, for the end code, the list as it stood (rule R218). -/
def State.takeString (s : State) : Option (List Byte) → State
  | some bs => s.setPend bs
  | none => s

/-- The loop of LZW_DECODE (rule R218), `i` bytes delivered. -/
def decodeLoop (dst n : Nat) : (bound i : Nat) → State → Flow Unit
  | 0, _, _ => .stop .loopBound
  | k + 1, i, s =>
    if i < n then
      match s.lzwPend with
      | b :: rest => decodeLoop dst n k (i + 1) ((s.writeBuf (dst + i) b).setPend rest)
      | [] =>
        if s.lzwState = .done then raise .lzwEarlyEoi n i s
        else
          (readCode s).bind fun oc s₁ =>
            match oc with
            | none => raise .unexpectedEnd n i s₁
            | some c => (stepCode c s₁).bind fun r s₂ => decodeLoop dst n k i (s₂.takeString r)
    else .done () s

/-- A stream of minCodeSize `m` opened: the coding state reset, the BSR opened, nothing accumulated and nothing pending
(rule R215). -/
def State.openLzw (s : State) (m : Nat) : State :=
  { { s with lzwMin := m }.lzwReset.openBsr with
    lzwBitbuf := 0
    lzwNbits := 0
    lzwPend := []
    lzwState := .active }

/-- LZW_INIT (rule R215). -/
def lzwInit (m : Nat) (s : State) : Flow Unit :=
  if m < 2 ∨ m > 8 then raise .badMinCodeSize m 0 s
  else
    .done () ((s.openLzw m).setRes 0)

/-- LZW_DECODE (rule R218). -/
def lzwDecode (s : State) : Flow Unit :=
  if s.lzwState = .idle then raise .sequence s.commandWord 0 s
  else
    (rangeCheck s.addr s.count s).bind fun _ s₁ =>
    (decodeLoop s.addr s.count (s.count + s₁.bitsLeft + 1) 0 s₁).bind fun _ s₂ =>
      .done () (s₂.setRes s.a1)

/-- The loop of a strict LZW_FINISH: codes are read until the end code or the end of data, and none may output a byte
(rules R222 and R223). -/
def strictLoop : (bound : Nat) → State → Flow Unit
  | 0, _ => .stop .loopBound
  | k + 1, s =>
    if s.lzwState = .active then
      (readCode s).bind fun oc s₁ =>
        match oc with
        | none => .done () s₁
        | some c => (stepCode c s₁).bind fun r s₂ =>
          match r with
          | some (b :: bs) => raise .lzwTooMuchData (b :: bs).length c s₂
          | _ => strictLoop k s₂
    else .done () s

/-- The terminator a strict LZW_FINISH consumes, unless the BSR has read it already (rule R222). -/
def readTerminator (s : State) : Flow Unit :=
  if s.bsrTerm then .done () s
  else
    (inByte 1 0 s).bind fun l s₁ =>
      if l ≠ 0 then raise .extraSubblock l.toNat 0 s₁ else .done () s₁.closeBsr

/-- The strict end check (rule R223), returning the data bytes it dropped. -/
def strictFinish (s : State) : Flow Nat :=
  if s.lzwPend ≠ [] then raise .lzwTooMuchData s.lzwPend.length 0xFFFFFFFF s
  else
    (strictLoop (s.bitsLeft + 1) s).bind fun _ s₁ =>
    (readTerminator s₁.dropBlock).bind fun _ s₂ => .done s₁.bsrLeft s₂

/-- The LZW unit closed, with nothing pending and an empty accumulator (rule R222). -/
def State.closeLzw (s : State) : State :=
  { s with lzwPend := [], lzwBitbuf := 0, lzwNbits := 0, lzwState := .idle }

/-- LZW_FINISH (rules R222 to R225). -/
def lzwFinish (s : State) : Flow Unit :=
  if s.lzwState = .idle then raise .sequence s.commandWord 0 s
  else
    (if s.strictEnd then strictFinish s else drain s).bind fun d s₁ =>
      .done () (s₁.closeLzw.setRes (BitVec.ofNat 32 d))

/-- LZW_INIT (rule R215). -/
def execLzwInit (m : Nat) (s : State) : Host.Outcome State Fault Refusal :=
  (lzwInit m s).outcome

/-- LZW_DECODE (rule R218). -/
def execLzwDecode (s : State) : Host.Outcome State Fault Refusal :=
  (lzwDecode s).outcome

/-- LZW_FINISH (rule R222). -/
def execLzwFinish (s : State) : Host.Outcome State Fault Refusal :=
  (lzwFinish s).outcome

end Sys2Proof.Machine
end

