-- ==== Sys2Proof/Machine/Inflate.lean ====
section
/-! DEFINITION. The deflate format and the reference inflater (44_zlib.md sections 4 and 5). The block has no inflater: this is
what the laws of rule R302 are stated against (rule R319). A stream is held as the list of its bits not yet read, least
significant bit of each byte first (rule R310), and `none` is a reject. -/

namespace Sys2Proof.Machine

/-- The bits of a stream still to be read, next first (rule R310). -/
abbrev Bits := List Bool

/-- The 8 bits of a byte, least significant first (rule R310). -/
def byteBits (b : Byte) : Bits :=
  (List.range 8).map b.getLsbD

/-- The bit sequence of a byte list (rule R310). -/
def bitsOf (d : List Byte) : Bits :=
  d.flatMap byteBits

/-- `GetBits(m)`: a field of `m` bits, least significant first (rule R310). -/
def getBits : (m : Nat) → Bits → Option (Nat × Bits)
  | 0, bits => some (0, bits)
  | _ + 1, [] => none
  | m + 1, b :: bits => (getBits m bits).map fun r => (b.toNat + 2 * r.1, r.2)

/-- Skip to the next byte boundary (rule R312): the stream has a whole number of bytes, so it stands there when a
whole number of bytes is left. -/
def alignBits (bits : Bits) : Bits :=
  bits.drop (bits.length % 8)

/-- `n` fields of 8 bits (rule R312). -/
def getBytes : (n : Nat) → Bits → Option (List Byte × Bits)
  | 0, bits => some ([], bits)
  | n + 1, bits =>
    match getBits 8 bits with
    | none => none
    | some (v, bits) => (getBytes n bits).map fun r => (BitVec.ofNat 8 v :: r.1, r.2)

/-- A Huffman code: each used symbol with its length and its code (rule R318). -/
abbrev Huffman := List ((Nat × Nat) × Nat)

/-- How many symbols have code length `b` (rule R318). -/
def lenCount (lens : List Nat) (b : Nat) : Nat :=
  lens.count b

/-- The over-subscription test of rule R318, for lengths `b, b + 1, …`, `k` of them. -/
def subscribed (lens : List Nat) : (k b left : Nat) → Bool
  | 0, _, _ => true
  | k + 1, b, left =>
    if 2 * left < lenCount lens b then false
    else subscribed lens k (b + 1) (2 * left - lenCount lens b)

/-- `next[b]` of rule R318, the first code of length `b`; `count[0]` is taken as 0. -/
def firstCode (lens : List Nat) : Nat → Nat
  | 0 => 0
  | b + 1 => 2 * (firstCode lens b + if b = 0 then 0 else lenCount lens b)

/-- The codes of the symbols `sym, sym + 1, …`, given the next free code of each length (rule R318). -/
def assignCodes : (lens : List Nat) → (sym : Nat) → (next : List Nat) → Huffman
  | [], _, _ => []
  | l :: lens, sym, next =>
    if l = 0 then assignCodes lens (sym + 1) next
    else ((l, next.getD l 0), sym) :: assignCodes lens (sym + 1) (next.set l (next.getD l 0 + 1))

/-- `BuildCode(len)` of rule R318. -/
def buildCode (lens : List Nat) : Option Huffman :=
  if subscribed lens 15 1 1 then
    some (assignCodes lens 0 ((List.range 16).map (firstCode lens)))
  else none

/-- The symbol of a length and a code (rule R318). -/
def findSym (h : Huffman) (len code : Nat) : Option Nat :=
  (h.find? fun e => e.1.1 == len && e.1.2 == code).map Prod.snd

/-- `DecodeSym(h)` of rule R318 with `k` more bits allowed: a code is read most significant bit first. -/
def decodeSymTo (h : Huffman) : (k len code : Nat) → Bits → Option (Nat × Bits)
  | 0, _, _, _ => none
  | _ + 1, _, _, [] => none
  | k + 1, len, code, b :: bits =>
    let code' := 2 * code + b.toNat
    match findSym h (len + 1) code' with
    | some sym => some (sym, bits)
    | none => decodeSymTo h k (len + 1) code' bits

/-- `DecodeSym(h)` of rule R318. -/
def decodeSym (h : Huffman) (bits : Bits) : Option (Nat × Bits) :=
  decodeSymTo h 15 0 0 bits

/-- The fixed literal/length code lengths (rule R313). -/
def fixedLit : List Nat :=
  List.replicate 144 8 ++ List.replicate 112 9 ++ List.replicate 24 7 ++ List.replicate 8 8

/-- The fixed distance code lengths (rule R313). -/
def fixedDist : List Nat :=
  List.replicate 32 5

/-- LBASE of rule R314. -/
def lengthBase : List Nat :=
  [3, 4, 5, 6, 7, 8, 9, 10, 11, 13, 15, 17, 19, 23, 27]
    ++ [31, 35, 43, 51, 59, 67, 83, 99, 115, 131, 163, 195, 227, 258]

/-- LEXT of rule R314. -/
def lengthExtra : List Nat :=
  [0, 0, 0, 0, 0, 0, 0, 0, 1, 1, 1, 1, 2, 2, 2] ++ [2, 3, 3, 3, 3, 4, 4, 4, 4, 5, 5, 5, 5, 0]

/-- DBASE of rule R315. -/
def distBase : List Nat :=
  [1, 2, 3, 4, 5, 7, 9, 13, 17, 25, 33, 49, 65, 97, 129]
    ++ [193, 257, 385, 513, 769, 1025, 1537, 2049, 3073, 4097, 6145, 8193, 12289, 16385, 24577]

/-- DEXT of rule R315. -/
def distExtra : List Nat :=
  [0, 0, 0, 0, 1, 1, 2, 2, 3, 3, 4, 4, 5, 5, 6] ++ [6, 7, 7, 8, 8, 9, 9, 10, 10, 11, 11, 12, 12, 13, 13]

/-- `length` bytes copied from `distance` back, over their own output where the two overlap (rule R319). -/
def copyBack : (length distance : Nat) → List Byte → List Byte
  | 0, _, out => out
  | n + 1, distance, out => copyBack n distance (out ++ [out.getD (out.length - distance) 0])

/-- A length symbol and the distance that follows it, applied to the output (rule R319). -/
def copyMatch (dist : Huffman) (s : Nat) (bits : Bits) (out : List Byte) : Option (Bits × List Byte) :=
  match getBits (lengthExtra.getD (s - 257) 0) bits with
  | none => none
  | some (le, bits) =>
    match decodeSym dist bits with
    | none => none
    | some (t, bits) =>
      if t ≥ 30 then none
      else
        match getBits (distExtra.getD t 0) bits with
        | none => none
        | some (de, bits) =>
          let distance := distBase.getD t 0 + de
          if distance > out.length then none
          else some (bits, copyBack (lengthBase.getD (s - 257) 0 + le) distance out)

/-- One pass of `Block(lit, dist)` of rule R319: a literal, the end of the block (answered with `true`), or a match. -/
def blockStep (lit dist : Huffman) (bits : Bits) (out : List Byte) : Option (Bool × (Bits × List Byte)) :=
  match decodeSym lit bits with
  | none => none
  | some (s, bits) =>
    if s < 256 then some (false, (bits, out ++ [BitVec.ofNat 8 s]))
    else if s = 256 then some (true, (bits, out))
    else if s ≤ 285 then (copyMatch dist s bits out).map fun r => (false, r)
    else none

/-- `Block(lit, dist)` of rule R319. Each pass reads a bit, so a bound above the number of bits left is never reached. -/
def inflateBlock (lit dist : Huffman) : (bound : Nat) → Bits → List Byte → Option (Bits × List Byte)
  | 0, _, _ => none
  | k + 1, bits, out =>
    match blockStep lit dist bits out with
    | none => none
    | some (true, r) => some r
    | some (false, r) => inflateBlock lit dist k r.1 r.2

/-- ORDER of rules R316 and R319. -/
def codeLenOrder : List Nat :=
  [16, 17, 18, 0, 8, 7, 9, 6, 10, 5] ++ [11, 4, 12, 3, 13, 2, 14, 1, 15]

/-- The 3-bit code lengths of the code-length alphabet, put in their places (rule R316). -/
def readCodeLens : (order : List Nat) → (cl : List Nat) → Bits → Option (List Nat × Bits)
  | [], cl, bits => some (cl, bits)
  | o :: order, cl, bits =>
    match getBits 3 bits with
    | none => none
    | some (v, bits) => readCodeLens order (cl.set o v) bits

/-- What a symbol of the code-length alphabet adds to the lengths read so far (rule R317). -/
def codeLenRun (s : Nat) (lens : List Nat) (bits : Bits) : Option (List Nat × Bits) :=
  if s ≤ 15 then some (lens ++ [s], bits)
  else if s = 16 then
    match lens.getLast? with
    | none => none
    | some l => (getBits 2 bits).map fun r => (lens ++ List.replicate (3 + r.1) l, r.2)
  else if s = 17 then (getBits 3 bits).map fun r => (lens ++ List.replicate (3 + r.1) 0, r.2)
  else (getBits 7 bits).map fun r => (lens ++ List.replicate (11 + r.1) 0, r.2)

/-- The `total` code lengths of a dynamic block (rules R317 and R319). Each pass adds a length, so `total + 1` passes are enough. -/
def readLens (c : Huffman) (total : Nat) : (bound : Nat) → List Nat → Bits → Option (List Nat × Bits)
  | 0, _, _ => none
  | k + 1, lens, bits =>
    if lens.length < total then
      match decodeSym c bits with
      | none => none
      | some (s, bits) =>
        match codeLenRun s lens bits with
        | none => none
        | some (lens, bits) => if lens.length > total then none else readLens c total k lens bits
    else some (lens, bits)

/-- `ReadDynamic()` of rule R319: the literal/length and the distance code lengths. -/
def readDynamic (bits : Bits) : Option ((List Nat × List Nat) × Bits) :=
  match getBits 5 bits with
  | none => none
  | some (a, bits) =>
    match getBits 5 bits with
    | none => none
    | some (b, bits) =>
      match getBits 4 bits with
      | none => none
      | some (c, bits) =>
        let hlit := a + 257
        let hdist := b + 1
        let hclen := c + 4
        if hlit > 286 ∨ hdist > 30 then none
        else
          match readCodeLens (codeLenOrder.take hclen) (List.replicate 19 0) bits with
          | none => none
          | some (cl, bits) =>
            match buildCode cl with
            | none => none
            | some code =>
              match readLens code (hlit + hdist) (hlit + hdist + 1) [] bits with
              | none => none
              | some (lens, bits) =>
                if lens.getD 256 0 = 0 then none
                else some ((lens.take hlit, lens.drop hlit), bits)

/-- The block with the code lengths `ll` and `dl` (rules R318 and R319). -/
def inflateCoded (ll dl : List Nat) (bits : Bits) (out : List Byte) : Option (Bits × List Byte) :=
  match buildCode ll, buildCode dl with
  | some lit, some dist => inflateBlock lit dist (bits.length + 1) bits out
  | _, _ => none

/-- A stored block after its 3 header bits (rule R312). -/
def inflateStored (bits : Bits) (out : List Byte) : Option (Bits × List Byte) :=
  match getBits 16 (alignBits bits) with
  | none => none
  | some (ln, bits) =>
    match getBits 16 bits with
    | none => none
    | some (nln, bits) =>
      if nln ≠ ln ^^^ 0xFFFF then none
      else (getBytes ln bits).map fun r => (r.2, out ++ r.1)

/-- The body of a block of type `btype` (rule R311). -/
def inflateBody (btype : Nat) (bits : Bits) (out : List Byte) : Option (Bits × List Byte) :=
  match btype with
  | 0 => inflateStored bits out
  | 1 => inflateCoded fixedLit fixedDist bits out
  | 2 =>
    match readDynamic bits with
    | none => none
    | some ((ll, dl), bits) => inflateCoded ll dl bits out
  | _ => none

/-- The blocks of a stream up to the one whose BFINAL is 1 (rule R319). Each block reads 3 header bits, so a bound above the
number of bits left is never reached. -/
def inflateBlocks : (bound : Nat) → Bits → List Byte → Option (Bits × List Byte)
  | 0, _, _ => none
  | k + 1, bits, out =>
    match getBits 1 bits with
    | none => none
    | some (bfinal, bits) =>
      match getBits 2 bits with
      | none => none
      | some (btype, bits) =>
        match inflateBody btype bits out with
        | none => none
        | some (bits, out) => if bfinal = 1 then some (bits, out) else inflateBlocks k bits out

/-- `Inflate(d)` of rule R319: the output, and how many bytes of `d` it used, a partly read byte counting whole
(log entry 21). -/
def inflate (d : List Byte) : Option (List Byte × Nat) :=
  (inflateBlocks (8 * d.length + 1) (bitsOf d) []).map fun r => (r.2, d.length - r.1.length / 8)

end Sys2Proof.Machine
end

