-- ==== Sys2Proof/Machine/Zlib.lean ====
section
/-! DEFINITION. The deflate/zlib encoder (44_zlib.md): Adler-32, the zlib wrapper and its acceptance test, the lawful DEFLATE
functions, and ZLIB_COMPRESS. -/

namespace Sys2Proof.Machine

/-- The modulus of Adler-32, the largest prime below 2^16 (rule R304). -/
def adlerMod : Nat := 65521

/-- The two sums of Adler-32 after one more byte (rule R304). -/
def adlerStep (sums : Nat × Nat) (b : Byte) : Nat × Nat :=
  let s1 := (sums.1 + b.toNat) % adlerMod
  (s1, (sums.2 + s1) % adlerMod)

/-- `Adler32(x)` of rule R304. -/
def adler32 (x : List Byte) : Word :=
  let sums := x.foldl adlerStep (1, 0)
  BitVec.ofNat 32 (sums.2 <<< 16 ||| sums.1)

/-- The 2 bytes of a number, least significant first (rule R340). -/
def le16 (v : Nat) : List Byte :=
  [BitVec.ofNat 8 v, BitVec.ofNat 8 (v >>> 8)]

/-- The longest piece a stored block holds (rules R312 and R340). -/
def storedMax : Nat := 65535

/-- One stored block (rules R311, R312 and R340). -/
def storedBlock (final : Bool) (p : List Byte) : List Byte :=
  BitVec.ofNat 8 final.toNat :: le16 p.length ++ le16 (p.length ^^^ 0xFFFF) ++ p

/-- The stored blocks of `x`, piece by piece (rule R340). An empty `x` gives one final empty block. -/
def storedBlocks : (bound : Nat) → List Byte → List Byte
  | 0, _ => []
  | k + 1, x =>
    if x.length ≤ storedMax then storedBlock true x
    else storedBlock false (x.take storedMax) ++ storedBlocks k (x.drop storedMax)

/-- `DEFLATE_STORED(x)` of rule R340. -/
def deflateStored (x : List Byte) : List Byte :=
  storedBlocks (x.length + 1) x

/-- L-ROUNDTRIP of rule R302 for one input: the stream decodes to exactly `x` and uses every byte. -/
def lawfulFor (x d : List Byte) : Bool :=
  inflate d == some (x, d.length)

/-- The block's DEFLATE (rules R8 and R302). An open compressor's bytes are taken where they meet the law, and DEFLATE_STORED's
where they do not, so the open choices are exactly the lawful functions (log entry 3). -/
def deflate (c : DeflateChoice) (x : List Byte) : List Byte :=
  match c with
  | .stored => deflateStored x
  | .other k =>
    if lawfulFor x (Config.proposedDeflate k x) then Config.proposedDeflate k x else deflateStored x

/-- The zlib datastream of `x`: the header 78 DA, the deflate data, and the Adler-32 big-endian (rule R301). -/
def zlibStream (c : DeflateChoice) (x : List Byte) : List Byte :=
  [0x78, 0xDA] ++ deflate c x ++ be32 (adler32 x)

/-- `ZlibCheck(z)` of rule R305, `none` being REJECT. -/
def zlibCheck (z : List Byte) : Option (List Byte) :=
  match z with
  | cmf :: flg :: d =>
    if (cmf.toNat * 256 + flg.toNat) % 31 ≠ 0 then none
    else if cmf.toNat % 16 ≠ 8 ∨ cmf.toNat / 16 > 7 then none
    else if flg.getLsbD 5 then none
    else
      match inflate d with
      | none => none
      | some (x, k) => if d.drop k = be32 (adler32 x) then some x else none
  | _ => none

/-- The datastream `z` of the input `x` written at the destination, with the Adler-32 of `x` (rules R43 and R300). -/
def State.putZlib (s : State) (x z : List Byte) : State :=
  { s.writeBufList s.dest z with zadler := adler32 x }

/-- ZLIB_COMPRESS (rule R300). The input is a snapshot, taken whole before a byte is written (rule R303). -/
def zlibCompress (s : State) : Flow Unit :=
  (rangeCheck s.addr s.count s).bind fun _ s₁ =>
  (readBytes s.addr s.count s₁).bind fun x s₂ =>
    let z := zlibStream s₂.deflateChoice x
    if s.dest + z.length > s₂.bufBytes then raise .bufRange s.dest z.length s₂
    else
      .done () ((s₂.putZlib x z).setRes (BitVec.ofNat 32 z.length))

/-- ZLIB_COMPRESS (rule R300). -/
def execZlibCompress (s : State) : Host.Outcome State Fault Refusal :=
  (zlibCompress s).outcome

end Sys2Proof.Machine
end

