-- ==== Sys2Proof/Machine/Dispatch.lean ====
section
/-! DEFINITION. The meaning of each command, one arm per row of rule R114. The lock and an ILLEGAL word are handled before a command
is dispatched (rule R143, Machine/Execute.lean). -/

namespace Sys2Proof.Machine

def exec (i : Instr) (s : State) : Host.Outcome State Fault Refusal :=
  match i with
  | .nop => Sys2Proof.Machine.execNop s
  | .sreset => Sys2Proof.Machine.execSreset s
  | .inRead => Sys2Proof.Machine.execInRead s
  | .bsrOpen => Sys2Proof.Machine.execBsrOpen s
  | .bsrRead eodok => Sys2Proof.Machine.execBsrRead eodok s
  | .bsrDrain => Sys2Proof.Machine.execBsrDrain s
  | .lzwInit m => Sys2Proof.Machine.execLzwInit m s
  | .lzwDecode => Sys2Proof.Machine.execLzwDecode s
  | .lzwFinish => Sys2Proof.Machine.execLzwFinish s
  | .crcInit => Sys2Proof.Machine.execCrcInit s
  | .crcUpdate => Sys2Proof.Machine.execCrcUpdate s
  | .zlibCompress => Sys2Proof.Machine.execZlibCompress s
  | .chunkWrite => Sys2Proof.Machine.execChunkWrite s
  | .outWrite => Sys2Proof.Machine.execOutWrite s

end Sys2Proof.Machine
end

