-- ==== Sys2Proof/Machine/Flags.lean ====
section
/-! DEFINITION. The status bits and the read-only views, each computed from the state it shows (rules R36, R42 and R44 to R48). -/

namespace Sys2Proof.Machine

/-- The block is locked: FAULT is not 0 (rules R20 and R405, log entry 14). -/
def State.locked (s : State) : Bool :=
  s.fault != 0

/-- The low `w` bits of a number, moved up to bit `lo` of a register view. -/
def packField (v w lo : Nat) : Nat :=
  (v % 2 ^ w) <<< lo

/-- STATUS.FAULT: FAULT.CODE, bits 7:0, is not 0 (rule R36). -/
def State.statusFault (s : State) : Bool :=
  s.fault.toNat % 2 ^ 8 != 0

/-- STATUS.EOD (rule R36). -/
def State.statusEod (s : State) : Bool :=
  s.bsrTerm

/-- STATUS.LZW_ACTIVE (rule R36). -/
def State.statusActive (s : State) : Bool :=
  s.lzwState == .active

/-- STATUS.LZW_DONE (rule R36). -/
def State.statusDone (s : State) : Bool :=
  s.lzwState == .done

/-- STATUS: bit 4 BUSY and bits 31:5 read 0 (rule R36). -/
def State.statusView (s : State) : Word :=
  BitVec.ofNat 32
    (packField s.statusFault.toNat 1 0 + packField s.statusEod.toNat 1 1
      + packField s.statusActive.toNat 1 2 + packField s.statusDone.toNat 1 3)

/-- CRC_OUT, the finished CRC-32 (rule R42). -/
def State.crcOutView (s : State) : Word :=
  s.crc ^^^ 0xFFFFFFFF

/-- LZWSTAT.STATE (rule R44). -/
def LzwState.code : LzwState → Nat
  | .idle => 0
  | .active => 1
  | .done => 2

/-- LZWSTAT (rule R44). -/
def State.lzwStatView (s : State) : Word :=
  BitVec.ofNat 32
    (packField s.lzwMin 4 0 + packField s.lzwWidth 4 4 + packField s.lzwNext 13 8
      + packField s.lzwState.code 2 21 + packField s.lzwPrevValid.toNat 1 23)

/-- LZWAUX (rule R45). -/
def State.lzwAuxView (s : State) : Word :=
  BitVec.ofNat 32 (packField s.lzwPrev 12 0 + packField s.lzwNbits 5 12)

/-- LZWBITS (rule R46). -/
def State.lzwBitsView (s : State) : Word :=
  s.lzwBitbuf

/-- LZWPEND (rule R47). -/
def State.lzwPendView (s : State) : Word :=
  BitVec.ofNat 32 (packField s.lzwPend.length 13 0)

/-- BSRSTAT (rule R48). -/
def State.bsrStatView (s : State) : Word :=
  BitVec.ofNat 32
    (packField s.bsrLen 8 0 + packField s.bsrPos 8 8 + packField s.bsrTerm.toNat 1 16)

/-- CFG: BUF_BYTES modulo 2^32 (rule R52). -/
def State.cfgView (s : State) : Word :=
  BitVec.ofNat 32 s.bufBytes

end Sys2Proof.Machine
end

