-- ==== Sys2Proof/Machine/Execute.lean ====
section
/-! DEFINITION. The command cycle (rule R143) and the host's operations on the block (rules R30, R81, R470 and R471). -/

namespace Sys2Proof.Machine

/-- The one word a locked block runs, SRESET's (rules R143 and R405). -/
def sresetWord : Word := 0x00000001

/-- `Execute(w)` of rule R143, CMD holding `w` already. -/
def execute (w : Word) (s : State) : Host.Outcome State Fault Refusal :=
  if s.locked = true ∧ w ≠ sresetWord then .next s
  else
    match decode w with
    | .illegal _ => (raise (α := Unit) .illegalCommand w.toNat 0 s).outcome
    | .command i => exec i s

/-- The named registers of the window (rule R30). -/
inductive Reg where
  | cmd | a0 | a1 | a2 | res | status | fault | finfo0 | finfo1 | ctrl | crc | crcOut | zadler
  | lzwStat | lzwAux | lzwBits | lzwPend | bsrStat | inCount | outCount | id | cfg
  deriving DecidableEq, Repr

/-- The offset of a register (rule R30). -/
def Reg.offset : Reg → Nat
  | .cmd => 0x00
  | .a0 => 0x04
  | .a1 => 0x08
  | .a2 => 0x0C
  | .res => 0x10
  | .status => 0x14
  | .fault => 0x18
  | .finfo0 => 0x1C
  | .finfo1 => 0x20
  | .ctrl => 0x24
  | .crc => 0x28
  | .crcOut => 0x2C
  | .zadler => 0x30
  | .lzwStat => 0x34
  | .lzwAux => 0x38
  | .lzwBits => 0x3C
  | .lzwPend => 0x40
  | .bsrStat => 0x44
  | .inCount => 0x48
  | .outCount => 0x4C
  | .id => 0x50
  | .cfg => 0x54

/-- The register at an offset; the offsets 0x58 to 0xFC are reserved (rules R30 and R53). -/
def regAt (off : Nat) : Option Reg :=
  match off with
  | 0x00 => some .cmd
  | 0x04 => some .a0
  | 0x08 => some .a1
  | 0x0C => some .a2
  | 0x10 => some .res
  | 0x14 => some .status
  | 0x18 => some .fault
  | 0x1C => some .finfo0
  | 0x20 => some .finfo1
  | 0x24 => some .ctrl
  | 0x28 => some .crc
  | 0x2C => some .crcOut
  | 0x30 => some .zadler
  | 0x34 => some .lzwStat
  | 0x38 => some .lzwAux
  | 0x3C => some .lzwBits
  | 0x40 => some .lzwPend
  | 0x44 => some .bsrStat
  | 0x48 => some .inCount
  | 0x4C => some .outCount
  | 0x50 => some .id
  | 0x54 => some .cfg
  | _ => none

/-- What a register reads (rules R31 to R52). -/
def State.regValue (s : State) : Reg → Word
  | .cmd => s.cmd
  | .a0 => s.a0
  | .a1 => s.a1
  | .a2 => s.a2
  | .res => s.res
  | .status => s.statusView
  | .fault => s.fault
  | .finfo0 => s.finfo0
  | .finfo1 => s.finfo1
  | .ctrl => s.ctrl
  | .crc => s.crc
  | .crcOut => s.crcOutView
  | .zadler => s.zadler
  | .lzwStat => s.lzwStatView
  | .lzwAux => s.lzwAuxView
  | .lzwBits => s.lzwBitsView
  | .lzwPend => s.lzwPendView
  | .bsrStat => s.bsrStatView
  | .inCount => s.inCount
  | .outCount => s.outCount
  | .id => Config.idWord
  | .cfg => s.cfgView

/-- `RegRead(off)`: a reserved offset returns 0 (rules R30 and R53). -/
def State.readOffset (s : State) (off : Nat) : Word :=
  match regAt off with
  | some r => s.regValue r
  | none => 0

/-- A host write of a register other than CMD: the A-registers, CTRL (of which only bit 0 is kept) and CRC take it, and a read-only
register ignores it (rules R30, R32 to R34, R40 and R41). -/
def State.setReg (s : State) (r : Reg) (v : Word) : State :=
  match r with
  | .a0 => { s with a0 := v }
  | .a1 => { s with a1 := v }
  | .a2 => { s with a2 := v }
  | .ctrl => { s with ctrl := v &&& 1 }
  | .crc => s.setCrc v
  | .cmd | .res | .status | .fault | .finfo0 | .finfo1 | .crcOut | .zadler | .lzwStat | .lzwAux
  | .lzwBits | .lzwPend | .bsrStat | .inCount | .outCount | .id | .cfg => s

/-- `RegWrite(off, v)`: CMD stores `v` and runs it, a reserved offset ignores it (rules R30, R31 and R143). -/
def writeOffset (off : Nat) (v : Word) (s : State) : Host.Outcome State Fault Refusal :=
  match regAt off with
  | some .cmd => execute v { s with cmd := v }
  | some r => .next (s.setReg r v)
  | none => .next s

/-- `BufRead(a)` for an `a` inside BUF: a byte never written reads as a free value (rule R81, U3). -/
def State.hostByte (s : State) (a : Nat) : Byte :=
  (Memory.read s.buf a).getD (Config.unwrittenByte a)

/-- The host receives the answer to a read. -/
def State.reply (s : State) (r : Reply) : State :=
  { s with hostReplies := s.hostReplies ++ [r] }

/-- Hardware reset: every state of the block but BUF, CMD included, to its reset value (rule R450). -/
def hardReset (s : State) : State :=
  s.resetBlock

/-- What rule R470 asks of a register access, or the name of what is refused (U11). -/
def regAccess (off bits : Nat) (k : Host.Outcome State Fault Refusal) : Host.Outcome State Fault Refusal :=
  if off % 4 ≠ 0 ∨ off ≥ 0x100 then .refused (.regOffset off)
  else if bits ≠ 32 then .refused (.regWidth bits)
  else k

/-- What rule R470 asks of a BUF access, or the name of what is refused (U11). -/
def bufAccess (a bits : Nat) (s : State) (k : Host.Outcome State Fault Refusal) : Host.Outcome State Fault Refusal :=
  if a ≥ s.bufBytes then .refused (.bufAddress a)
  else if bits ≠ 8 then .refused (.bufWidth bits)
  else k

/-- One host operation on the block (rule R470). The lock blocks none of them (rule R471). -/
def hostStep (op : HostOp) (s : State) : Host.Outcome State Fault Refusal :=
  match op with
  | .regRead off bits => regAccess off bits (.next (s.reply (.reg (s.readOffset off))))
  | .regWrite off bits v => regAccess off bits (writeOffset off v s)
  | .bufRead a bits => bufAccess a bits s (.next (s.reply (.buf (s.hostByte a))))
  | .bufWrite a bits b => bufAccess a bits s (.next (s.writeBuf a b))
  | .hardReset => .next (hardReset s)

/-- The host's next operation, if it has one, on the block (rule R99). With none the block is idle and holds its state (rule R417). -/
def runHost (s : State) : Host.Outcome State Fault Refusal :=
  match s.hostOps with
  | [] => .next s
  | op :: ops => hostStep op { s with hostOps := ops }

/-- The host's next operation is the CMD write of a word: what stands for fetching an instruction here (rules R6 and R102). -/
def State.queueCommand (s : State) (w : Word) : State :=
  { s with hostOps := .regWrite 0x00 32 w :: s.hostOps }

end Sys2Proof.Machine
end

