-- ==== Sys2Proof/Machine/Step.lean ====
section
/-! DEFINITION. One step of the machine: the host's next operation, run to its end (rules R3, R17 and R99). -/

namespace Sys2Proof.Machine

/-- One step: one host operation, atomic (rule R470). -/
def step (s : State) : Host.Outcome State Fault Refusal :=
  runHost s

/-- The state in which the very next step runs the command whose word is the low `nbits` bits of `w`: the host writes it to CMD next. -/
def State.withFetchWord (s : State) (nbits w : Nat) : State :=
  s.queueCommand (BitVec.ofNat 32 (w % 2 ^ nbits))

end Sys2Proof.Machine
end

