-- ==== Sys2Proof/Safety.lean ====
section
/-! DEFINITION. What counts as a safe run, in the terms the claims use: the invariants of rule R58 with what they rest on, and the
outcomes a step may have. -/

namespace Sys2Proof.Machine

/-- Entry `k` of the dictionary is defined (rule R56). -/
def State.Defined (s : State) (k : Nat) : Prop :=
  s.clearCode + 2 ≤ k ∧ k < s.lzwNext

/-- `c` is a literal or a defined entry, a code that has a string (rules R201 and R203). -/
def State.DataCode (s : State) (c : Nat) : Prop :=
  c < s.clearCode ∨ s.Defined c

/-- What rule R58 says while a stream is open, each clause as strong as a step needs it: an entry's prefix is a data code below
it, so that no unspecified slot is ever read (rule R451). -/
structure State.OpenInv (s : State) : Prop where
  minRange : 2 ≤ s.lzwMin ∧ s.lzwMin ≤ 8
  widthRange : s.lzwMin + 1 ≤ s.lzwWidth ∧ s.lzwWidth ≤ 12
  nextRange : s.clearCode + 2 ≤ s.lzwNext ∧ s.lzwNext ≤ 4096
  room : s.lzwNext < 2 ^ s.lzwWidth ∨ (s.lzwNext = 4096 ∧ s.lzwWidth = 12)
  prevData : s.lzwPrevValid = true → s.DataCode s.lzwPrev
  prefixes : ∀ k, s.Defined k → ∃ p, Store.find s.lzwPrefix k = some p ∧ p < k ∧ s.DataCode p
  suffixes : ∀ k, s.Defined k → ∃ b, Store.find s.lzwSuffix k = some b

/-- The invariants of BUF and of the units (rules R54 to R58 and R80). -/
structure State.UnitInv (s : State) : Prop where
  bufSize : 1 ≤ s.bufBytes ∧ s.bufBytes ≤ 2 ^ 32
  bufForm : Memory.wf s.buf
  bufInside : ∀ c ∈ s.buf, c.1 < s.bufBytes
  bsrRange : s.bsrPos ≤ s.bsrLen ∧ s.bsrLen ≤ 255
  bsrForm : Store.Rising s.bsrBuf ∧ ∀ c ∈ s.bsrBuf, c.1 < 255
  bsrFilled : ∀ i, i < s.bsrLen → ∃ b, Store.find s.bsrBuf i = some b
  prefixForm : Store.Rising s.lzwPrefix ∧ ∀ c ∈ s.lzwPrefix, c.1 < 4096 ∧ c.2 < 4096
  suffixForm : Store.Rising s.lzwSuffix ∧ ∀ c ∈ s.lzwSuffix, c.1 < 4096
  lzwSizes : s.lzwMin ≤ 8 ∧ s.lzwWidth ≤ 12 ∧ s.lzwNext ≤ 4096 ∧ s.lzwPrev < 4096
  accumulator : s.lzwNbits ≤ 19 ∧ s.lzwBitbuf.toNat < 2 ^ s.lzwNbits
  pendSize : s.lzwPend.length ≤ 4095
  opened : s.lzwState ≠ .idle → s.OpenInv

/-- The invariants of the whole machine between host operations: those of the units, CTRL's reserved bits (rule R40), and the
fault registers (rules R37, R38, R225 and U15). -/
structure State.Inv (s : State) : Prop where
  units : s.UnitInv
  ctrlBits : s.ctrl.toNat ≤ 1
  faultCode : s.fault = 0 ∨ ∃ c : FaultCode, s.fault = c.code.setWidth 32
  infoClear : s.fault = 0 → s.finfo0 = 0 ∧ s.finfo1 = 0
  doneFaulted : s.lzwState = .done → s.fault ≠ 0

/-- OUT accepts the next `n` bytes it is given (rule R85). -/
def State.outAccepts (s : State) (n : Nat) : Prop :=
  ∀ j, j < n → Store.find s.outRefusals (s.outBytes.length + j) = none

/-- A sub-block sequence as IN carries it: each sub-block behind its length byte, then the terminator (rule R160). -/
def subBlocks : List (List Byte) → List Byte
  | [] => [0]
  | b :: bs => BitVec.ofNat 8 b.length :: b ++ subBlocks bs

/-- A list of sub-blocks the sequence of rule R160 can carry: each of 1 to 255 bytes. -/
def blocksFit (bs : List (List Byte)) : Prop :=
  ∀ b ∈ bs, 1 ≤ b.length ∧ b.length ≤ 255

/-- `bsr_buf` after the sub-blocks of a sequence have passed through it, each from slot 0 up (rule R161). -/
def fillTable : Store Byte → (i : Nat) → List Byte → Store Byte
  | m, _, [] => m
  | m, i, b :: bs => fillTable (Store.put m i b) (i + 1) bs

/-- Whole sub-blocks as IN carries them, with no terminator behind (rule R160). -/
def wholeBlocks (bs : List (List Byte)) : List Byte :=
  bs.flatMap fun b => BitVec.ofNat 8 b.length :: b

/-- What IN holds where the fill that reads it fails (rules R87 and R161): nothing, with the length byte wanted, or a length byte
`exp` with only `got` of its bytes behind it. -/
def cutBlock (exp got : Nat) (bs : List Byte) : Prop :=
  (bs = [] ∧ exp = 1 ∧ got = 0) ∨ ∃ d, d.length = got ∧ got < exp ∧ exp ≤ 255 ∧ bs = BitVec.ofNat 8 exp :: d

/-- What a failed fill leaves (rules R87, R161 and R404): all that IN held is taken and counted, the data bytes of it stand in
`bsr_buf`, and IN's end is recorded, TRUNCATED(exp, got) for Eof and IN_IO_ERROR(e, IN_COUNT) for Err(e). -/
def State.cutFill (s : State) (exp got : Nat) : State :=
  { s with
    bsrBuf := fillTable s.bsrBuf 0 s.inBytes.tail
    inBytes := []
    inCount := s.inCount + BitVec.ofNat 32 s.inBytes.length
    fault := match s.inEnd with | .eof => 0x10 | .err _ => 0x30
    finfo0 := match s.inEnd with | .eof => BitVec.ofNat 32 exp | .err e => e
    finfo1 := match s.inEnd with
      | .eof => BitVec.ofNat 32 got
      | .err _ => s.inCount + BitVec.ofNat 32 s.inBytes.length }

/-- The outcome is a next state, or the model-only end of a read of an unwritten byte (rule R83, U3): no other stop. -/
def runsOrReadsUnwritten (o : Host.Outcome State Fault Refusal) : Prop :=
  (∃ t, o = .next t) ∨ ∃ a, o = .fault (.readUnwritten a)

end Sys2Proof.Machine
end

