-- ==== Sys2Proof/Certificates/Slice0/Obligations.lean ====
section
/-! DEFINITION. The statements about the model, each from the rules of spec/ its docstring names. A `next` state given as the old
one with some fields replaced says the frame too: every other field of State is as it was. -/

open Sys2Proof Sys2Proof.Machine

/-! ### Encoding and the command cycle -/

/-- Decoding the word of a command gives the command back, for every command and every IMM it admits (rules R110 to R115). -/
def Obligations.DecodeEncodeAgree : Prop :=
  ∀ i : Instr, i.wf = true → decode (encode i) = .command i

/-- A word that decodes to a command is that command's word: no two words are one command (rule R116). -/
def Obligations.EncodeDecodeAgree : Prop :=
  ∀ (w : Word) (i : Instr), decode w = .command i → i.wf = true ∧ encode i = w

/-- Rule R116: which words are illegal, and (with rule R402) that each of them faults ILLEGAL_COMMAND with the word, changing
nothing else but CMD. -/
def Obligations.IllegalWordsFault : Prop :=
  (∀ w : Word, (∃ e, decode w = .illegal e) ↔
    field w 31 16 ≠ 0
      ∨ field w 7 0 ∉ [0x00, 0x01, 0x10, 0x11, 0x12, 0x13, 0x20, 0x21, 0x22, 0x30, 0x31, 0x40, 0x50, 0x51]
      ∨ (field w 7 0 ≠ 0x12 ∧ field w 7 0 ≠ 0x20 ∧ field w 15 8 ≠ 0)
      ∨ (field w 7 0 = 0x12 ∧ field w 15 9 ≠ 0))
  ∧ ∀ (w : Word) (s : State) (e : DecodeError), decode w = .illegal e → s.fault = 0 →
      hostStep (.regWrite 0x00 32 w) s = .next { s with cmd := w, fault := 0x40, finfo0 := w, finfo1 := 0 }

/-- Words written out from rules R114 and R119 decode to the commands they stand for. -/
def Obligations.TableWordsDecode : Prop :=
  decode 0x00000000 = .command .nop ∧ decode 0x00000001 = .command .sreset
    ∧ decode 0x00000010 = .command .inRead ∧ decode 0x00000112 = .command (.bsrRead true)
    ∧ decode 0x00000012 = .command (.bsrRead false) ∧ decode 0x00000820 = .command (.lzwInit 8)
    ∧ decode 0x00000021 = .command .lzwDecode ∧ decode 0x00000031 = .command .crcUpdate
    ∧ decode 0x00000040 = .command .zlibCompress ∧ decode 0x00000050 = .command .chunkWrite

/-- Rule R143: a step that writes CMD stores the word, then runs it: a locked block ignores every word but SRESET's, an illegal word
raises ILLEGAL_COMMAND, and a command is run by `exec`. That a step takes the next operation of a queue is the model's own
(log entry 4). -/
def Obligations.StepRunsDecodedCommand : Prop :=
  ∀ (s : State) (w : Word) (ops : List HostOp), s.hostOps = .regWrite 0x00 32 w :: ops →
    (s.fault ≠ 0 → w ≠ 0x00000001 → step s = .next { s with hostOps := ops, cmd := w })
    ∧ (s.fault = 0 ∨ w = 0x00000001 →
        (∀ i, decode w = .command i → step s = exec i { s with hostOps := ops, cmd := w })
        ∧ ∀ e, decode w = .illegal e →
            step s = .next { s with hostOps := ops, cmd := w, fault := 0x40, finfo0 := w, finfo1 := 0 })

/-- `withFetchWord` makes the very next step run the command whose word it is given: the host's queue is the model's own (log
entry 4). -/
def Obligations.WithFetchWordRunsCommand : Prop :=
  ∀ (s : State) (i : Instr), i.wf = true → s.fault = 0 →
    step (s.withFetchWord 32 (encode i).toNat) = exec i { s with cmd := encode i }

/-! ### The lock, reset and control -/

/-- Rule R405: while FAULT is not 0 a command other than SRESET does nothing but store its word, the host's other accesses work as at
any other time, and no second fault replaces the first. What a read returns goes into the model's own reply list (log entry 4), and
`hostByte` of a byte never written is a free value (log entry 5). -/
def Obligations.LockedBlockIgnoresCommands : Prop :=
  ∀ s : State, s.fault ≠ 0 →
    (∀ w : Word, w ≠ 0x00000001 → hostStep (.regWrite 0x00 32 w) s = .next { s with cmd := w })
    ∧ hostStep (.regWrite 0x00 32 0x00000001) s = exec .sreset { s with cmd := 0x00000001 }
    ∧ (∀ v : Word,
        hostStep (.regWrite 0x04 32 v) s = .next { s with a0 := v }
        ∧ hostStep (.regWrite 0x08 32 v) s = .next { s with a1 := v }
        ∧ hostStep (.regWrite 0x0C 32 v) s = .next { s with a2 := v }
        ∧ hostStep (.regWrite 0x24 32 v) s = .next { s with ctrl := v &&& 1 }
        ∧ hostStep (.regWrite 0x28 32 v) s = .next { s with crc := v })
    ∧ (∀ off v, off % 4 = 0 → off < 0x100 → off ∉ [0x00, 0x04, 0x08, 0x0C, 0x24, 0x28] →
        hostStep (.regWrite off 32 v) s = .next s)
    ∧ (∀ off, off % 4 = 0 → off < 0x100 →
        hostStep (.regRead off 32) s
          = .next { s with hostReplies := s.hostReplies ++ [.reg (s.readOffset off)] })
    ∧ (∀ a b, a < s.bufBytes →
        hostStep (.bufWrite a 8 b) s = .next { s with buf := Memory.write s.buf a b }
        ∧ hostStep (.bufRead a 8) s = .next { s with hostReplies := s.hostReplies ++ [.buf (s.hostByte a)] })
    ∧ ∀ op t, op ≠ .hardReset → op ≠ .regWrite 0x00 32 0x00000001 → hostStep op s = .next t →
        t.fault = s.fault ∧ t.finfo0 = s.finfo0 ∧ t.finfo1 = s.finfo1

/-- Rule R406: a fault ends only by SRESET or by hardware reset. -/
def Obligations.OnlyResetEndsFault : Prop :=
  ∀ (s t : State), s.fault ≠ 0 → step s = .next t → t.fault = 0 →
    ∃ ops, s.hostOps = .hardReset :: ops ∨ s.hostOps = .regWrite 0x00 32 0x00000001 :: ops

/-- The values rule R450 gives the block at reset, CMD apart, and what reset leaves alone. -/
def Sys2Proof.Claims.resetValues (s t : State) : Prop :=
  t.a0 = 0 ∧ t.a1 = 0 ∧ t.a2 = 0 ∧ t.res = 0 ∧ t.fault = 0 ∧ t.finfo0 = 0 ∧ t.finfo1 = 0 ∧ t.ctrl = 0
    ∧ t.crc = 0xFFFFFFFF ∧ t.zadler = 1 ∧ t.inCount = 0 ∧ t.outCount = 0 ∧ t.bsrLen = 0 ∧ t.bsrPos = 0
    ∧ t.bsrTerm = true ∧ t.lzwState = .idle ∧ t.lzwMin = 0 ∧ t.lzwWidth = 0 ∧ t.lzwNext = 0
    ∧ t.lzwPrev = 0 ∧ t.lzwPrevValid = false ∧ t.lzwBitbuf = 0 ∧ t.lzwNbits = 0 ∧ t.lzwPend = []
    ∧ t.readOffset 0x2C = 0 ∧ t.readOffset 0x14 = 0x00000002 ∧ t.readOffset 0x34 = 0
    ∧ t.readOffset 0x38 = 0 ∧ t.readOffset 0x3C = 0 ∧ t.readOffset 0x40 = 0
    ∧ t.readOffset 0x44 = 0x00010000
    ∧ t.readOffset 0x50 = 0x4C5A5701 ∧ t.readOffset 0x54 = BitVec.ofNat 32 s.bufBytes
    ∧ t.buf = s.buf ∧ t.bufBytes = s.bufBytes ∧ t.deflateChoice = s.deflateChoice ∧ t.inBytes = s.inBytes
    ∧ t.inEnd = s.inEnd ∧ t.outBytes = s.outBytes ∧ t.outRefusals = s.outRefusals
    ∧ t.hostOps = s.hostOps ∧ t.hostReplies = s.hostReplies

/-- Rules R142 and R450: SRESET and hardware reset complete in every state and leave every state of the block that has a reset value
at it; SRESET keeps CMD, hardware reset clears it; BUF and the ports stay. -/
def Obligations.ResetsLeaveResetValues : Prop :=
  ∀ s : State,
    (∃ t, exec .sreset s = .next t ∧ t.cmd = s.cmd ∧ Sys2Proof.Claims.resetValues s t)
    ∧ ∃ t, hostStep .hardReset s = .next t ∧ t.cmd = 0 ∧ Sys2Proof.Claims.resetValues s t

/-- Rule R141: NOP changes nothing, RES neither. -/
def Obligations.NopChangesNothing : Prop :=
  ∀ s : State, exec .nop s = .next s

/-! ### The host's accesses and the register views -/

/-- Rule R470: which host accesses have a step, what it does, and that the others are refused; and what each register that is no
view of a unit reads (rules R31 to R35, R37 to R43 and R49 to R52). What a read returns goes into the
model's own reply list (log entry 4), and `hostByte` of a byte never written is a free value (log entry 5). -/
def Obligations.HostAccessesFollowTable : Prop :=
  ∀ s : State,
    (∀ off bits v, (off % 4 ≠ 0 ∨ off ≥ 0x100 ∨ bits ≠ 32) →
      (∃ r, hostStep (.regRead off bits) s = .refused r) ∧ ∃ r, hostStep (.regWrite off bits v) s = .refused r)
    ∧ (∀ a bits b, (a ≥ s.bufBytes ∨ bits ≠ 8) →
      (∃ r, hostStep (.bufRead a bits) s = .refused r) ∧ ∃ r, hostStep (.bufWrite a bits b) s = .refused r)
    ∧ (∀ off, off % 4 = 0 → off < 0x100 →
      hostStep (.regRead off 32) s = .next { s with hostReplies := s.hostReplies ++ [.reg (s.readOffset off)] })
    ∧ (s.readOffset 0x00 = s.cmd ∧ s.readOffset 0x04 = s.a0 ∧ s.readOffset 0x08 = s.a1 ∧ s.readOffset 0x0C = s.a2
      ∧ s.readOffset 0x10 = s.res ∧ s.readOffset 0x18 = s.fault ∧ s.readOffset 0x1C = s.finfo0
      ∧ s.readOffset 0x20 = s.finfo1 ∧ s.readOffset 0x24 = s.ctrl ∧ s.readOffset 0x28 = s.crc
      ∧ s.readOffset 0x2C = s.crc ^^^ 0xFFFFFFFF ∧ s.readOffset 0x30 = s.zadler ∧ s.readOffset 0x48 = s.inCount
      ∧ s.readOffset 0x4C = s.outCount ∧ s.readOffset 0x50 = 0x4C5A5701
      ∧ s.readOffset 0x54 = BitVec.ofNat 32 s.bufBytes)
    ∧ (∀ v : Word,
      hostStep (.regWrite 0x00 32 v) s = execute v { s with cmd := v }
      ∧ hostStep (.regWrite 0x04 32 v) s = .next { s with a0 := v }
      ∧ hostStep (.regWrite 0x08 32 v) s = .next { s with a1 := v }
      ∧ hostStep (.regWrite 0x0C 32 v) s = .next { s with a2 := v }
      ∧ hostStep (.regWrite 0x24 32 v) s = .next { s with ctrl := v &&& 1 }
      ∧ hostStep (.regWrite 0x28 32 v) s = .next { s with crc := v })
    ∧ (∀ off v, off % 4 = 0 → off < 0x100 → off ∉ [0x00, 0x04, 0x08, 0x0C, 0x24, 0x28] →
      hostStep (.regWrite off 32 v) s = .next s)
    ∧ hostStep .hardReset s = .next s.resetBlock
    ∧ (∀ a, a < s.bufBytes →
      hostStep (.bufRead a 8) s = .next { s with hostReplies := s.hostReplies ++ [.buf (s.hostByte a)] })
    ∧ ∀ a b, a < s.bufBytes → hostStep (.bufWrite a 8 b) s = .next { s with buf := Memory.write s.buf a b }

/-- Rule R53: a reserved offset reads 0 and ignores a write. -/
def Obligations.ReservedOffsetsReadZero : Prop :=
  ∀ (s : State) (off : Nat) (v : Word), 0x58 ≤ off → off ≤ 0xFC → off % 4 = 0 →
    hostStep (.regRead off 32) s = .next { s with hostReplies := s.hostReplies ++ [.reg 0] }
    ∧ hostStep (.regWrite off 32 v) s = .next s

/-- Rule R40: CTRL keeps bit 0 of what is written and reads 0 above it. -/
def Obligations.CtrlKeepsStrictEnd : Prop :=
  State.reset.ctrl = 0
  ∧ ∀ (s : State) (v : Word),
      hostStep (.regWrite 0x24 32 v) s = .next { s with ctrl := if v.getLsbD 0 then 1 else 0 }

/-- Rule R36: every STATUS bit is a view of other state, and a write to STATUS is ignored. -/
def Obligations.StatusBitsAreViews : Prop :=
  State.reset.readOffset 0x14 = 0x00000002
  ∧ ∀ s : State,
      ((s.readOffset 0x14).getLsbD 0 = decide (field s.fault 7 0 ≠ 0))
      ∧ ((s.readOffset 0x14).getLsbD 1 = s.bsrTerm)
      ∧ ((s.readOffset 0x14).getLsbD 2 = decide (s.lzwState = .active))
      ∧ ((s.readOffset 0x14).getLsbD 3 = decide (s.lzwState = .done))
      ∧ (∀ k, 4 ≤ k → (s.readOffset 0x14).getLsbD k = false)
      ∧ ∀ v, hostStep (.regWrite 0x14 32 v) s = .next s

/-- Rules R44 to R48: the fields of the read-only views hold the unit state they show, in every state that keeps the invariants. -/
def Obligations.UnitViewsShowUnitState : Prop :=
  ∀ s : State, s.Inv →
    (field (s.readOffset 0x34) 3 0 = s.lzwMin ∧ field (s.readOffset 0x34) 7 4 = s.lzwWidth
      ∧ field (s.readOffset 0x34) 20 8 = s.lzwNext ∧ field (s.readOffset 0x34) 22 21 = s.lzwState.code
      ∧ field (s.readOffset 0x34) 23 23 = s.lzwPrevValid.toNat ∧ field (s.readOffset 0x34) 31 24 = 0)
    ∧ (field (s.readOffset 0x38) 11 0 = s.lzwPrev ∧ field (s.readOffset 0x38) 16 12 = s.lzwNbits
      ∧ field (s.readOffset 0x38) 31 17 = 0)
    ∧ (s.readOffset 0x3C = s.lzwBitbuf ∧ ∀ k, s.lzwNbits ≤ k → (s.readOffset 0x3C).getLsbD k = false)
    ∧ (field (s.readOffset 0x40) 12 0 = s.lzwPend.length ∧ field (s.readOffset 0x40) 31 13 = 0)
    ∧ (field (s.readOffset 0x44) 7 0 = s.bsrLen ∧ field (s.readOffset 0x44) 15 8 = s.bsrPos
      ∧ field (s.readOffset 0x44) 16 16 = s.bsrTerm.toNat ∧ field (s.readOffset 0x44) 31 17 = 0)

/-- Rules R81 and R97: a host read of BUF gives the byte the host last wrote there, and a write leaves every other address as it
read. -/
def Obligations.HostReadsBackWrittenByte : Prop :=
  ∀ (s : State) (a x : Nat) (b : Byte), a < s.bufBytes → x < s.bufBytes →
    ∃ t, hostStep (.bufWrite a 8 b) s = .next t
      ∧ hostStep (.bufRead x 8) t
          = .next { t with hostReplies := s.hostReplies ++ [.buf (if x = a then b else s.hostByte x)] }

/-! ### Range checks and stops -/

/-- Rule R82 as rule R409 orders it: a command whose first range passes the end of BUF raises BUF_RANGE with the range, and touches
nothing else. -/
def Obligations.RangeFaultsBeforeAnyEffect : Prop :=
  ∀ (s : State) (i : Instr), s.a0.toNat + s.a1.toNat > s.bufBytes →
    (i = .inRead ∨ i = .crcUpdate ∨ i = .zlibCompress ∨ i = .chunkWrite ∨ i = .outWrite
      ∨ (∃ eodok, i = .bsrRead eodok) ∨ (i = .lzwDecode ∧ s.lzwState ≠ .idle)) →
    exec i s = .next { s with fault := 0x41, finfo0 := s.a0, finfo1 := s.a1 }

/-- Rule R83 and U3: a command that comes to read as data a byte nothing has written ends the run there. That OUT_WRITE and
CHUNK_WRITE give OUT the bytes before it first is read from rule R96 by inference (log entry 10). -/
def Obligations.UnwrittenByteEndsRun : Prop :=
  ∀ (s : State) (j : Nat) (bs : List Byte), s.a0.toNat + s.a1.toNat ≤ s.bufBytes → j < s.a1.toNat →
    Memory.readList s.buf s.a0.toNat j = some bs → Memory.read s.buf (s.a0.toNat + j) = none →
    exec .crcUpdate s = .fault (.readUnwritten (s.a0.toNat + j))
    ∧ exec .zlibCompress s = .fault (.readUnwritten (s.a0.toNat + j))
    ∧ (s.outAccepts j → exec .outWrite s = .fault (.readUnwritten (s.a0.toNat + j)))
    ∧ (s.outAccepts (8 + j) → exec .chunkWrite s = .fault (.readUnwritten (s.a0.toNat + j)))

/-- In every state that keeps the invariants each command completes or faults, leaving a next state (rule R143); the only other outcome
is the end of a run at an unwritten byte, and only the four commands that read BUF as data have it (rule R83, U3). No unit's loop
runs into the model's bound (log entry 8). -/
def Obligations.EveryCommandRuns : Prop :=
  ∀ (s : State) (i : Instr), s.Inv → i.wf = true →
    runsOrReadsUnwritten (exec i s)
    ∧ ((∃ a, exec i s = .fault (.readUnwritten a)) →
        i = .crcUpdate ∨ i = .outWrite ∨ i = .chunkWrite ∨ i = .zlibCompress)

/-! ### Raw input and the block stream reader -/

/-- IN_READ takes `n` bytes from IN into BUF where IN holds them (rule R163). -/
def Obligations.InReadCompletes : Prop :=
  ∀ s : State, s.a0.toNat + s.a1.toNat ≤ s.bufBytes → s.a1.toNat ≤ s.inBytes.length →
    exec .inRead s = .next { s with
      buf := Memory.writeList s.buf s.a0.toNat (s.inBytes.take s.a1.toNat)
      inBytes := s.inBytes.drop s.a1.toNat
      inCount := s.inCount + s.a1
      res := s.a1 }

/-- IN_READ where IN ends first: the bytes taken stay written, and the fault is TRUNCATED(n, i) or IN_IO_ERROR(e, IN_COUNT) as IN's
end answers (rules R87, R163 and R404). -/
def Obligations.InReadFaultsWhenInEnds : Prop :=
  ∀ s : State, s.a0.toNat + s.a1.toNat ≤ s.bufBytes → s.inBytes.length < s.a1.toNat →
    (s.inEnd = .eof →
      exec .inRead s = .next { s with
        buf := Memory.writeList s.buf s.a0.toNat s.inBytes
        inBytes := []
        inCount := s.inCount + BitVec.ofNat 32 s.inBytes.length
        fault := 0x10
        finfo0 := s.a1
        finfo1 := BitVec.ofNat 32 s.inBytes.length })
    ∧ ∀ e, s.inEnd = .err e →
      exec .inRead s = .next { s with
        buf := Memory.writeList s.buf s.a0.toNat s.inBytes
        inBytes := []
        inCount := s.inCount + BitVec.ofNat 32 s.inBytes.length
        fault := 0x30
        finfo0 := e
        finfo1 := s.inCount + BitVec.ofNat 32 s.inBytes.length }

/-- BSR_OPEN starts a sub-block sequence without reading IN (rule R164). -/
def Obligations.BsrOpenCompletes : Prop :=
  ∀ s : State, exec .bsrOpen s = .next { s with bsrLen := 0, bsrPos := 0, bsrTerm := false, res := 0 }

/-- BSR_READ with bytes held copies `min(n, available)` of them, and with `n = 0` it reads nothing (rule R165). -/
def Obligations.BsrReadServesHeldBytes : Prop :=
  ∀ (s : State) (eodok : Bool), s.a0.toNat + s.a1.toNat ≤ s.bufBytes →
    (s.a1 = 0 → exec (.bsrRead eodok) s = .next { s with res := 0 })
    ∧ (s.a1 ≠ 0 → s.bsrPos < s.bsrLen → ∀ k, k = min s.a1.toNat (s.bsrLen - s.bsrPos) →
      exec (.bsrRead eodok) s = .next { s with
        buf := Memory.writeList s.buf s.a0.toNat ((List.range k).map fun i => s.bsrByte (s.bsrPos + i))
        bsrPos := s.bsrPos + k
        res := BitVec.ofNat 32 k })

/-- BSR_READ with the buffer exhausted loads the next sub-block and copies from it, never past its end (rules R161 and R165). -/
def Obligations.BsrReadFillsNextBlock : Prop :=
  ∀ (s : State) (eodok : Bool) (d rest : List Byte) (k : Nat),
    s.a0.toNat + s.a1.toNat ≤ s.bufBytes → s.a1 ≠ 0 → s.bsrPos = s.bsrLen → s.bsrTerm = false →
    1 ≤ d.length → d.length ≤ 255 → s.inBytes = BitVec.ofNat 8 d.length :: d ++ rest →
    k = min s.a1.toNat d.length →
    exec (.bsrRead eodok) s = .next { s with
      buf := Memory.writeList s.buf s.a0.toNat (d.take k)
      bsrBuf := fillTable s.bsrBuf 0 d
      bsrLen := d.length
      bsrPos := k
      inBytes := rest
      inCount := s.inCount + BitVec.ofNat 32 (d.length + 1)
      res := BitVec.ofNat 32 k }

/-- BSR_READ at the end of data: RES = 0 with EODOK, UNEXPECTED_END(n, 0) without, whether the terminator was read before (rule R167:
nothing is then taken from IN) or is read now (rule R165). -/
def Obligations.BsrReadAtEndOfData : Prop :=
  ∀ s : State, s.a0.toNat + s.a1.toNat ≤ s.bufBytes → s.a1 ≠ 0 → s.bsrPos = s.bsrLen →
    (s.bsrTerm = true →
      exec (.bsrRead true) s = .next { s with res := 0 }
      ∧ exec (.bsrRead false) s = .next { s with fault := 0x11, finfo0 := s.a1, finfo1 := 0 })
    ∧ ∀ rest, s.bsrTerm = false → s.inBytes = 0 :: rest →
      exec (.bsrRead true) s
        = .next { s with bsrTerm := true, inBytes := rest, inCount := s.inCount + 1, res := 0 }
      ∧ exec (.bsrRead false) s
        = .next { s with
            bsrTerm := true, inBytes := rest, inCount := s.inCount + 1
            fault := 0x11, finfo0 := s.a1, finfo1 := 0 }

/-- The state with the pending bytes delivered to LZW_DECODE's destination (rule R218). -/
def Sys2Proof.Claims.servedPend (s : State) : State :=
  { s with buf := Memory.writeList s.buf s.a0.toNat s.lzwPend, lzwPend := [] }

/-- A fill that fails, at its length byte or inside the sub-block, on Eof or on Err(e), in each command that fills: the fault and the
partial effects are those of `cutFill` (rules R87, R161 and R404). BSR_READ leaves BUF, `bsr_len` and `bsr_pos`; LZW_DECODE has
delivered what was pending; BSR_DRAIN and a tolerant LZW_FINISH have consumed the whole sub-blocks before. -/
def Obligations.CutSubBlockFaults : Prop :=
  ∀ (s : State) (exp got : Nat), s.bsrTerm = false →
    (cutBlock exp got s.inBytes → s.bsrPos = s.bsrLen →
      (∀ eodok, s.a0.toNat + s.a1.toNat ≤ s.bufBytes → s.a1 ≠ 0 →
        exec (.bsrRead eodok) s = .next (s.cutFill exp got))
      ∧ (s.Inv → s.lzwState = .active → s.lzwNbits < s.lzwWidth →
        (s.a0.toNat + s.a1.toNat ≤ s.bufBytes → s.lzwPend.length < s.a1.toNat →
          exec .lzwDecode s = .next ((Sys2Proof.Claims.servedPend s).cutFill exp got))
        ∧ (s.lzwPend = [] → s.ctrl.getLsbD 0 = true → exec .lzwFinish s = .next (s.cutFill exp got))))
    ∧ ∀ bs cut, blocksFit bs → cutBlock exp got cut → s.inBytes = wholeBlocks bs ++ cut →
      ∀ t, t = State.cutFill { s with
          bsrLen := (bs.getLast?.map List.length).getD s.bsrLen
          bsrPos := (bs.getLast?.map List.length).getD s.bsrLen
          bsrBuf := bs.foldl (fun m b => fillTable m 0 b) s.bsrBuf
          inBytes := cut
          inCount := s.inCount + BitVec.ofNat 32 (wholeBlocks bs).length } exp got →
        exec .bsrDrain s = .next t
        ∧ (s.lzwState ≠ .idle → s.ctrl.getLsbD 0 = false → exec .lzwFinish s = .next t)

/-- BSR_DRAIN discards every sub-block up to and including the terminator and counts the data bytes; once EOD is reached it takes
nothing from IN (rules R160, R166 and R167). -/
def Obligations.BsrDrainCompletes : Prop :=
  ∀ s : State,
    (s.bsrTerm = true →
      exec .bsrDrain s = .next { s with bsrPos := s.bsrLen, res := BitVec.ofNat 32 (s.bsrLen - s.bsrPos) })
    ∧ ∀ bs rest, s.bsrTerm = false → blocksFit bs → s.inBytes = subBlocks bs ++ rest →
      exec .bsrDrain s = .next { s with
        bsrTerm := true
        bsrLen := (bs.getLast?.map List.length).getD s.bsrLen
        bsrPos := (bs.getLast?.map List.length).getD s.bsrLen
        bsrBuf := bs.foldl (fun m b => fillTable m 0 b) s.bsrBuf
        inBytes := rest
        inCount := s.inCount + BitVec.ofNat 32 (subBlocks bs).length
        res := BitVec.ofNat 32 (s.bsrLen - s.bsrPos + bs.flatten.length) }

/-! ### The LZW decompressor -/

/-- LZW_INIT opens a stream for every legal minCodeSize, in any state of the units (rules R204 and R215). -/
def Obligations.LzwInitCompletes : Prop :=
  ∀ (s : State) (m : Nat), 2 ≤ m → m ≤ 8 →
    exec (.lzwInit m) s = .next { s with
      lzwMin := m, lzwWidth := m + 1, lzwNext := 2 ^ m + 2, lzwPrev := 0, lzwPrevValid := false
      lzwBitbuf := 0, lzwNbits := 0, lzwPend := [], lzwState := .active
      bsrLen := 0, bsrPos := 0, bsrTerm := false, res := 0 }

/-- LZW_INIT with a minCodeSize outside 2 to 8 raises BAD_MIN_CODE_SIZE(m, 0) and changes no unit (rules R117 and R215). -/
def Obligations.LzwInitFaultsOnBadMin : Prop :=
  ∀ (s : State) (m : Nat), m < 256 → (m < 2 ∨ 8 < m) →
    exec (.lzwInit m) s = .next { s with fault := 0x16, finfo0 := BitVec.ofNat 32 m, finfo1 := 0 }

/-- With no stream open LZW_DECODE and LZW_FINISH raise SEQUENCE(CMD, 0), before any range check (rules R218, R222 and R409). -/
def Obligations.LzwSequenceFaults : Prop :=
  ∀ s : State, s.lzwState = .idle →
    exec .lzwDecode s = .next { s with fault := 0x42, finfo0 := s.cmd, finfo1 := 0 }
    ∧ exec .lzwFinish s = .next { s with fault := 0x42, finfo0 := s.cmd, finfo1 := 0 }

/-- Rule R203: a literal stands for itself, an entry for its prefix's string and its suffix, and no entry's string is longer than the
code is above the clear code, nor than 4091 bytes. -/
def Obligations.StringFollowsTable : Prop :=
  ∀ s : State, s.OpenInv →
    (∀ c, c < s.clearCode → s.stringOf c = [BitVec.ofNat 8 c])
    ∧ ∀ c, s.Defined c →
        s.stringOf c = s.stringOf (s.prefixOf c) ++ [s.suffixOf c]
        ∧ s.prefixOf c < c ∧ (s.stringOf c).length ≤ c - s.clearCode
        ∧ (s.stringOf c).length ≤ 4091

/-- LZW_DECODE delivers pending bytes first, reads no code once it has its count, and keeps the rest pending (rules R218 and R219). -/
def Obligations.LzwDecodeServesPending : Prop :=
  ∀ s : State, s.lzwState ≠ .idle → s.a0.toNat + s.a1.toNat ≤ s.bufBytes →
    s.a1.toNat ≤ s.lzwPend.length →
    exec .lzwDecode s = .next { s with
      buf := Memory.writeList s.buf s.a0.toNat (s.lzwPend.take s.a1.toNat)
      lzwPend := s.lzwPend.drop s.a1.toNat
      res := s.a1 }

/-- The state LZW_DECODE leaves when one data code `c` of string `bs` gives it all the bytes it wants: the code's bits are used, the
entry of rule R209 is added and the width grown where rules R208, R211 and R212 say so, and `c` is the previous code. -/
def Sys2Proof.Claims.afterOneCode (s : State) (c : Nat) (bs : List Byte) : State :=
  { s with
    buf := Memory.writeList s.buf s.a0.toNat (bs.take s.a1.toNat)
    lzwPend := bs.drop s.a1.toNat
    lzwBitbuf := s.lzwBitbuf >>> s.lzwWidth
    lzwNbits := s.lzwNbits - s.lzwWidth
    lzwPrefix := if s.lzwPrevValid ∧ s.lzwNext < 4096 then Store.put s.lzwPrefix s.lzwNext s.lzwPrev
      else s.lzwPrefix
    lzwSuffix := if s.lzwPrevValid ∧ s.lzwNext < 4096 then Store.put s.lzwSuffix s.lzwNext (bs.headD 0)
      else s.lzwSuffix
    lzwNext := if s.lzwPrevValid ∧ s.lzwNext < 4096 then s.lzwNext + 1 else s.lzwNext
    lzwWidth := if (s.lzwPrevValid ∧ s.lzwNext < 4096) ∧ s.lzwNext + 1 = 2 ^ s.lzwWidth ∧ s.lzwWidth < 12
      then s.lzwWidth + 1 else s.lzwWidth
    lzwPrev := c
    lzwPrevValid := true
    res := s.a1 }

/-- LZW_DECODE on one data code read from a full accumulator, for a literal, a defined entry and the code that refers to the entry it
defines (rules R205, R206 and R208 to R212). -/
def Obligations.LzwDecodeRunsOneCode : Prop :=
  ∀ (s : State) (c : Nat), s.Inv → s.lzwState = .active → s.lzwPend = [] →
    s.a0.toNat + s.a1.toNat ≤ s.bufBytes → 1 ≤ s.a1.toNat → s.lzwWidth ≤ s.lzwNbits →
    c = s.lzwBitbuf.toNat % 2 ^ s.lzwWidth →
    (c < s.clearCode → s.a1 = 1 → exec .lzwDecode s = .next (Sys2Proof.Claims.afterOneCode s c [BitVec.ofNat 8 c]))
    ∧ (s.Defined c → s.a1.toNat ≤ (s.stringOf c).length →
        exec .lzwDecode s = .next (Sys2Proof.Claims.afterOneCode s c (s.stringOf c)))
    ∧ (c = s.lzwNext → s.lzwPrevValid = true → s.lzwNext < 4096 →
        s.a1.toNat ≤ (s.stringOf s.lzwPrev).length + 1 →
        exec .lzwDecode s = .next (Sys2Proof.Claims.afterOneCode s c
          (s.stringOf s.lzwPrev ++ [(s.stringOf s.lzwPrev).headD 0])))

/-- LZW_DECODE that reads a clear code goes on as from the reset coding state, one code width further on (rules R204 and R213). -/
def Obligations.LzwDecodeSkipsClearCode : Prop :=
  ∀ s : State, s.Inv → s.lzwState = .active → s.lzwPend = [] →
    s.a0.toNat + s.a1.toNat ≤ s.bufBytes → 1 ≤ s.a1.toNat → s.lzwWidth ≤ s.lzwNbits →
    s.lzwBitbuf.toNat % 2 ^ s.lzwWidth = 2 ^ s.lzwMin →
    exec .lzwDecode s = exec .lzwDecode { s with
      lzwBitbuf := s.lzwBitbuf >>> s.lzwWidth
      lzwNbits := s.lzwNbits - s.lzwWidth
      lzwWidth := s.lzwMin + 1
      lzwNext := 2 ^ s.lzwMin + 2
      lzwPrev := 0
      lzwPrevValid := false }

/-- LZW_DECODE with too few bits for a code puts the next byte of the BSR above the bits it has, and where the BSR is
exhausted it loads the next sub-block first (rules R161, R162 and R206). -/
def Obligations.LzwDecodeFetchesBits : Prop :=
  ∀ s : State, s.Inv → s.lzwState = .active → s.lzwPend = [] →
    s.a0.toNat + s.a1.toNat ≤ s.bufBytes → 1 ≤ s.a1.toNat → s.lzwNbits < s.lzwWidth →
    (s.bsrPos < s.bsrLen →
      exec .lzwDecode s = exec .lzwDecode { s with
        lzwBitbuf := s.lzwBitbuf ||| ((s.bsrByte s.bsrPos).setWidth 32 <<< s.lzwNbits)
        lzwNbits := s.lzwNbits + 8
        bsrPos := s.bsrPos + 1 })
    ∧ ∀ d rest, s.bsrPos = s.bsrLen → s.bsrTerm = false → 1 ≤ d.length → d.length ≤ 255 →
      s.inBytes = BitVec.ofNat 8 d.length :: d ++ rest →
      exec .lzwDecode s = exec .lzwDecode { s with
        bsrBuf := fillTable s.bsrBuf 0 d
        bsrLen := d.length
        bsrPos := 0
        inBytes := rest
        inCount := s.inCount + BitVec.ofNat 32 (d.length + 1) }

/-- What ends an LZW_DECODE early once the pending bytes are delivered: an invalid code, the end code, or the end of data inside a code,
the terminator read before or next on IN, each with the code's effects and the count delivered (rules R207, R220 and R221). -/
def Obligations.LzwDecodeDataFaults : Prop :=
  ∀ (s : State) (c : Nat), s.Inv → s.lzwState = .active →
    s.a0.toNat + s.a1.toNat ≤ s.bufBytes → s.lzwPend.length < s.a1.toNat →
    (s.lzwWidth ≤ s.lzwNbits → c = s.lzwBitbuf.toNat % 2 ^ s.lzwWidth →
      (s.lzwNext < c ∨ (c = s.lzwNext ∧ s.lzwPrevValid = false) →
        exec .lzwDecode s = .next { Sys2Proof.Claims.servedPend s with
          lzwBitbuf := s.lzwBitbuf >>> s.lzwWidth
          lzwNbits := s.lzwNbits - s.lzwWidth
          fault := 0x12
          finfo0 := BitVec.ofNat 32 c
          finfo1 := BitVec.ofNat 32 s.lzwNext })
      ∧ (c = 2 ^ s.lzwMin + 1 →
        exec .lzwDecode s = .next { Sys2Proof.Claims.servedPend s with
          lzwBitbuf := s.lzwBitbuf >>> s.lzwWidth
          lzwNbits := s.lzwNbits - s.lzwWidth
          lzwState := .done
          fault := 0x13
          finfo0 := s.a1
          finfo1 := BitVec.ofNat 32 s.lzwPend.length }))
    ∧ (s.lzwNbits < s.lzwWidth → s.bsrPos = s.bsrLen →
      (s.bsrTerm = true →
        exec .lzwDecode s = .next { Sys2Proof.Claims.servedPend s with
          fault := 0x11, finfo0 := s.a1, finfo1 := BitVec.ofNat 32 s.lzwPend.length })
      ∧ ∀ rest, s.bsrTerm = false → s.inBytes = 0 :: rest →
        exec .lzwDecode s = .next { Sys2Proof.Claims.servedPend s with
          bsrTerm := true, inBytes := rest, inCount := s.inCount + 1
          fault := 0x11, finfo0 := s.a1, finfo1 := BitVec.ofNat 32 s.lzwPend.length })

/-- Rule R218: splitting a decode into two commands leaves the same BUF and the same final state as one command, RES and the operand
registers apart, wherever the one command succeeds. -/
def Obligations.LzwDecodeSplits : Prop :=
  ∀ (s t : State) (d n m : Nat), s.Inv → s.fault = 0 → d + n + m < 2 ^ 32 →
    exec .lzwDecode { s with a0 := BitVec.ofNat 32 d, a1 := BitVec.ofNat 32 (n + m) } = .next t →
    t.fault = 0 →
    ∃ u v, exec .lzwDecode { s with a0 := BitVec.ofNat 32 d, a1 := BitVec.ofNat 32 n } = .next u
      ∧ u.fault = 0 ∧ u.res = BitVec.ofNat 32 n
      ∧ exec .lzwDecode { u with a0 := BitVec.ofNat 32 (d + n), a1 := BitVec.ofNat 32 m } = .next v
      ∧ v.res = BitVec.ofNat 32 m
      ∧ { v with a0 := t.a0, a1 := t.a1, res := t.res } = t

/-- LZW_FINISH in tolerant mode reads no code and discards the rest of the sequence and its terminator (rules R222 and R224). -/
def Obligations.LzwFinishTolerantCompletes : Prop :=
  ∀ s : State, s.lzwState ≠ .idle → s.ctrl.getLsbD 0 = false →
    (s.bsrTerm = true →
      exec .lzwFinish s = .next { s with
        bsrPos := s.bsrLen, lzwPend := [], lzwBitbuf := 0, lzwNbits := 0, lzwState := .idle
        res := BitVec.ofNat 32 (s.bsrLen - s.bsrPos) })
    ∧ ∀ bs rest, s.bsrTerm = false → blocksFit bs → s.inBytes = subBlocks bs ++ rest →
      exec .lzwFinish s = .next { s with
        bsrTerm := true
        bsrLen := (bs.getLast?.map List.length).getD s.bsrLen
        bsrPos := (bs.getLast?.map List.length).getD s.bsrLen
        bsrBuf := bs.foldl (fun m b => fillTable m 0 b) s.bsrBuf
        inBytes := rest
        inCount := s.inCount + BitVec.ofNat 32 (subBlocks bs).length
        lzwPend := [], lzwBitbuf := 0, lzwNbits := 0, lzwState := .idle
        res := BitVec.ofNat 32 (s.bsrLen - s.bsrPos + bs.flatten.length) }

/-- LZW_FINISH in strict mode with nothing pending (rules R206, R213, R222 and R223). Where the end code is in the accumulator, or the
data ended inside a code, it drops the padding of the sub-block, consumes the terminator and completes; where the terminator comes
while it reads a code it completes too. A clear code, a byte the BSR holds and a next sub-block are used up, and it goes on as from
the state they leave. -/
def Obligations.LzwFinishStrictCompletes : Prop :=
  ∀ s : State, s.Inv → s.lzwState = .active → s.ctrl.getLsbD 0 = true → s.lzwPend = [] →
    ((s.lzwWidth ≤ s.lzwNbits ∧ s.lzwBitbuf.toNat % 2 ^ s.lzwWidth = 2 ^ s.lzwMin + 1)
        ∨ (s.lzwNbits < s.lzwWidth ∧ s.bsrPos = s.bsrLen ∧ s.bsrTerm = true) →
      (s.bsrTerm = true →
        exec .lzwFinish s = .next { s with
          bsrPos := s.bsrLen, lzwBitbuf := 0, lzwNbits := 0, lzwState := .idle
          res := BitVec.ofNat 32 (s.bsrLen - s.bsrPos) })
      ∧ ∀ rest, s.bsrTerm = false → s.inBytes = 0 :: rest →
        exec .lzwFinish s = .next { s with
          bsrPos := s.bsrLen, bsrTerm := true, inBytes := rest, inCount := s.inCount + 1
          lzwBitbuf := 0, lzwNbits := 0, lzwState := .idle
          res := BitVec.ofNat 32 (s.bsrLen - s.bsrPos) })
    ∧ (s.lzwWidth ≤ s.lzwNbits → s.lzwBitbuf.toNat % 2 ^ s.lzwWidth = 2 ^ s.lzwMin →
      exec .lzwFinish s = exec .lzwFinish { s with
        lzwBitbuf := s.lzwBitbuf >>> s.lzwWidth
        lzwNbits := s.lzwNbits - s.lzwWidth
        lzwWidth := s.lzwMin + 1
        lzwNext := 2 ^ s.lzwMin + 2
        lzwPrev := 0
        lzwPrevValid := false })
    ∧ (s.lzwNbits < s.lzwWidth →
      (s.bsrPos < s.bsrLen →
        exec .lzwFinish s = exec .lzwFinish { s with
          lzwBitbuf := s.lzwBitbuf ||| ((s.bsrByte s.bsrPos).setWidth 32 <<< s.lzwNbits)
          lzwNbits := s.lzwNbits + 8
          bsrPos := s.bsrPos + 1 })
      ∧ (∀ d rest, s.bsrPos = s.bsrLen → s.bsrTerm = false → 1 ≤ d.length → d.length ≤ 255 →
        s.inBytes = BitVec.ofNat 8 d.length :: d ++ rest →
        exec .lzwFinish s = exec .lzwFinish { s with
          bsrBuf := fillTable s.bsrBuf 0 d
          bsrLen := d.length
          bsrPos := 0
          inBytes := rest
          inCount := s.inCount + BitVec.ofNat 32 (d.length + 1) })
      ∧ ∀ rest, s.bsrPos = s.bsrLen → s.bsrTerm = false → s.inBytes = 0 :: rest →
        exec .lzwFinish s = .next { s with
          bsrTerm := true, inBytes := rest, inCount := s.inCount + 1
          lzwBitbuf := 0, lzwNbits := 0, lzwState := .idle, res := 0 })

/-- What a strict LZW_FINISH leaves where it faults on a code `c` of string `bs`: the code processed, and nothing delivered
(rules R222 and R223). -/
def Sys2Proof.Claims.tooMuchData (s : State) (c : Nat) (bs : List Byte) : State :=
  { Sys2Proof.Claims.afterOneCode s c bs with
    buf := s.buf
    lzwPend := []
    res := s.res
    fault := 0x14
    finfo0 := BitVec.ofNat 32 bs.length
    finfo1 := BitVec.ofNat 32 c }

/-- What a strict LZW_FINISH does not accept: bytes still pending, a code that outputs bytes (a literal, a defined entry, or the code
that refers to the entry it defines), an invalid code, and, after the end code, a sub-block or the end of IN
(rules R87, R207, R210, R222 and R223). -/
def Obligations.LzwFinishStrictFaults : Prop :=
  ∀ s : State, s.Inv → s.lzwState = .active → s.ctrl.getLsbD 0 = true →
    (s.lzwPend ≠ [] →
      exec .lzwFinish s = .next { s with
        fault := 0x14, finfo0 := BitVec.ofNat 32 s.lzwPend.length, finfo1 := 0xFFFFFFFF })
    ∧ (∀ c, s.lzwPend = [] → s.lzwWidth ≤ s.lzwNbits → c = s.lzwBitbuf.toNat % 2 ^ s.lzwWidth →
      (s.DataCode c →
        exec .lzwFinish s = .next (Sys2Proof.Claims.tooMuchData s c (s.stringOf c)))
      ∧ (c = s.lzwNext → s.lzwPrevValid = true → s.lzwNext < 4096 →
        exec .lzwFinish s = .next (Sys2Proof.Claims.tooMuchData s c
          (s.stringOf s.lzwPrev ++ [(s.stringOf s.lzwPrev).headD 0])))
      ∧ (s.lzwNext < c ∨ (c = s.lzwNext ∧ s.lzwPrevValid = false) →
        exec .lzwFinish s = .next { s with
          lzwBitbuf := s.lzwBitbuf >>> s.lzwWidth
          lzwNbits := s.lzwNbits - s.lzwWidth
          fault := 0x12
          finfo0 := BitVec.ofNat 32 c
          finfo1 := BitVec.ofNat 32 s.lzwNext }))
    ∧ (s.lzwPend = [] → s.lzwWidth ≤ s.lzwNbits →
      s.lzwBitbuf.toNat % 2 ^ s.lzwWidth = 2 ^ s.lzwMin + 1 → s.bsrTerm = false →
      ∀ t, t = { s with
          lzwBitbuf := s.lzwBitbuf >>> s.lzwWidth
          lzwNbits := s.lzwNbits - s.lzwWidth
          lzwState := .done
          bsrPos := s.bsrLen } →
        (∀ l rest, s.inBytes = l :: rest → l ≠ 0 →
          exec .lzwFinish s = .next { t with
            inBytes := rest
            inCount := s.inCount + 1
            fault := 0x15
            finfo0 := l.setWidth 32
            finfo1 := 0 })
        ∧ (s.inBytes = [] → s.inEnd = .eof →
          exec .lzwFinish s = .next { t with fault := 0x10, finfo0 := 1, finfo1 := 0 })
        ∧ ∀ e, s.inBytes = [] → s.inEnd = .err e →
          exec .lzwFinish s = .next { t with fault := 0x30, finfo0 := e, finfo1 := s.inCount })

/-! ### CRC-32, chunks and raw output -/

/-- CRC_INIT sets the state to its initial value (rule R262). -/
def Obligations.CrcInitCompletes : Prop :=
  ∀ s : State, exec .crcInit s = .next { s with crc := 0xFFFFFFFF, res := 0 }

/-- CRC_UPDATE feeds a written range into the CRC state (rules R260 and R263). -/
def Obligations.CrcUpdateCompletes : Prop :=
  ∀ (s : State) (bs : List Byte), s.a0.toNat + s.a1.toNat ≤ s.bufBytes →
    Memory.readList s.buf s.a0.toNat s.a1.toNat = some bs →
    exec .crcUpdate s = .next { s with crc := bs.foldl crcByte s.crc, res := s.a1 }

/-- Rule R264: two CRC_UPDATEs over adjacent ranges leave the CRC of one over their union. -/
def Obligations.CrcUpdateChains : Prop :=
  ∀ (s : State) (a n m : Nat) (bs : List Byte), a + n + m ≤ s.bufBytes → a + n + m < 2 ^ 32 →
    Memory.readList s.buf a (n + m) = some bs →
    ∃ t u v, exec .crcUpdate { s with a0 := BitVec.ofNat 32 a, a1 := BitVec.ofNat 32 (n + m) } = .next t
      ∧ exec .crcUpdate { s with a0 := BitVec.ofNat 32 a, a1 := BitVec.ofNat 32 n } = .next u
      ∧ exec .crcUpdate { u with a0 := BitVec.ofNat 32 (a + n), a1 := BitVec.ofNat 32 m } = .next v
      ∧ v.crc = t.crc ∧ t.fault = s.fault ∧ v.fault = s.fault

/-- CHUNK_WRITE puts the length, the type, the payload and the CRC-32 of type and payload on OUT, where OUT accepts them
(rules R265 and R266). -/
def Obligations.ChunkWriteCompletes : Prop :=
  ∀ (s : State) (p : List Byte), s.a0.toNat + s.a1.toNat ≤ s.bufBytes →
    Memory.readList s.buf s.a0.toNat s.a1.toNat = some p → s.outAccepts (s.a1.toNat + 12) →
    exec .chunkWrite s = .next { s with
      outBytes := s.outBytes ++ (be32 s.a1 ++ be32 s.a2 ++ p ++ be32 (crc32 (be32 s.a2 ++ p)))
      outCount := s.outCount + (s.a1 + 12)
      crc := (be32 s.a2 ++ p).foldl crcByte 0xFFFFFFFF
      res := s.a1 + 12 }

/-- Rule R270: in every chunk CHUNK_WRITE emits, the last 4 bytes are the CRC-32 of the type and the payload before them. -/
def Obligations.ChunkCrcIsRight : Prop :=
  ∀ (s t : State), s.fault = 0 → exec .chunkWrite s = .next t → t.fault = 0 →
    ∃ chunk, t.outBytes = s.outBytes ++ chunk ∧ chunk.length = s.a1.toNat + 12
      ∧ be32 (crc32 ((chunk.drop 4).take (s.a1.toNat + 4))) = chunk.drop (s.a1.toNat + 8)

/-- OUT_WRITE gives a written range to OUT, where OUT accepts it, and leaves CRC alone (rule R268). -/
def Obligations.OutWriteCompletes : Prop :=
  ∀ (s : State) (bs : List Byte), s.a0.toNat + s.a1.toNat ≤ s.bufBytes →
    Memory.readList s.buf s.a0.toNat s.a1.toNat = some bs → s.outAccepts s.a1.toNat →
    exec .outWrite s = .next { s with
      outBytes := s.outBytes ++ bs, outCount := s.outCount + s.a1, res := s.a1 }

/-- OUT_WRITE at the first byte OUT refuses: OUT_IO_ERROR(e, OUT_COUNT), with the bytes before it written for good
(rules R85, R89 and R268). Which byte OUT refuses goes by its position since power-up (log entry 9). -/
def Obligations.OutWriteFaultsAtRefusal : Prop :=
  ∀ (s : State) (k : Nat) (bs : List Byte) (e : Word), s.a0.toNat + s.a1.toNat ≤ s.bufBytes → k < s.a1.toNat →
    Memory.readList s.buf s.a0.toNat (k + 1) = some bs → s.outAccepts k →
    Store.find s.outRefusals (s.outBytes.length + k) = some e →
    exec .outWrite s = .next { s with
      outBytes := s.outBytes ++ bs.take k
      outCount := s.outCount + BitVec.ofNat 32 k
      fault := 0x31
      finfo0 := e
      finfo1 := s.outCount + BitVec.ofNat 32 k }

/-- CHUNK_WRITE refused inside its type: the length stays written, and CRC holds the state of the type bytes accepted
(rules R266 and R404). Which byte OUT refuses goes by its position since power-up (log entry 9). That the refusal is recorded
also where a payload byte was never written is the model's reading of rule R96, each payload byte read when it is written
(log entry 10). -/
def Obligations.ChunkWriteFaultsAtRefusal : Prop :=
  ∀ (s : State) (k : Nat) (e : Word), s.a0.toNat + s.a1.toNat ≤ s.bufBytes → k < 4 → s.outAccepts (4 + k) →
    Store.find s.outRefusals (s.outBytes.length + 4 + k) = some e →
    exec .chunkWrite s = .next { s with
      outBytes := s.outBytes ++ be32 s.a1 ++ (be32 s.a2).take k
      outCount := s.outCount + 4 + BitVec.ofNat 32 k
      crc := ((be32 s.a2).take k).foldl crcByte 0xFFFFFFFF
      fault := 0x31
      finfo0 := e
      finfo1 := s.outCount + 4 + BitVec.ofNat 32 k }

/-! ### The deflate/zlib encoder -/

/-- ZLIB_COMPRESS writes the zlib datastream of a snapshot of its input, whatever DEFLATE the block has, where the datastream fits
(rules R300, R301 and R303). -/
def Obligations.ZlibCompressCompletes : Prop :=
  ∀ (s : State) (x z : List Byte), s.a0.toNat + s.a1.toNat ≤ s.bufBytes →
    Memory.readList s.buf s.a0.toNat s.a1.toNat = some x →
    z = [0x78, 0xDA] ++ deflate s.deflateChoice x ++ be32 (adler32 x) →
    s.a2.toNat + z.length ≤ s.bufBytes →
    exec .zlibCompress s = .next { s with
      buf := Memory.writeList s.buf s.a2.toNat z
      zadler := adler32 x
      res := BitVec.ofNat 32 z.length }

/-- ZLIB_COMPRESS whose datastream does not fit raises BUF_RANGE(dst, length) and writes nothing (rule R300). -/
def Obligations.ZlibCompressOutputRange : Prop :=
  ∀ (s : State) (x z : List Byte), s.a0.toNat + s.a1.toNat ≤ s.bufBytes →
    Memory.readList s.buf s.a0.toNat s.a1.toNat = some x →
    z = [0x78, 0xDA] ++ deflate s.deflateChoice x ++ be32 (adler32 x) →
    s.a2.toNat + z.length > s.bufBytes →
    exec .zlibCompress s = .next { s with
      fault := 0x41, finfo0 := s.a2, finfo1 := BitVec.ofNat 32 z.length }

/-- L-ROUNDTRIP of rule R302, for every DEFLATE the block can have: the stream inflates to exactly its input and uses every byte. -/
def Obligations.DeflateRoundTrips : Prop :=
  ∀ (c : DeflateChoice) (x : List Byte), inflate (deflate c x) = some (x, (deflate c x).length)

/-- What ZLIB_COMPRESS leaves in BUF at its destination is a zlib datastream that a PNG reader accepts, and decodes to the input
(rules R301, R302 and R305). -/
def Obligations.CompressedDataIsAccepted : Prop :=
  ∀ (s t : State) (x : List Byte), s.fault = 0 → exec .zlibCompress s = .next t → t.fault = 0 →
    Memory.readList s.buf s.a0.toNat s.a1.toNat = some x →
    ∃ z, Memory.readList t.buf s.a2.toNat z.length = some z ∧ t.res = BitVec.ofNat 32 z.length
      ∧ zlibCheck z = some x

/-- Rule R340: the length of DEFLATE_STORED's output. -/
def Obligations.StoredLength : Prop :=
  ∀ x : List Byte, (deflateStored x).length = x.length + 5 * max 1 ((x.length + 65534) / 65535)

/-! ### Frames and whole-machine rules -/

/-- What IN_READ and BSR_READ leave alone, whether they succeed or fault: everything but IN, RES, the fault registers, the destination
range of BUF, and for BSR_READ the BSR. -/
def Obligations.InputCommandsFrame : Prop :=
  ∀ (s t : State) (eodok : Bool),
    (exec .inRead s = .next t →
      t = { s with
        buf := t.buf, res := t.res, fault := t.fault, finfo0 := t.finfo0, finfo1 := t.finfo1
        inBytes := t.inBytes, inCount := t.inCount })
    ∧ (exec (.bsrRead eodok) s = .next t →
      t = { s with
        buf := t.buf, res := t.res, fault := t.fault, finfo0 := t.finfo0, finfo1 := t.finfo1
        inBytes := t.inBytes, inCount := t.inCount
        bsrBuf := t.bsrBuf, bsrLen := t.bsrLen, bsrPos := t.bsrPos, bsrTerm := t.bsrTerm })
    ∧ (exec .inRead s = .next t ∨ exec (.bsrRead eodok) s = .next t →
      ∀ x, x < s.a0.toNat ∨ s.a0.toNat + s.a1.toNat ≤ x → Memory.read t.buf x = Memory.read s.buf x)

/-- What LZW_DECODE leaves alone, whether it succeeds or faults: the registers it does not name, CRC, OUT, `lzw_min`, and every byte
of BUF outside its destination range (rules R218 and R226). -/
def Obligations.LzwDecodeFrame : Prop :=
  ∀ s t : State, exec .lzwDecode s = .next t →
    t = { s with
      buf := t.buf, res := t.res, fault := t.fault, finfo0 := t.finfo0, finfo1 := t.finfo1
      inBytes := t.inBytes, inCount := t.inCount
      bsrBuf := t.bsrBuf, bsrLen := t.bsrLen, bsrPos := t.bsrPos, bsrTerm := t.bsrTerm
      lzwState := t.lzwState, lzwWidth := t.lzwWidth, lzwNext := t.lzwNext, lzwPrev := t.lzwPrev
      lzwPrevValid := t.lzwPrevValid, lzwBitbuf := t.lzwBitbuf, lzwNbits := t.lzwNbits
      lzwPrefix := t.lzwPrefix, lzwSuffix := t.lzwSuffix, lzwPend := t.lzwPend }
    ∧ ∀ x, x < s.a0.toNat ∨ s.a0.toNat + s.a1.toNat ≤ x → Memory.read t.buf x = Memory.read s.buf x

/-- What BSR_DRAIN and LZW_FINISH leave alone, whether they succeed or fault: BUF, OUT, CRC and the operand registers among it
(rules R166, R222 and R226). -/
def Obligations.ClosingCommandsFrame : Prop :=
  ∀ s t : State,
    (exec .bsrDrain s = .next t →
      t = { s with
        res := t.res, fault := t.fault, finfo0 := t.finfo0, finfo1 := t.finfo1
        inBytes := t.inBytes, inCount := t.inCount
        bsrBuf := t.bsrBuf, bsrLen := t.bsrLen, bsrPos := t.bsrPos, bsrTerm := t.bsrTerm })
    ∧ (exec .lzwFinish s = .next t →
      t = { s with
        res := t.res, fault := t.fault, finfo0 := t.finfo0, finfo1 := t.finfo1
        inBytes := t.inBytes, inCount := t.inCount
        bsrBuf := t.bsrBuf, bsrLen := t.bsrLen, bsrPos := t.bsrPos, bsrTerm := t.bsrTerm
        lzwState := t.lzwState, lzwWidth := t.lzwWidth, lzwNext := t.lzwNext, lzwPrev := t.lzwPrev
        lzwPrevValid := t.lzwPrevValid, lzwBitbuf := t.lzwBitbuf, lzwNbits := t.lzwNbits
        lzwPrefix := t.lzwPrefix, lzwSuffix := t.lzwSuffix, lzwPend := t.lzwPend })

/-- What CRC_UPDATE, OUT_WRITE, CHUNK_WRITE and ZLIB_COMPRESS leave alone, whether they succeed or fault: IN, the BSR and the LZW unit
among it; of BUF only ZLIB_COMPRESS writes, and only from its destination up (rules R263, R266, R268, R300 and R404). -/
def Obligations.OutputCommandsFrame : Prop :=
  ∀ s t : State,
    (exec .crcUpdate s = .next t →
      t = { s with
        res := t.res, fault := t.fault, finfo0 := t.finfo0, finfo1 := t.finfo1, crc := t.crc })
    ∧ (exec .outWrite s = .next t →
      t = { s with
        res := t.res, fault := t.fault, finfo0 := t.finfo0, finfo1 := t.finfo1
        outBytes := t.outBytes, outCount := t.outCount })
    ∧ (exec .chunkWrite s = .next t →
      t = { s with
        res := t.res, fault := t.fault, finfo0 := t.finfo0, finfo1 := t.finfo1, crc := t.crc
        outBytes := t.outBytes, outCount := t.outCount })
    ∧ (exec .zlibCompress s = .next t →
      t = { s with
        res := t.res, fault := t.fault, finfo0 := t.finfo0, finfo1 := t.finfo1, zadler := t.zadler
        buf := t.buf }
      ∧ ∀ x bs, Memory.readList s.buf s.a0.toNat s.a1.toNat = some bs →
          x < s.a2.toNat ∨ s.a2.toNat + (zlibStream s.deflateChoice bs).length ≤ x →
          Memory.read t.buf x = Memory.read s.buf x)

/-- Rules R85 and R88: no step takes back a byte OUT accepted, and no step but the taking of a byte changes IN, which only gets
shorter from the front. No step changes a parameter of the model (rule R60). -/
def Obligations.PortsOnlyMoveForward : Prop :=
  ∀ s t : State, step s = .next t →
    (∃ more, t.outBytes = s.outBytes ++ more) ∧ (∃ taken, s.inBytes = taken ++ t.inBytes)
    ∧ t.inEnd = s.inEnd ∧ t.outRefusals = s.outRefusals ∧ t.bufBytes = s.bufBytes
    ∧ t.deflateChoice = s.deflateChoice

/-- Rules R54 to R58, R225 and U15: the invariants hold of the next state of every step from a state where they hold. -/
def Obligations.StepKeepsInvariants : Prop :=
  ∀ s t : State, s.Inv → step s = .next t → t.Inv

/-- The invariants hold after reset. The size of BUF there is the model's choice (log entry 1). -/
def Obligations.ResetMeetsInvariants : Prop :=
  State.reset.Inv
end

