-- ==== Sys2Proof/Laws/State.lean ====
section
/-! SUPPORT. Every named update of State, field by field: the field it writes and the fields it leaves alone. -/

namespace Sys2Proof.Machine

@[simp] theorem State.recordFault_cmd (s : State) (c : FaultCode) (x y : Word) : (s.recordFault c x y).cmd = s.cmd := rfl
@[simp] theorem State.recordFault_a0 (s : State) (c : FaultCode) (x y : Word) : (s.recordFault c x y).a0 = s.a0 := rfl
@[simp] theorem State.recordFault_a1 (s : State) (c : FaultCode) (x y : Word) : (s.recordFault c x y).a1 = s.a1 := rfl
@[simp] theorem State.recordFault_a2 (s : State) (c : FaultCode) (x y : Word) : (s.recordFault c x y).a2 = s.a2 := rfl
@[simp] theorem State.recordFault_res (s : State) (c : FaultCode) (x y : Word) : (s.recordFault c x y).res = s.res := rfl
@[simp] theorem State.recordFault_fault (s : State) (c : FaultCode) (x y : Word) : (s.recordFault c x y).fault = c.code.setWidth 32 := rfl
@[simp] theorem State.recordFault_finfo0 (s : State) (c : FaultCode) (x y : Word) : (s.recordFault c x y).finfo0 = x := rfl
@[simp] theorem State.recordFault_finfo1 (s : State) (c : FaultCode) (x y : Word) : (s.recordFault c x y).finfo1 = y := rfl
@[simp] theorem State.recordFault_ctrl (s : State) (c : FaultCode) (x y : Word) : (s.recordFault c x y).ctrl = s.ctrl := rfl
@[simp] theorem State.recordFault_crc (s : State) (c : FaultCode) (x y : Word) : (s.recordFault c x y).crc = s.crc := rfl
@[simp] theorem State.recordFault_zadler (s : State) (c : FaultCode) (x y : Word) : (s.recordFault c x y).zadler = s.zadler := rfl
@[simp] theorem State.recordFault_inCount (s : State) (c : FaultCode) (x y : Word) : (s.recordFault c x y).inCount = s.inCount := rfl
@[simp] theorem State.recordFault_outCount (s : State) (c : FaultCode) (x y : Word) : (s.recordFault c x y).outCount = s.outCount := rfl
@[simp] theorem State.recordFault_bsrBuf (s : State) (c : FaultCode) (x y : Word) : (s.recordFault c x y).bsrBuf = s.bsrBuf := rfl
@[simp] theorem State.recordFault_bsrLen (s : State) (c : FaultCode) (x y : Word) : (s.recordFault c x y).bsrLen = s.bsrLen := rfl
@[simp] theorem State.recordFault_bsrPos (s : State) (c : FaultCode) (x y : Word) : (s.recordFault c x y).bsrPos = s.bsrPos := rfl
@[simp] theorem State.recordFault_bsrTerm (s : State) (c : FaultCode) (x y : Word) : (s.recordFault c x y).bsrTerm = s.bsrTerm := rfl
@[simp] theorem State.recordFault_lzwState (s : State) (c : FaultCode) (x y : Word) : (s.recordFault c x y).lzwState = s.lzwState := rfl
@[simp] theorem State.recordFault_lzwMin (s : State) (c : FaultCode) (x y : Word) : (s.recordFault c x y).lzwMin = s.lzwMin := rfl
@[simp] theorem State.recordFault_lzwWidth (s : State) (c : FaultCode) (x y : Word) : (s.recordFault c x y).lzwWidth = s.lzwWidth := rfl
@[simp] theorem State.recordFault_lzwNext (s : State) (c : FaultCode) (x y : Word) : (s.recordFault c x y).lzwNext = s.lzwNext := rfl
@[simp] theorem State.recordFault_lzwPrev (s : State) (c : FaultCode) (x y : Word) : (s.recordFault c x y).lzwPrev = s.lzwPrev := rfl
@[simp] theorem State.recordFault_lzwPrevValid (s : State) (c : FaultCode) (x y : Word) : (s.recordFault c x y).lzwPrevValid = s.lzwPrevValid := rfl
@[simp] theorem State.recordFault_lzwBitbuf (s : State) (c : FaultCode) (x y : Word) : (s.recordFault c x y).lzwBitbuf = s.lzwBitbuf := rfl
@[simp] theorem State.recordFault_lzwNbits (s : State) (c : FaultCode) (x y : Word) : (s.recordFault c x y).lzwNbits = s.lzwNbits := rfl
@[simp] theorem State.recordFault_lzwPrefix (s : State) (c : FaultCode) (x y : Word) : (s.recordFault c x y).lzwPrefix = s.lzwPrefix := rfl
@[simp] theorem State.recordFault_lzwSuffix (s : State) (c : FaultCode) (x y : Word) : (s.recordFault c x y).lzwSuffix = s.lzwSuffix := rfl
@[simp] theorem State.recordFault_lzwPend (s : State) (c : FaultCode) (x y : Word) : (s.recordFault c x y).lzwPend = s.lzwPend := rfl
@[simp] theorem State.recordFault_buf (s : State) (c : FaultCode) (x y : Word) : (s.recordFault c x y).buf = s.buf := rfl
@[simp] theorem State.recordFault_bufBytes (s : State) (c : FaultCode) (x y : Word) : (s.recordFault c x y).bufBytes = s.bufBytes := rfl
@[simp] theorem State.recordFault_deflateChoice (s : State) (c : FaultCode) (x y : Word) : (s.recordFault c x y).deflateChoice = s.deflateChoice := rfl
@[simp] theorem State.recordFault_inBytes (s : State) (c : FaultCode) (x y : Word) : (s.recordFault c x y).inBytes = s.inBytes := rfl
@[simp] theorem State.recordFault_inEnd (s : State) (c : FaultCode) (x y : Word) : (s.recordFault c x y).inEnd = s.inEnd := rfl
@[simp] theorem State.recordFault_outBytes (s : State) (c : FaultCode) (x y : Word) : (s.recordFault c x y).outBytes = s.outBytes := rfl
@[simp] theorem State.recordFault_outRefusals (s : State) (c : FaultCode) (x y : Word) : (s.recordFault c x y).outRefusals = s.outRefusals := rfl
@[simp] theorem State.recordFault_hostOps (s : State) (c : FaultCode) (x y : Word) : (s.recordFault c x y).hostOps = s.hostOps := rfl
@[simp] theorem State.recordFault_hostReplies (s : State) (c : FaultCode) (x y : Word) : (s.recordFault c x y).hostReplies = s.hostReplies := rfl

@[simp] theorem State.setRes_cmd (s : State) (v : Word) : (s.setRes v).cmd = s.cmd := rfl
@[simp] theorem State.setRes_a0 (s : State) (v : Word) : (s.setRes v).a0 = s.a0 := rfl
@[simp] theorem State.setRes_a1 (s : State) (v : Word) : (s.setRes v).a1 = s.a1 := rfl
@[simp] theorem State.setRes_a2 (s : State) (v : Word) : (s.setRes v).a2 = s.a2 := rfl
@[simp] theorem State.setRes_res (s : State) (v : Word) : (s.setRes v).res = v := rfl
@[simp] theorem State.setRes_fault (s : State) (v : Word) : (s.setRes v).fault = s.fault := rfl
@[simp] theorem State.setRes_finfo0 (s : State) (v : Word) : (s.setRes v).finfo0 = s.finfo0 := rfl
@[simp] theorem State.setRes_finfo1 (s : State) (v : Word) : (s.setRes v).finfo1 = s.finfo1 := rfl
@[simp] theorem State.setRes_ctrl (s : State) (v : Word) : (s.setRes v).ctrl = s.ctrl := rfl
@[simp] theorem State.setRes_crc (s : State) (v : Word) : (s.setRes v).crc = s.crc := rfl
@[simp] theorem State.setRes_zadler (s : State) (v : Word) : (s.setRes v).zadler = s.zadler := rfl
@[simp] theorem State.setRes_inCount (s : State) (v : Word) : (s.setRes v).inCount = s.inCount := rfl
@[simp] theorem State.setRes_outCount (s : State) (v : Word) : (s.setRes v).outCount = s.outCount := rfl
@[simp] theorem State.setRes_bsrBuf (s : State) (v : Word) : (s.setRes v).bsrBuf = s.bsrBuf := rfl
@[simp] theorem State.setRes_bsrLen (s : State) (v : Word) : (s.setRes v).bsrLen = s.bsrLen := rfl
@[simp] theorem State.setRes_bsrPos (s : State) (v : Word) : (s.setRes v).bsrPos = s.bsrPos := rfl
@[simp] theorem State.setRes_bsrTerm (s : State) (v : Word) : (s.setRes v).bsrTerm = s.bsrTerm := rfl
@[simp] theorem State.setRes_lzwState (s : State) (v : Word) : (s.setRes v).lzwState = s.lzwState := rfl
@[simp] theorem State.setRes_lzwMin (s : State) (v : Word) : (s.setRes v).lzwMin = s.lzwMin := rfl
@[simp] theorem State.setRes_lzwWidth (s : State) (v : Word) : (s.setRes v).lzwWidth = s.lzwWidth := rfl
@[simp] theorem State.setRes_lzwNext (s : State) (v : Word) : (s.setRes v).lzwNext = s.lzwNext := rfl
@[simp] theorem State.setRes_lzwPrev (s : State) (v : Word) : (s.setRes v).lzwPrev = s.lzwPrev := rfl
@[simp] theorem State.setRes_lzwPrevValid (s : State) (v : Word) : (s.setRes v).lzwPrevValid = s.lzwPrevValid := rfl
@[simp] theorem State.setRes_lzwBitbuf (s : State) (v : Word) : (s.setRes v).lzwBitbuf = s.lzwBitbuf := rfl
@[simp] theorem State.setRes_lzwNbits (s : State) (v : Word) : (s.setRes v).lzwNbits = s.lzwNbits := rfl
@[simp] theorem State.setRes_lzwPrefix (s : State) (v : Word) : (s.setRes v).lzwPrefix = s.lzwPrefix := rfl
@[simp] theorem State.setRes_lzwSuffix (s : State) (v : Word) : (s.setRes v).lzwSuffix = s.lzwSuffix := rfl
@[simp] theorem State.setRes_lzwPend (s : State) (v : Word) : (s.setRes v).lzwPend = s.lzwPend := rfl
@[simp] theorem State.setRes_buf (s : State) (v : Word) : (s.setRes v).buf = s.buf := rfl
@[simp] theorem State.setRes_bufBytes (s : State) (v : Word) : (s.setRes v).bufBytes = s.bufBytes := rfl
@[simp] theorem State.setRes_deflateChoice (s : State) (v : Word) : (s.setRes v).deflateChoice = s.deflateChoice := rfl
@[simp] theorem State.setRes_inBytes (s : State) (v : Word) : (s.setRes v).inBytes = s.inBytes := rfl
@[simp] theorem State.setRes_inEnd (s : State) (v : Word) : (s.setRes v).inEnd = s.inEnd := rfl
@[simp] theorem State.setRes_outBytes (s : State) (v : Word) : (s.setRes v).outBytes = s.outBytes := rfl
@[simp] theorem State.setRes_outRefusals (s : State) (v : Word) : (s.setRes v).outRefusals = s.outRefusals := rfl
@[simp] theorem State.setRes_hostOps (s : State) (v : Word) : (s.setRes v).hostOps = s.hostOps := rfl
@[simp] theorem State.setRes_hostReplies (s : State) (v : Word) : (s.setRes v).hostReplies = s.hostReplies := rfl

@[simp] theorem State.setCrc_cmd (s : State) (v : Word) : (s.setCrc v).cmd = s.cmd := rfl
@[simp] theorem State.setCrc_a0 (s : State) (v : Word) : (s.setCrc v).a0 = s.a0 := rfl
@[simp] theorem State.setCrc_a1 (s : State) (v : Word) : (s.setCrc v).a1 = s.a1 := rfl
@[simp] theorem State.setCrc_a2 (s : State) (v : Word) : (s.setCrc v).a2 = s.a2 := rfl
@[simp] theorem State.setCrc_res (s : State) (v : Word) : (s.setCrc v).res = s.res := rfl
@[simp] theorem State.setCrc_fault (s : State) (v : Word) : (s.setCrc v).fault = s.fault := rfl
@[simp] theorem State.setCrc_finfo0 (s : State) (v : Word) : (s.setCrc v).finfo0 = s.finfo0 := rfl
@[simp] theorem State.setCrc_finfo1 (s : State) (v : Word) : (s.setCrc v).finfo1 = s.finfo1 := rfl
@[simp] theorem State.setCrc_ctrl (s : State) (v : Word) : (s.setCrc v).ctrl = s.ctrl := rfl
@[simp] theorem State.setCrc_crc (s : State) (v : Word) : (s.setCrc v).crc = v := rfl
@[simp] theorem State.setCrc_zadler (s : State) (v : Word) : (s.setCrc v).zadler = s.zadler := rfl
@[simp] theorem State.setCrc_inCount (s : State) (v : Word) : (s.setCrc v).inCount = s.inCount := rfl
@[simp] theorem State.setCrc_outCount (s : State) (v : Word) : (s.setCrc v).outCount = s.outCount := rfl
@[simp] theorem State.setCrc_bsrBuf (s : State) (v : Word) : (s.setCrc v).bsrBuf = s.bsrBuf := rfl
@[simp] theorem State.setCrc_bsrLen (s : State) (v : Word) : (s.setCrc v).bsrLen = s.bsrLen := rfl
@[simp] theorem State.setCrc_bsrPos (s : State) (v : Word) : (s.setCrc v).bsrPos = s.bsrPos := rfl
@[simp] theorem State.setCrc_bsrTerm (s : State) (v : Word) : (s.setCrc v).bsrTerm = s.bsrTerm := rfl
@[simp] theorem State.setCrc_lzwState (s : State) (v : Word) : (s.setCrc v).lzwState = s.lzwState := rfl
@[simp] theorem State.setCrc_lzwMin (s : State) (v : Word) : (s.setCrc v).lzwMin = s.lzwMin := rfl
@[simp] theorem State.setCrc_lzwWidth (s : State) (v : Word) : (s.setCrc v).lzwWidth = s.lzwWidth := rfl
@[simp] theorem State.setCrc_lzwNext (s : State) (v : Word) : (s.setCrc v).lzwNext = s.lzwNext := rfl
@[simp] theorem State.setCrc_lzwPrev (s : State) (v : Word) : (s.setCrc v).lzwPrev = s.lzwPrev := rfl
@[simp] theorem State.setCrc_lzwPrevValid (s : State) (v : Word) : (s.setCrc v).lzwPrevValid = s.lzwPrevValid := rfl
@[simp] theorem State.setCrc_lzwBitbuf (s : State) (v : Word) : (s.setCrc v).lzwBitbuf = s.lzwBitbuf := rfl
@[simp] theorem State.setCrc_lzwNbits (s : State) (v : Word) : (s.setCrc v).lzwNbits = s.lzwNbits := rfl
@[simp] theorem State.setCrc_lzwPrefix (s : State) (v : Word) : (s.setCrc v).lzwPrefix = s.lzwPrefix := rfl
@[simp] theorem State.setCrc_lzwSuffix (s : State) (v : Word) : (s.setCrc v).lzwSuffix = s.lzwSuffix := rfl
@[simp] theorem State.setCrc_lzwPend (s : State) (v : Word) : (s.setCrc v).lzwPend = s.lzwPend := rfl
@[simp] theorem State.setCrc_buf (s : State) (v : Word) : (s.setCrc v).buf = s.buf := rfl
@[simp] theorem State.setCrc_bufBytes (s : State) (v : Word) : (s.setCrc v).bufBytes = s.bufBytes := rfl
@[simp] theorem State.setCrc_deflateChoice (s : State) (v : Word) : (s.setCrc v).deflateChoice = s.deflateChoice := rfl
@[simp] theorem State.setCrc_inBytes (s : State) (v : Word) : (s.setCrc v).inBytes = s.inBytes := rfl
@[simp] theorem State.setCrc_inEnd (s : State) (v : Word) : (s.setCrc v).inEnd = s.inEnd := rfl
@[simp] theorem State.setCrc_outBytes (s : State) (v : Word) : (s.setCrc v).outBytes = s.outBytes := rfl
@[simp] theorem State.setCrc_outRefusals (s : State) (v : Word) : (s.setCrc v).outRefusals = s.outRefusals := rfl
@[simp] theorem State.setCrc_hostOps (s : State) (v : Word) : (s.setCrc v).hostOps = s.hostOps := rfl
@[simp] theorem State.setCrc_hostReplies (s : State) (v : Word) : (s.setCrc v).hostReplies = s.hostReplies := rfl

@[simp] theorem State.writeBuf_cmd (s : State) (a : Nat) (b : Byte) : (s.writeBuf a b).cmd = s.cmd := rfl
@[simp] theorem State.writeBuf_a0 (s : State) (a : Nat) (b : Byte) : (s.writeBuf a b).a0 = s.a0 := rfl
@[simp] theorem State.writeBuf_a1 (s : State) (a : Nat) (b : Byte) : (s.writeBuf a b).a1 = s.a1 := rfl
@[simp] theorem State.writeBuf_a2 (s : State) (a : Nat) (b : Byte) : (s.writeBuf a b).a2 = s.a2 := rfl
@[simp] theorem State.writeBuf_res (s : State) (a : Nat) (b : Byte) : (s.writeBuf a b).res = s.res := rfl
@[simp] theorem State.writeBuf_fault (s : State) (a : Nat) (b : Byte) : (s.writeBuf a b).fault = s.fault := rfl
@[simp] theorem State.writeBuf_finfo0 (s : State) (a : Nat) (b : Byte) : (s.writeBuf a b).finfo0 = s.finfo0 := rfl
@[simp] theorem State.writeBuf_finfo1 (s : State) (a : Nat) (b : Byte) : (s.writeBuf a b).finfo1 = s.finfo1 := rfl
@[simp] theorem State.writeBuf_ctrl (s : State) (a : Nat) (b : Byte) : (s.writeBuf a b).ctrl = s.ctrl := rfl
@[simp] theorem State.writeBuf_crc (s : State) (a : Nat) (b : Byte) : (s.writeBuf a b).crc = s.crc := rfl
@[simp] theorem State.writeBuf_zadler (s : State) (a : Nat) (b : Byte) : (s.writeBuf a b).zadler = s.zadler := rfl
@[simp] theorem State.writeBuf_inCount (s : State) (a : Nat) (b : Byte) : (s.writeBuf a b).inCount = s.inCount := rfl
@[simp] theorem State.writeBuf_outCount (s : State) (a : Nat) (b : Byte) : (s.writeBuf a b).outCount = s.outCount := rfl
@[simp] theorem State.writeBuf_bsrBuf (s : State) (a : Nat) (b : Byte) : (s.writeBuf a b).bsrBuf = s.bsrBuf := rfl
@[simp] theorem State.writeBuf_bsrLen (s : State) (a : Nat) (b : Byte) : (s.writeBuf a b).bsrLen = s.bsrLen := rfl
@[simp] theorem State.writeBuf_bsrPos (s : State) (a : Nat) (b : Byte) : (s.writeBuf a b).bsrPos = s.bsrPos := rfl
@[simp] theorem State.writeBuf_bsrTerm (s : State) (a : Nat) (b : Byte) : (s.writeBuf a b).bsrTerm = s.bsrTerm := rfl
@[simp] theorem State.writeBuf_lzwState (s : State) (a : Nat) (b : Byte) : (s.writeBuf a b).lzwState = s.lzwState := rfl
@[simp] theorem State.writeBuf_lzwMin (s : State) (a : Nat) (b : Byte) : (s.writeBuf a b).lzwMin = s.lzwMin := rfl
@[simp] theorem State.writeBuf_lzwWidth (s : State) (a : Nat) (b : Byte) : (s.writeBuf a b).lzwWidth = s.lzwWidth := rfl
@[simp] theorem State.writeBuf_lzwNext (s : State) (a : Nat) (b : Byte) : (s.writeBuf a b).lzwNext = s.lzwNext := rfl
@[simp] theorem State.writeBuf_lzwPrev (s : State) (a : Nat) (b : Byte) : (s.writeBuf a b).lzwPrev = s.lzwPrev := rfl
@[simp] theorem State.writeBuf_lzwPrevValid (s : State) (a : Nat) (b : Byte) : (s.writeBuf a b).lzwPrevValid = s.lzwPrevValid := rfl
@[simp] theorem State.writeBuf_lzwBitbuf (s : State) (a : Nat) (b : Byte) : (s.writeBuf a b).lzwBitbuf = s.lzwBitbuf := rfl
@[simp] theorem State.writeBuf_lzwNbits (s : State) (a : Nat) (b : Byte) : (s.writeBuf a b).lzwNbits = s.lzwNbits := rfl
@[simp] theorem State.writeBuf_lzwPrefix (s : State) (a : Nat) (b : Byte) : (s.writeBuf a b).lzwPrefix = s.lzwPrefix := rfl
@[simp] theorem State.writeBuf_lzwSuffix (s : State) (a : Nat) (b : Byte) : (s.writeBuf a b).lzwSuffix = s.lzwSuffix := rfl
@[simp] theorem State.writeBuf_lzwPend (s : State) (a : Nat) (b : Byte) : (s.writeBuf a b).lzwPend = s.lzwPend := rfl
@[simp] theorem State.writeBuf_buf (s : State) (a : Nat) (b : Byte) : (s.writeBuf a b).buf = Memory.write s.buf a b := rfl
@[simp] theorem State.writeBuf_bufBytes (s : State) (a : Nat) (b : Byte) : (s.writeBuf a b).bufBytes = s.bufBytes := rfl
@[simp] theorem State.writeBuf_deflateChoice (s : State) (a : Nat) (b : Byte) : (s.writeBuf a b).deflateChoice = s.deflateChoice := rfl
@[simp] theorem State.writeBuf_inBytes (s : State) (a : Nat) (b : Byte) : (s.writeBuf a b).inBytes = s.inBytes := rfl
@[simp] theorem State.writeBuf_inEnd (s : State) (a : Nat) (b : Byte) : (s.writeBuf a b).inEnd = s.inEnd := rfl
@[simp] theorem State.writeBuf_outBytes (s : State) (a : Nat) (b : Byte) : (s.writeBuf a b).outBytes = s.outBytes := rfl
@[simp] theorem State.writeBuf_outRefusals (s : State) (a : Nat) (b : Byte) : (s.writeBuf a b).outRefusals = s.outRefusals := rfl
@[simp] theorem State.writeBuf_hostOps (s : State) (a : Nat) (b : Byte) : (s.writeBuf a b).hostOps = s.hostOps := rfl
@[simp] theorem State.writeBuf_hostReplies (s : State) (a : Nat) (b : Byte) : (s.writeBuf a b).hostReplies = s.hostReplies := rfl

@[simp] theorem State.writeBufList_cmd (s : State) (a : Nat) (bs : List Byte) : (s.writeBufList a bs).cmd = s.cmd := rfl
@[simp] theorem State.writeBufList_a0 (s : State) (a : Nat) (bs : List Byte) : (s.writeBufList a bs).a0 = s.a0 := rfl
@[simp] theorem State.writeBufList_a1 (s : State) (a : Nat) (bs : List Byte) : (s.writeBufList a bs).a1 = s.a1 := rfl
@[simp] theorem State.writeBufList_a2 (s : State) (a : Nat) (bs : List Byte) : (s.writeBufList a bs).a2 = s.a2 := rfl
@[simp] theorem State.writeBufList_res (s : State) (a : Nat) (bs : List Byte) : (s.writeBufList a bs).res = s.res := rfl
@[simp] theorem State.writeBufList_fault (s : State) (a : Nat) (bs : List Byte) : (s.writeBufList a bs).fault = s.fault := rfl
@[simp] theorem State.writeBufList_finfo0 (s : State) (a : Nat) (bs : List Byte) : (s.writeBufList a bs).finfo0 = s.finfo0 := rfl
@[simp] theorem State.writeBufList_finfo1 (s : State) (a : Nat) (bs : List Byte) : (s.writeBufList a bs).finfo1 = s.finfo1 := rfl
@[simp] theorem State.writeBufList_ctrl (s : State) (a : Nat) (bs : List Byte) : (s.writeBufList a bs).ctrl = s.ctrl := rfl
@[simp] theorem State.writeBufList_crc (s : State) (a : Nat) (bs : List Byte) : (s.writeBufList a bs).crc = s.crc := rfl
@[simp] theorem State.writeBufList_zadler (s : State) (a : Nat) (bs : List Byte) : (s.writeBufList a bs).zadler = s.zadler := rfl
@[simp] theorem State.writeBufList_inCount (s : State) (a : Nat) (bs : List Byte) : (s.writeBufList a bs).inCount = s.inCount := rfl
@[simp] theorem State.writeBufList_outCount (s : State) (a : Nat) (bs : List Byte) : (s.writeBufList a bs).outCount = s.outCount := rfl
@[simp] theorem State.writeBufList_bsrBuf (s : State) (a : Nat) (bs : List Byte) : (s.writeBufList a bs).bsrBuf = s.bsrBuf := rfl
@[simp] theorem State.writeBufList_bsrLen (s : State) (a : Nat) (bs : List Byte) : (s.writeBufList a bs).bsrLen = s.bsrLen := rfl
@[simp] theorem State.writeBufList_bsrPos (s : State) (a : Nat) (bs : List Byte) : (s.writeBufList a bs).bsrPos = s.bsrPos := rfl
@[simp] theorem State.writeBufList_bsrTerm (s : State) (a : Nat) (bs : List Byte) : (s.writeBufList a bs).bsrTerm = s.bsrTerm := rfl
@[simp] theorem State.writeBufList_lzwState (s : State) (a : Nat) (bs : List Byte) : (s.writeBufList a bs).lzwState = s.lzwState := rfl
@[simp] theorem State.writeBufList_lzwMin (s : State) (a : Nat) (bs : List Byte) : (s.writeBufList a bs).lzwMin = s.lzwMin := rfl
@[simp] theorem State.writeBufList_lzwWidth (s : State) (a : Nat) (bs : List Byte) : (s.writeBufList a bs).lzwWidth = s.lzwWidth := rfl
@[simp] theorem State.writeBufList_lzwNext (s : State) (a : Nat) (bs : List Byte) : (s.writeBufList a bs).lzwNext = s.lzwNext := rfl
@[simp] theorem State.writeBufList_lzwPrev (s : State) (a : Nat) (bs : List Byte) : (s.writeBufList a bs).lzwPrev = s.lzwPrev := rfl
@[simp] theorem State.writeBufList_lzwPrevValid (s : State) (a : Nat) (bs : List Byte) : (s.writeBufList a bs).lzwPrevValid = s.lzwPrevValid := rfl
@[simp] theorem State.writeBufList_lzwBitbuf (s : State) (a : Nat) (bs : List Byte) : (s.writeBufList a bs).lzwBitbuf = s.lzwBitbuf := rfl
@[simp] theorem State.writeBufList_lzwNbits (s : State) (a : Nat) (bs : List Byte) : (s.writeBufList a bs).lzwNbits = s.lzwNbits := rfl
@[simp] theorem State.writeBufList_lzwPrefix (s : State) (a : Nat) (bs : List Byte) : (s.writeBufList a bs).lzwPrefix = s.lzwPrefix := rfl
@[simp] theorem State.writeBufList_lzwSuffix (s : State) (a : Nat) (bs : List Byte) : (s.writeBufList a bs).lzwSuffix = s.lzwSuffix := rfl
@[simp] theorem State.writeBufList_lzwPend (s : State) (a : Nat) (bs : List Byte) : (s.writeBufList a bs).lzwPend = s.lzwPend := rfl
@[simp] theorem State.writeBufList_buf (s : State) (a : Nat) (bs : List Byte) : (s.writeBufList a bs).buf = Memory.writeList s.buf a bs := rfl
@[simp] theorem State.writeBufList_bufBytes (s : State) (a : Nat) (bs : List Byte) : (s.writeBufList a bs).bufBytes = s.bufBytes := rfl
@[simp] theorem State.writeBufList_deflateChoice (s : State) (a : Nat) (bs : List Byte) : (s.writeBufList a bs).deflateChoice = s.deflateChoice := rfl
@[simp] theorem State.writeBufList_inBytes (s : State) (a : Nat) (bs : List Byte) : (s.writeBufList a bs).inBytes = s.inBytes := rfl
@[simp] theorem State.writeBufList_inEnd (s : State) (a : Nat) (bs : List Byte) : (s.writeBufList a bs).inEnd = s.inEnd := rfl
@[simp] theorem State.writeBufList_outBytes (s : State) (a : Nat) (bs : List Byte) : (s.writeBufList a bs).outBytes = s.outBytes := rfl
@[simp] theorem State.writeBufList_outRefusals (s : State) (a : Nat) (bs : List Byte) : (s.writeBufList a bs).outRefusals = s.outRefusals := rfl
@[simp] theorem State.writeBufList_hostOps (s : State) (a : Nat) (bs : List Byte) : (s.writeBufList a bs).hostOps = s.hostOps := rfl
@[simp] theorem State.writeBufList_hostReplies (s : State) (a : Nat) (bs : List Byte) : (s.writeBufList a bs).hostReplies = s.hostReplies := rfl

@[simp] theorem State.tookByte_cmd (s : State) (rest : List Byte) : (s.tookByte rest).cmd = s.cmd := rfl
@[simp] theorem State.tookByte_a0 (s : State) (rest : List Byte) : (s.tookByte rest).a0 = s.a0 := rfl
@[simp] theorem State.tookByte_a1 (s : State) (rest : List Byte) : (s.tookByte rest).a1 = s.a1 := rfl
@[simp] theorem State.tookByte_a2 (s : State) (rest : List Byte) : (s.tookByte rest).a2 = s.a2 := rfl
@[simp] theorem State.tookByte_res (s : State) (rest : List Byte) : (s.tookByte rest).res = s.res := rfl
@[simp] theorem State.tookByte_fault (s : State) (rest : List Byte) : (s.tookByte rest).fault = s.fault := rfl
@[simp] theorem State.tookByte_finfo0 (s : State) (rest : List Byte) : (s.tookByte rest).finfo0 = s.finfo0 := rfl
@[simp] theorem State.tookByte_finfo1 (s : State) (rest : List Byte) : (s.tookByte rest).finfo1 = s.finfo1 := rfl
@[simp] theorem State.tookByte_ctrl (s : State) (rest : List Byte) : (s.tookByte rest).ctrl = s.ctrl := rfl
@[simp] theorem State.tookByte_crc (s : State) (rest : List Byte) : (s.tookByte rest).crc = s.crc := rfl
@[simp] theorem State.tookByte_zadler (s : State) (rest : List Byte) : (s.tookByte rest).zadler = s.zadler := rfl
@[simp] theorem State.tookByte_inCount (s : State) (rest : List Byte) : (s.tookByte rest).inCount = s.inCount + 1 := rfl
@[simp] theorem State.tookByte_outCount (s : State) (rest : List Byte) : (s.tookByte rest).outCount = s.outCount := rfl
@[simp] theorem State.tookByte_bsrBuf (s : State) (rest : List Byte) : (s.tookByte rest).bsrBuf = s.bsrBuf := rfl
@[simp] theorem State.tookByte_bsrLen (s : State) (rest : List Byte) : (s.tookByte rest).bsrLen = s.bsrLen := rfl
@[simp] theorem State.tookByte_bsrPos (s : State) (rest : List Byte) : (s.tookByte rest).bsrPos = s.bsrPos := rfl
@[simp] theorem State.tookByte_bsrTerm (s : State) (rest : List Byte) : (s.tookByte rest).bsrTerm = s.bsrTerm := rfl
@[simp] theorem State.tookByte_lzwState (s : State) (rest : List Byte) : (s.tookByte rest).lzwState = s.lzwState := rfl
@[simp] theorem State.tookByte_lzwMin (s : State) (rest : List Byte) : (s.tookByte rest).lzwMin = s.lzwMin := rfl
@[simp] theorem State.tookByte_lzwWidth (s : State) (rest : List Byte) : (s.tookByte rest).lzwWidth = s.lzwWidth := rfl
@[simp] theorem State.tookByte_lzwNext (s : State) (rest : List Byte) : (s.tookByte rest).lzwNext = s.lzwNext := rfl
@[simp] theorem State.tookByte_lzwPrev (s : State) (rest : List Byte) : (s.tookByte rest).lzwPrev = s.lzwPrev := rfl
@[simp] theorem State.tookByte_lzwPrevValid (s : State) (rest : List Byte) : (s.tookByte rest).lzwPrevValid = s.lzwPrevValid := rfl
@[simp] theorem State.tookByte_lzwBitbuf (s : State) (rest : List Byte) : (s.tookByte rest).lzwBitbuf = s.lzwBitbuf := rfl
@[simp] theorem State.tookByte_lzwNbits (s : State) (rest : List Byte) : (s.tookByte rest).lzwNbits = s.lzwNbits := rfl
@[simp] theorem State.tookByte_lzwPrefix (s : State) (rest : List Byte) : (s.tookByte rest).lzwPrefix = s.lzwPrefix := rfl
@[simp] theorem State.tookByte_lzwSuffix (s : State) (rest : List Byte) : (s.tookByte rest).lzwSuffix = s.lzwSuffix := rfl
@[simp] theorem State.tookByte_lzwPend (s : State) (rest : List Byte) : (s.tookByte rest).lzwPend = s.lzwPend := rfl
@[simp] theorem State.tookByte_buf (s : State) (rest : List Byte) : (s.tookByte rest).buf = s.buf := rfl
@[simp] theorem State.tookByte_bufBytes (s : State) (rest : List Byte) : (s.tookByte rest).bufBytes = s.bufBytes := rfl
@[simp] theorem State.tookByte_deflateChoice (s : State) (rest : List Byte) : (s.tookByte rest).deflateChoice = s.deflateChoice := rfl
@[simp] theorem State.tookByte_inBytes (s : State) (rest : List Byte) : (s.tookByte rest).inBytes = rest := rfl
@[simp] theorem State.tookByte_inEnd (s : State) (rest : List Byte) : (s.tookByte rest).inEnd = s.inEnd := rfl
@[simp] theorem State.tookByte_outBytes (s : State) (rest : List Byte) : (s.tookByte rest).outBytes = s.outBytes := rfl
@[simp] theorem State.tookByte_outRefusals (s : State) (rest : List Byte) : (s.tookByte rest).outRefusals = s.outRefusals := rfl
@[simp] theorem State.tookByte_hostOps (s : State) (rest : List Byte) : (s.tookByte rest).hostOps = s.hostOps := rfl
@[simp] theorem State.tookByte_hostReplies (s : State) (rest : List Byte) : (s.tookByte rest).hostReplies = s.hostReplies := rfl

@[simp] theorem State.gaveByte_cmd (s : State) (b : Byte) : (s.gaveByte b).cmd = s.cmd := rfl
@[simp] theorem State.gaveByte_a0 (s : State) (b : Byte) : (s.gaveByte b).a0 = s.a0 := rfl
@[simp] theorem State.gaveByte_a1 (s : State) (b : Byte) : (s.gaveByte b).a1 = s.a1 := rfl
@[simp] theorem State.gaveByte_a2 (s : State) (b : Byte) : (s.gaveByte b).a2 = s.a2 := rfl
@[simp] theorem State.gaveByte_res (s : State) (b : Byte) : (s.gaveByte b).res = s.res := rfl
@[simp] theorem State.gaveByte_fault (s : State) (b : Byte) : (s.gaveByte b).fault = s.fault := rfl
@[simp] theorem State.gaveByte_finfo0 (s : State) (b : Byte) : (s.gaveByte b).finfo0 = s.finfo0 := rfl
@[simp] theorem State.gaveByte_finfo1 (s : State) (b : Byte) : (s.gaveByte b).finfo1 = s.finfo1 := rfl
@[simp] theorem State.gaveByte_ctrl (s : State) (b : Byte) : (s.gaveByte b).ctrl = s.ctrl := rfl
@[simp] theorem State.gaveByte_crc (s : State) (b : Byte) : (s.gaveByte b).crc = s.crc := rfl
@[simp] theorem State.gaveByte_zadler (s : State) (b : Byte) : (s.gaveByte b).zadler = s.zadler := rfl
@[simp] theorem State.gaveByte_inCount (s : State) (b : Byte) : (s.gaveByte b).inCount = s.inCount := rfl
@[simp] theorem State.gaveByte_outCount (s : State) (b : Byte) : (s.gaveByte b).outCount = s.outCount + 1 := rfl
@[simp] theorem State.gaveByte_bsrBuf (s : State) (b : Byte) : (s.gaveByte b).bsrBuf = s.bsrBuf := rfl
@[simp] theorem State.gaveByte_bsrLen (s : State) (b : Byte) : (s.gaveByte b).bsrLen = s.bsrLen := rfl
@[simp] theorem State.gaveByte_bsrPos (s : State) (b : Byte) : (s.gaveByte b).bsrPos = s.bsrPos := rfl
@[simp] theorem State.gaveByte_bsrTerm (s : State) (b : Byte) : (s.gaveByte b).bsrTerm = s.bsrTerm := rfl
@[simp] theorem State.gaveByte_lzwState (s : State) (b : Byte) : (s.gaveByte b).lzwState = s.lzwState := rfl
@[simp] theorem State.gaveByte_lzwMin (s : State) (b : Byte) : (s.gaveByte b).lzwMin = s.lzwMin := rfl
@[simp] theorem State.gaveByte_lzwWidth (s : State) (b : Byte) : (s.gaveByte b).lzwWidth = s.lzwWidth := rfl
@[simp] theorem State.gaveByte_lzwNext (s : State) (b : Byte) : (s.gaveByte b).lzwNext = s.lzwNext := rfl
@[simp] theorem State.gaveByte_lzwPrev (s : State) (b : Byte) : (s.gaveByte b).lzwPrev = s.lzwPrev := rfl
@[simp] theorem State.gaveByte_lzwPrevValid (s : State) (b : Byte) : (s.gaveByte b).lzwPrevValid = s.lzwPrevValid := rfl
@[simp] theorem State.gaveByte_lzwBitbuf (s : State) (b : Byte) : (s.gaveByte b).lzwBitbuf = s.lzwBitbuf := rfl
@[simp] theorem State.gaveByte_lzwNbits (s : State) (b : Byte) : (s.gaveByte b).lzwNbits = s.lzwNbits := rfl
@[simp] theorem State.gaveByte_lzwPrefix (s : State) (b : Byte) : (s.gaveByte b).lzwPrefix = s.lzwPrefix := rfl
@[simp] theorem State.gaveByte_lzwSuffix (s : State) (b : Byte) : (s.gaveByte b).lzwSuffix = s.lzwSuffix := rfl
@[simp] theorem State.gaveByte_lzwPend (s : State) (b : Byte) : (s.gaveByte b).lzwPend = s.lzwPend := rfl
@[simp] theorem State.gaveByte_buf (s : State) (b : Byte) : (s.gaveByte b).buf = s.buf := rfl
@[simp] theorem State.gaveByte_bufBytes (s : State) (b : Byte) : (s.gaveByte b).bufBytes = s.bufBytes := rfl
@[simp] theorem State.gaveByte_deflateChoice (s : State) (b : Byte) : (s.gaveByte b).deflateChoice = s.deflateChoice := rfl
@[simp] theorem State.gaveByte_inBytes (s : State) (b : Byte) : (s.gaveByte b).inBytes = s.inBytes := rfl
@[simp] theorem State.gaveByte_inEnd (s : State) (b : Byte) : (s.gaveByte b).inEnd = s.inEnd := rfl
@[simp] theorem State.gaveByte_outBytes (s : State) (b : Byte) : (s.gaveByte b).outBytes = s.outBytes ++ [b] := rfl
@[simp] theorem State.gaveByte_outRefusals (s : State) (b : Byte) : (s.gaveByte b).outRefusals = s.outRefusals := rfl
@[simp] theorem State.gaveByte_hostOps (s : State) (b : Byte) : (s.gaveByte b).hostOps = s.hostOps := rfl
@[simp] theorem State.gaveByte_hostReplies (s : State) (b : Byte) : (s.gaveByte b).hostReplies = s.hostReplies := rfl

@[simp] theorem State.writeBsr_cmd (s : State) (i : Nat) (b : Byte) : (s.writeBsr i b).cmd = s.cmd := rfl
@[simp] theorem State.writeBsr_a0 (s : State) (i : Nat) (b : Byte) : (s.writeBsr i b).a0 = s.a0 := rfl
@[simp] theorem State.writeBsr_a1 (s : State) (i : Nat) (b : Byte) : (s.writeBsr i b).a1 = s.a1 := rfl
@[simp] theorem State.writeBsr_a2 (s : State) (i : Nat) (b : Byte) : (s.writeBsr i b).a2 = s.a2 := rfl
@[simp] theorem State.writeBsr_res (s : State) (i : Nat) (b : Byte) : (s.writeBsr i b).res = s.res := rfl
@[simp] theorem State.writeBsr_fault (s : State) (i : Nat) (b : Byte) : (s.writeBsr i b).fault = s.fault := rfl
@[simp] theorem State.writeBsr_finfo0 (s : State) (i : Nat) (b : Byte) : (s.writeBsr i b).finfo0 = s.finfo0 := rfl
@[simp] theorem State.writeBsr_finfo1 (s : State) (i : Nat) (b : Byte) : (s.writeBsr i b).finfo1 = s.finfo1 := rfl
@[simp] theorem State.writeBsr_ctrl (s : State) (i : Nat) (b : Byte) : (s.writeBsr i b).ctrl = s.ctrl := rfl
@[simp] theorem State.writeBsr_crc (s : State) (i : Nat) (b : Byte) : (s.writeBsr i b).crc = s.crc := rfl
@[simp] theorem State.writeBsr_zadler (s : State) (i : Nat) (b : Byte) : (s.writeBsr i b).zadler = s.zadler := rfl
@[simp] theorem State.writeBsr_inCount (s : State) (i : Nat) (b : Byte) : (s.writeBsr i b).inCount = s.inCount := rfl
@[simp] theorem State.writeBsr_outCount (s : State) (i : Nat) (b : Byte) : (s.writeBsr i b).outCount = s.outCount := rfl
@[simp] theorem State.writeBsr_bsrBuf (s : State) (i : Nat) (b : Byte) : (s.writeBsr i b).bsrBuf = Store.put s.bsrBuf i b := rfl
@[simp] theorem State.writeBsr_bsrLen (s : State) (i : Nat) (b : Byte) : (s.writeBsr i b).bsrLen = s.bsrLen := rfl
@[simp] theorem State.writeBsr_bsrPos (s : State) (i : Nat) (b : Byte) : (s.writeBsr i b).bsrPos = s.bsrPos := rfl
@[simp] theorem State.writeBsr_bsrTerm (s : State) (i : Nat) (b : Byte) : (s.writeBsr i b).bsrTerm = s.bsrTerm := rfl
@[simp] theorem State.writeBsr_lzwState (s : State) (i : Nat) (b : Byte) : (s.writeBsr i b).lzwState = s.lzwState := rfl
@[simp] theorem State.writeBsr_lzwMin (s : State) (i : Nat) (b : Byte) : (s.writeBsr i b).lzwMin = s.lzwMin := rfl
@[simp] theorem State.writeBsr_lzwWidth (s : State) (i : Nat) (b : Byte) : (s.writeBsr i b).lzwWidth = s.lzwWidth := rfl
@[simp] theorem State.writeBsr_lzwNext (s : State) (i : Nat) (b : Byte) : (s.writeBsr i b).lzwNext = s.lzwNext := rfl
@[simp] theorem State.writeBsr_lzwPrev (s : State) (i : Nat) (b : Byte) : (s.writeBsr i b).lzwPrev = s.lzwPrev := rfl
@[simp] theorem State.writeBsr_lzwPrevValid (s : State) (i : Nat) (b : Byte) : (s.writeBsr i b).lzwPrevValid = s.lzwPrevValid := rfl
@[simp] theorem State.writeBsr_lzwBitbuf (s : State) (i : Nat) (b : Byte) : (s.writeBsr i b).lzwBitbuf = s.lzwBitbuf := rfl
@[simp] theorem State.writeBsr_lzwNbits (s : State) (i : Nat) (b : Byte) : (s.writeBsr i b).lzwNbits = s.lzwNbits := rfl
@[simp] theorem State.writeBsr_lzwPrefix (s : State) (i : Nat) (b : Byte) : (s.writeBsr i b).lzwPrefix = s.lzwPrefix := rfl
@[simp] theorem State.writeBsr_lzwSuffix (s : State) (i : Nat) (b : Byte) : (s.writeBsr i b).lzwSuffix = s.lzwSuffix := rfl
@[simp] theorem State.writeBsr_lzwPend (s : State) (i : Nat) (b : Byte) : (s.writeBsr i b).lzwPend = s.lzwPend := rfl
@[simp] theorem State.writeBsr_buf (s : State) (i : Nat) (b : Byte) : (s.writeBsr i b).buf = s.buf := rfl
@[simp] theorem State.writeBsr_bufBytes (s : State) (i : Nat) (b : Byte) : (s.writeBsr i b).bufBytes = s.bufBytes := rfl
@[simp] theorem State.writeBsr_deflateChoice (s : State) (i : Nat) (b : Byte) : (s.writeBsr i b).deflateChoice = s.deflateChoice := rfl
@[simp] theorem State.writeBsr_inBytes (s : State) (i : Nat) (b : Byte) : (s.writeBsr i b).inBytes = s.inBytes := rfl
@[simp] theorem State.writeBsr_inEnd (s : State) (i : Nat) (b : Byte) : (s.writeBsr i b).inEnd = s.inEnd := rfl
@[simp] theorem State.writeBsr_outBytes (s : State) (i : Nat) (b : Byte) : (s.writeBsr i b).outBytes = s.outBytes := rfl
@[simp] theorem State.writeBsr_outRefusals (s : State) (i : Nat) (b : Byte) : (s.writeBsr i b).outRefusals = s.outRefusals := rfl
@[simp] theorem State.writeBsr_hostOps (s : State) (i : Nat) (b : Byte) : (s.writeBsr i b).hostOps = s.hostOps := rfl
@[simp] theorem State.writeBsr_hostReplies (s : State) (i : Nat) (b : Byte) : (s.writeBsr i b).hostReplies = s.hostReplies := rfl

@[simp] theorem State.setBsr_cmd (s : State) (len pos : Nat) : (s.setBsr len pos).cmd = s.cmd := rfl
@[simp] theorem State.setBsr_a0 (s : State) (len pos : Nat) : (s.setBsr len pos).a0 = s.a0 := rfl
@[simp] theorem State.setBsr_a1 (s : State) (len pos : Nat) : (s.setBsr len pos).a1 = s.a1 := rfl
@[simp] theorem State.setBsr_a2 (s : State) (len pos : Nat) : (s.setBsr len pos).a2 = s.a2 := rfl
@[simp] theorem State.setBsr_res (s : State) (len pos : Nat) : (s.setBsr len pos).res = s.res := rfl
@[simp] theorem State.setBsr_fault (s : State) (len pos : Nat) : (s.setBsr len pos).fault = s.fault := rfl
@[simp] theorem State.setBsr_finfo0 (s : State) (len pos : Nat) : (s.setBsr len pos).finfo0 = s.finfo0 := rfl
@[simp] theorem State.setBsr_finfo1 (s : State) (len pos : Nat) : (s.setBsr len pos).finfo1 = s.finfo1 := rfl
@[simp] theorem State.setBsr_ctrl (s : State) (len pos : Nat) : (s.setBsr len pos).ctrl = s.ctrl := rfl
@[simp] theorem State.setBsr_crc (s : State) (len pos : Nat) : (s.setBsr len pos).crc = s.crc := rfl
@[simp] theorem State.setBsr_zadler (s : State) (len pos : Nat) : (s.setBsr len pos).zadler = s.zadler := rfl
@[simp] theorem State.setBsr_inCount (s : State) (len pos : Nat) : (s.setBsr len pos).inCount = s.inCount := rfl
@[simp] theorem State.setBsr_outCount (s : State) (len pos : Nat) : (s.setBsr len pos).outCount = s.outCount := rfl
@[simp] theorem State.setBsr_bsrBuf (s : State) (len pos : Nat) : (s.setBsr len pos).bsrBuf = s.bsrBuf := rfl
@[simp] theorem State.setBsr_bsrLen (s : State) (len pos : Nat) : (s.setBsr len pos).bsrLen = len := rfl
@[simp] theorem State.setBsr_bsrPos (s : State) (len pos : Nat) : (s.setBsr len pos).bsrPos = pos := rfl
@[simp] theorem State.setBsr_bsrTerm (s : State) (len pos : Nat) : (s.setBsr len pos).bsrTerm = s.bsrTerm := rfl
@[simp] theorem State.setBsr_lzwState (s : State) (len pos : Nat) : (s.setBsr len pos).lzwState = s.lzwState := rfl
@[simp] theorem State.setBsr_lzwMin (s : State) (len pos : Nat) : (s.setBsr len pos).lzwMin = s.lzwMin := rfl
@[simp] theorem State.setBsr_lzwWidth (s : State) (len pos : Nat) : (s.setBsr len pos).lzwWidth = s.lzwWidth := rfl
@[simp] theorem State.setBsr_lzwNext (s : State) (len pos : Nat) : (s.setBsr len pos).lzwNext = s.lzwNext := rfl
@[simp] theorem State.setBsr_lzwPrev (s : State) (len pos : Nat) : (s.setBsr len pos).lzwPrev = s.lzwPrev := rfl
@[simp] theorem State.setBsr_lzwPrevValid (s : State) (len pos : Nat) : (s.setBsr len pos).lzwPrevValid = s.lzwPrevValid := rfl
@[simp] theorem State.setBsr_lzwBitbuf (s : State) (len pos : Nat) : (s.setBsr len pos).lzwBitbuf = s.lzwBitbuf := rfl
@[simp] theorem State.setBsr_lzwNbits (s : State) (len pos : Nat) : (s.setBsr len pos).lzwNbits = s.lzwNbits := rfl
@[simp] theorem State.setBsr_lzwPrefix (s : State) (len pos : Nat) : (s.setBsr len pos).lzwPrefix = s.lzwPrefix := rfl
@[simp] theorem State.setBsr_lzwSuffix (s : State) (len pos : Nat) : (s.setBsr len pos).lzwSuffix = s.lzwSuffix := rfl
@[simp] theorem State.setBsr_lzwPend (s : State) (len pos : Nat) : (s.setBsr len pos).lzwPend = s.lzwPend := rfl
@[simp] theorem State.setBsr_buf (s : State) (len pos : Nat) : (s.setBsr len pos).buf = s.buf := rfl
@[simp] theorem State.setBsr_bufBytes (s : State) (len pos : Nat) : (s.setBsr len pos).bufBytes = s.bufBytes := rfl
@[simp] theorem State.setBsr_deflateChoice (s : State) (len pos : Nat) : (s.setBsr len pos).deflateChoice = s.deflateChoice := rfl
@[simp] theorem State.setBsr_inBytes (s : State) (len pos : Nat) : (s.setBsr len pos).inBytes = s.inBytes := rfl
@[simp] theorem State.setBsr_inEnd (s : State) (len pos : Nat) : (s.setBsr len pos).inEnd = s.inEnd := rfl
@[simp] theorem State.setBsr_outBytes (s : State) (len pos : Nat) : (s.setBsr len pos).outBytes = s.outBytes := rfl
@[simp] theorem State.setBsr_outRefusals (s : State) (len pos : Nat) : (s.setBsr len pos).outRefusals = s.outRefusals := rfl
@[simp] theorem State.setBsr_hostOps (s : State) (len pos : Nat) : (s.setBsr len pos).hostOps = s.hostOps := rfl
@[simp] theorem State.setBsr_hostReplies (s : State) (len pos : Nat) : (s.setBsr len pos).hostReplies = s.hostReplies := rfl

@[simp] theorem State.dropBlock_cmd (s : State) : s.dropBlock.cmd = s.cmd := rfl
@[simp] theorem State.dropBlock_a0 (s : State) : s.dropBlock.a0 = s.a0 := rfl
@[simp] theorem State.dropBlock_a1 (s : State) : s.dropBlock.a1 = s.a1 := rfl
@[simp] theorem State.dropBlock_a2 (s : State) : s.dropBlock.a2 = s.a2 := rfl
@[simp] theorem State.dropBlock_res (s : State) : s.dropBlock.res = s.res := rfl
@[simp] theorem State.dropBlock_fault (s : State) : s.dropBlock.fault = s.fault := rfl
@[simp] theorem State.dropBlock_finfo0 (s : State) : s.dropBlock.finfo0 = s.finfo0 := rfl
@[simp] theorem State.dropBlock_finfo1 (s : State) : s.dropBlock.finfo1 = s.finfo1 := rfl
@[simp] theorem State.dropBlock_ctrl (s : State) : s.dropBlock.ctrl = s.ctrl := rfl
@[simp] theorem State.dropBlock_crc (s : State) : s.dropBlock.crc = s.crc := rfl
@[simp] theorem State.dropBlock_zadler (s : State) : s.dropBlock.zadler = s.zadler := rfl
@[simp] theorem State.dropBlock_inCount (s : State) : s.dropBlock.inCount = s.inCount := rfl
@[simp] theorem State.dropBlock_outCount (s : State) : s.dropBlock.outCount = s.outCount := rfl
@[simp] theorem State.dropBlock_bsrBuf (s : State) : s.dropBlock.bsrBuf = s.bsrBuf := rfl
@[simp] theorem State.dropBlock_bsrLen (s : State) : s.dropBlock.bsrLen = s.bsrLen := rfl
@[simp] theorem State.dropBlock_bsrPos (s : State) : s.dropBlock.bsrPos = s.bsrLen := rfl
@[simp] theorem State.dropBlock_bsrTerm (s : State) : s.dropBlock.bsrTerm = s.bsrTerm := rfl
@[simp] theorem State.dropBlock_lzwState (s : State) : s.dropBlock.lzwState = s.lzwState := rfl
@[simp] theorem State.dropBlock_lzwMin (s : State) : s.dropBlock.lzwMin = s.lzwMin := rfl
@[simp] theorem State.dropBlock_lzwWidth (s : State) : s.dropBlock.lzwWidth = s.lzwWidth := rfl
@[simp] theorem State.dropBlock_lzwNext (s : State) : s.dropBlock.lzwNext = s.lzwNext := rfl
@[simp] theorem State.dropBlock_lzwPrev (s : State) : s.dropBlock.lzwPrev = s.lzwPrev := rfl
@[simp] theorem State.dropBlock_lzwPrevValid (s : State) : s.dropBlock.lzwPrevValid = s.lzwPrevValid := rfl
@[simp] theorem State.dropBlock_lzwBitbuf (s : State) : s.dropBlock.lzwBitbuf = s.lzwBitbuf := rfl
@[simp] theorem State.dropBlock_lzwNbits (s : State) : s.dropBlock.lzwNbits = s.lzwNbits := rfl
@[simp] theorem State.dropBlock_lzwPrefix (s : State) : s.dropBlock.lzwPrefix = s.lzwPrefix := rfl
@[simp] theorem State.dropBlock_lzwSuffix (s : State) : s.dropBlock.lzwSuffix = s.lzwSuffix := rfl
@[simp] theorem State.dropBlock_lzwPend (s : State) : s.dropBlock.lzwPend = s.lzwPend := rfl
@[simp] theorem State.dropBlock_buf (s : State) : s.dropBlock.buf = s.buf := rfl
@[simp] theorem State.dropBlock_bufBytes (s : State) : s.dropBlock.bufBytes = s.bufBytes := rfl
@[simp] theorem State.dropBlock_deflateChoice (s : State) : s.dropBlock.deflateChoice = s.deflateChoice := rfl
@[simp] theorem State.dropBlock_inBytes (s : State) : s.dropBlock.inBytes = s.inBytes := rfl
@[simp] theorem State.dropBlock_inEnd (s : State) : s.dropBlock.inEnd = s.inEnd := rfl
@[simp] theorem State.dropBlock_outBytes (s : State) : s.dropBlock.outBytes = s.outBytes := rfl
@[simp] theorem State.dropBlock_outRefusals (s : State) : s.dropBlock.outRefusals = s.outRefusals := rfl
@[simp] theorem State.dropBlock_hostOps (s : State) : s.dropBlock.hostOps = s.hostOps := rfl
@[simp] theorem State.dropBlock_hostReplies (s : State) : s.dropBlock.hostReplies = s.hostReplies := rfl

@[simp] theorem State.closeBsr_cmd (s : State) : s.closeBsr.cmd = s.cmd := rfl
@[simp] theorem State.closeBsr_a0 (s : State) : s.closeBsr.a0 = s.a0 := rfl
@[simp] theorem State.closeBsr_a1 (s : State) : s.closeBsr.a1 = s.a1 := rfl
@[simp] theorem State.closeBsr_a2 (s : State) : s.closeBsr.a2 = s.a2 := rfl
@[simp] theorem State.closeBsr_res (s : State) : s.closeBsr.res = s.res := rfl
@[simp] theorem State.closeBsr_fault (s : State) : s.closeBsr.fault = s.fault := rfl
@[simp] theorem State.closeBsr_finfo0 (s : State) : s.closeBsr.finfo0 = s.finfo0 := rfl
@[simp] theorem State.closeBsr_finfo1 (s : State) : s.closeBsr.finfo1 = s.finfo1 := rfl
@[simp] theorem State.closeBsr_ctrl (s : State) : s.closeBsr.ctrl = s.ctrl := rfl
@[simp] theorem State.closeBsr_crc (s : State) : s.closeBsr.crc = s.crc := rfl
@[simp] theorem State.closeBsr_zadler (s : State) : s.closeBsr.zadler = s.zadler := rfl
@[simp] theorem State.closeBsr_inCount (s : State) : s.closeBsr.inCount = s.inCount := rfl
@[simp] theorem State.closeBsr_outCount (s : State) : s.closeBsr.outCount = s.outCount := rfl
@[simp] theorem State.closeBsr_bsrBuf (s : State) : s.closeBsr.bsrBuf = s.bsrBuf := rfl
@[simp] theorem State.closeBsr_bsrLen (s : State) : s.closeBsr.bsrLen = s.bsrLen := rfl
@[simp] theorem State.closeBsr_bsrPos (s : State) : s.closeBsr.bsrPos = s.bsrPos := rfl
@[simp] theorem State.closeBsr_bsrTerm (s : State) : s.closeBsr.bsrTerm = true := rfl
@[simp] theorem State.closeBsr_lzwState (s : State) : s.closeBsr.lzwState = s.lzwState := rfl
@[simp] theorem State.closeBsr_lzwMin (s : State) : s.closeBsr.lzwMin = s.lzwMin := rfl
@[simp] theorem State.closeBsr_lzwWidth (s : State) : s.closeBsr.lzwWidth = s.lzwWidth := rfl
@[simp] theorem State.closeBsr_lzwNext (s : State) : s.closeBsr.lzwNext = s.lzwNext := rfl
@[simp] theorem State.closeBsr_lzwPrev (s : State) : s.closeBsr.lzwPrev = s.lzwPrev := rfl
@[simp] theorem State.closeBsr_lzwPrevValid (s : State) : s.closeBsr.lzwPrevValid = s.lzwPrevValid := rfl
@[simp] theorem State.closeBsr_lzwBitbuf (s : State) : s.closeBsr.lzwBitbuf = s.lzwBitbuf := rfl
@[simp] theorem State.closeBsr_lzwNbits (s : State) : s.closeBsr.lzwNbits = s.lzwNbits := rfl
@[simp] theorem State.closeBsr_lzwPrefix (s : State) : s.closeBsr.lzwPrefix = s.lzwPrefix := rfl
@[simp] theorem State.closeBsr_lzwSuffix (s : State) : s.closeBsr.lzwSuffix = s.lzwSuffix := rfl
@[simp] theorem State.closeBsr_lzwPend (s : State) : s.closeBsr.lzwPend = s.lzwPend := rfl
@[simp] theorem State.closeBsr_buf (s : State) : s.closeBsr.buf = s.buf := rfl
@[simp] theorem State.closeBsr_bufBytes (s : State) : s.closeBsr.bufBytes = s.bufBytes := rfl
@[simp] theorem State.closeBsr_deflateChoice (s : State) : s.closeBsr.deflateChoice = s.deflateChoice := rfl
@[simp] theorem State.closeBsr_inBytes (s : State) : s.closeBsr.inBytes = s.inBytes := rfl
@[simp] theorem State.closeBsr_inEnd (s : State) : s.closeBsr.inEnd = s.inEnd := rfl
@[simp] theorem State.closeBsr_outBytes (s : State) : s.closeBsr.outBytes = s.outBytes := rfl
@[simp] theorem State.closeBsr_outRefusals (s : State) : s.closeBsr.outRefusals = s.outRefusals := rfl
@[simp] theorem State.closeBsr_hostOps (s : State) : s.closeBsr.hostOps = s.hostOps := rfl
@[simp] theorem State.closeBsr_hostReplies (s : State) : s.closeBsr.hostReplies = s.hostReplies := rfl

@[simp] theorem State.openBsr_cmd (s : State) : s.openBsr.cmd = s.cmd := rfl
@[simp] theorem State.openBsr_a0 (s : State) : s.openBsr.a0 = s.a0 := rfl
@[simp] theorem State.openBsr_a1 (s : State) : s.openBsr.a1 = s.a1 := rfl
@[simp] theorem State.openBsr_a2 (s : State) : s.openBsr.a2 = s.a2 := rfl
@[simp] theorem State.openBsr_res (s : State) : s.openBsr.res = s.res := rfl
@[simp] theorem State.openBsr_fault (s : State) : s.openBsr.fault = s.fault := rfl
@[simp] theorem State.openBsr_finfo0 (s : State) : s.openBsr.finfo0 = s.finfo0 := rfl
@[simp] theorem State.openBsr_finfo1 (s : State) : s.openBsr.finfo1 = s.finfo1 := rfl
@[simp] theorem State.openBsr_ctrl (s : State) : s.openBsr.ctrl = s.ctrl := rfl
@[simp] theorem State.openBsr_crc (s : State) : s.openBsr.crc = s.crc := rfl
@[simp] theorem State.openBsr_zadler (s : State) : s.openBsr.zadler = s.zadler := rfl
@[simp] theorem State.openBsr_inCount (s : State) : s.openBsr.inCount = s.inCount := rfl
@[simp] theorem State.openBsr_outCount (s : State) : s.openBsr.outCount = s.outCount := rfl
@[simp] theorem State.openBsr_bsrBuf (s : State) : s.openBsr.bsrBuf = s.bsrBuf := rfl
@[simp] theorem State.openBsr_bsrLen (s : State) : s.openBsr.bsrLen = 0 := rfl
@[simp] theorem State.openBsr_bsrPos (s : State) : s.openBsr.bsrPos = 0 := rfl
@[simp] theorem State.openBsr_bsrTerm (s : State) : s.openBsr.bsrTerm = false := rfl
@[simp] theorem State.openBsr_lzwState (s : State) : s.openBsr.lzwState = s.lzwState := rfl
@[simp] theorem State.openBsr_lzwMin (s : State) : s.openBsr.lzwMin = s.lzwMin := rfl
@[simp] theorem State.openBsr_lzwWidth (s : State) : s.openBsr.lzwWidth = s.lzwWidth := rfl
@[simp] theorem State.openBsr_lzwNext (s : State) : s.openBsr.lzwNext = s.lzwNext := rfl
@[simp] theorem State.openBsr_lzwPrev (s : State) : s.openBsr.lzwPrev = s.lzwPrev := rfl
@[simp] theorem State.openBsr_lzwPrevValid (s : State) : s.openBsr.lzwPrevValid = s.lzwPrevValid := rfl
@[simp] theorem State.openBsr_lzwBitbuf (s : State) : s.openBsr.lzwBitbuf = s.lzwBitbuf := rfl
@[simp] theorem State.openBsr_lzwNbits (s : State) : s.openBsr.lzwNbits = s.lzwNbits := rfl
@[simp] theorem State.openBsr_lzwPrefix (s : State) : s.openBsr.lzwPrefix = s.lzwPrefix := rfl
@[simp] theorem State.openBsr_lzwSuffix (s : State) : s.openBsr.lzwSuffix = s.lzwSuffix := rfl
@[simp] theorem State.openBsr_lzwPend (s : State) : s.openBsr.lzwPend = s.lzwPend := rfl
@[simp] theorem State.openBsr_buf (s : State) : s.openBsr.buf = s.buf := rfl
@[simp] theorem State.openBsr_bufBytes (s : State) : s.openBsr.bufBytes = s.bufBytes := rfl
@[simp] theorem State.openBsr_deflateChoice (s : State) : s.openBsr.deflateChoice = s.deflateChoice := rfl
@[simp] theorem State.openBsr_inBytes (s : State) : s.openBsr.inBytes = s.inBytes := rfl
@[simp] theorem State.openBsr_inEnd (s : State) : s.openBsr.inEnd = s.inEnd := rfl
@[simp] theorem State.openBsr_outBytes (s : State) : s.openBsr.outBytes = s.outBytes := rfl
@[simp] theorem State.openBsr_outRefusals (s : State) : s.openBsr.outRefusals = s.outRefusals := rfl
@[simp] theorem State.openBsr_hostOps (s : State) : s.openBsr.hostOps = s.hostOps := rfl
@[simp] theorem State.openBsr_hostReplies (s : State) : s.openBsr.hostReplies = s.hostReplies := rfl

@[simp] theorem State.copyBlock_cmd (s : State) (dst k : Nat) : (s.copyBlock dst k).cmd = s.cmd := rfl
@[simp] theorem State.copyBlock_a0 (s : State) (dst k : Nat) : (s.copyBlock dst k).a0 = s.a0 := rfl
@[simp] theorem State.copyBlock_a1 (s : State) (dst k : Nat) : (s.copyBlock dst k).a1 = s.a1 := rfl
@[simp] theorem State.copyBlock_a2 (s : State) (dst k : Nat) : (s.copyBlock dst k).a2 = s.a2 := rfl
@[simp] theorem State.copyBlock_res (s : State) (dst k : Nat) : (s.copyBlock dst k).res = s.res := rfl
@[simp] theorem State.copyBlock_fault (s : State) (dst k : Nat) : (s.copyBlock dst k).fault = s.fault := rfl
@[simp] theorem State.copyBlock_finfo0 (s : State) (dst k : Nat) : (s.copyBlock dst k).finfo0 = s.finfo0 := rfl
@[simp] theorem State.copyBlock_finfo1 (s : State) (dst k : Nat) : (s.copyBlock dst k).finfo1 = s.finfo1 := rfl
@[simp] theorem State.copyBlock_ctrl (s : State) (dst k : Nat) : (s.copyBlock dst k).ctrl = s.ctrl := rfl
@[simp] theorem State.copyBlock_crc (s : State) (dst k : Nat) : (s.copyBlock dst k).crc = s.crc := rfl
@[simp] theorem State.copyBlock_zadler (s : State) (dst k : Nat) : (s.copyBlock dst k).zadler = s.zadler := rfl
@[simp] theorem State.copyBlock_inCount (s : State) (dst k : Nat) : (s.copyBlock dst k).inCount = s.inCount := rfl
@[simp] theorem State.copyBlock_outCount (s : State) (dst k : Nat) : (s.copyBlock dst k).outCount = s.outCount := rfl
@[simp] theorem State.copyBlock_bsrBuf (s : State) (dst k : Nat) : (s.copyBlock dst k).bsrBuf = s.bsrBuf := rfl
@[simp] theorem State.copyBlock_bsrLen (s : State) (dst k : Nat) : (s.copyBlock dst k).bsrLen = s.bsrLen := rfl
@[simp] theorem State.copyBlock_bsrPos (s : State) (dst k : Nat) : (s.copyBlock dst k).bsrPos = s.bsrPos + k := rfl
@[simp] theorem State.copyBlock_bsrTerm (s : State) (dst k : Nat) : (s.copyBlock dst k).bsrTerm = s.bsrTerm := rfl
@[simp] theorem State.copyBlock_lzwState (s : State) (dst k : Nat) : (s.copyBlock dst k).lzwState = s.lzwState := rfl
@[simp] theorem State.copyBlock_lzwMin (s : State) (dst k : Nat) : (s.copyBlock dst k).lzwMin = s.lzwMin := rfl
@[simp] theorem State.copyBlock_lzwWidth (s : State) (dst k : Nat) : (s.copyBlock dst k).lzwWidth = s.lzwWidth := rfl
@[simp] theorem State.copyBlock_lzwNext (s : State) (dst k : Nat) : (s.copyBlock dst k).lzwNext = s.lzwNext := rfl
@[simp] theorem State.copyBlock_lzwPrev (s : State) (dst k : Nat) : (s.copyBlock dst k).lzwPrev = s.lzwPrev := rfl
@[simp] theorem State.copyBlock_lzwPrevValid (s : State) (dst k : Nat) : (s.copyBlock dst k).lzwPrevValid = s.lzwPrevValid := rfl
@[simp] theorem State.copyBlock_lzwBitbuf (s : State) (dst k : Nat) : (s.copyBlock dst k).lzwBitbuf = s.lzwBitbuf := rfl
@[simp] theorem State.copyBlock_lzwNbits (s : State) (dst k : Nat) : (s.copyBlock dst k).lzwNbits = s.lzwNbits := rfl
@[simp] theorem State.copyBlock_lzwPrefix (s : State) (dst k : Nat) : (s.copyBlock dst k).lzwPrefix = s.lzwPrefix := rfl
@[simp] theorem State.copyBlock_lzwSuffix (s : State) (dst k : Nat) : (s.copyBlock dst k).lzwSuffix = s.lzwSuffix := rfl
@[simp] theorem State.copyBlock_lzwPend (s : State) (dst k : Nat) : (s.copyBlock dst k).lzwPend = s.lzwPend := rfl
@[simp] theorem State.copyBlock_buf (s : State) (dst k : Nat) : (s.copyBlock dst k).buf = Memory.writeList s.buf dst (s.bsrSlice k) := rfl
@[simp] theorem State.copyBlock_bufBytes (s : State) (dst k : Nat) : (s.copyBlock dst k).bufBytes = s.bufBytes := rfl
@[simp] theorem State.copyBlock_deflateChoice (s : State) (dst k : Nat) : (s.copyBlock dst k).deflateChoice = s.deflateChoice := rfl
@[simp] theorem State.copyBlock_inBytes (s : State) (dst k : Nat) : (s.copyBlock dst k).inBytes = s.inBytes := rfl
@[simp] theorem State.copyBlock_inEnd (s : State) (dst k : Nat) : (s.copyBlock dst k).inEnd = s.inEnd := rfl
@[simp] theorem State.copyBlock_outBytes (s : State) (dst k : Nat) : (s.copyBlock dst k).outBytes = s.outBytes := rfl
@[simp] theorem State.copyBlock_outRefusals (s : State) (dst k : Nat) : (s.copyBlock dst k).outRefusals = s.outRefusals := rfl
@[simp] theorem State.copyBlock_hostOps (s : State) (dst k : Nat) : (s.copyBlock dst k).hostOps = s.hostOps := rfl
@[simp] theorem State.copyBlock_hostReplies (s : State) (dst k : Nat) : (s.copyBlock dst k).hostReplies = s.hostReplies := rfl

@[simp] theorem State.lzwReset_cmd (s : State) : s.lzwReset.cmd = s.cmd := rfl
@[simp] theorem State.lzwReset_a0 (s : State) : s.lzwReset.a0 = s.a0 := rfl
@[simp] theorem State.lzwReset_a1 (s : State) : s.lzwReset.a1 = s.a1 := rfl
@[simp] theorem State.lzwReset_a2 (s : State) : s.lzwReset.a2 = s.a2 := rfl
@[simp] theorem State.lzwReset_res (s : State) : s.lzwReset.res = s.res := rfl
@[simp] theorem State.lzwReset_fault (s : State) : s.lzwReset.fault = s.fault := rfl
@[simp] theorem State.lzwReset_finfo0 (s : State) : s.lzwReset.finfo0 = s.finfo0 := rfl
@[simp] theorem State.lzwReset_finfo1 (s : State) : s.lzwReset.finfo1 = s.finfo1 := rfl
@[simp] theorem State.lzwReset_ctrl (s : State) : s.lzwReset.ctrl = s.ctrl := rfl
@[simp] theorem State.lzwReset_crc (s : State) : s.lzwReset.crc = s.crc := rfl
@[simp] theorem State.lzwReset_zadler (s : State) : s.lzwReset.zadler = s.zadler := rfl
@[simp] theorem State.lzwReset_inCount (s : State) : s.lzwReset.inCount = s.inCount := rfl
@[simp] theorem State.lzwReset_outCount (s : State) : s.lzwReset.outCount = s.outCount := rfl
@[simp] theorem State.lzwReset_bsrBuf (s : State) : s.lzwReset.bsrBuf = s.bsrBuf := rfl
@[simp] theorem State.lzwReset_bsrLen (s : State) : s.lzwReset.bsrLen = s.bsrLen := rfl
@[simp] theorem State.lzwReset_bsrPos (s : State) : s.lzwReset.bsrPos = s.bsrPos := rfl
@[simp] theorem State.lzwReset_bsrTerm (s : State) : s.lzwReset.bsrTerm = s.bsrTerm := rfl
@[simp] theorem State.lzwReset_lzwState (s : State) : s.lzwReset.lzwState = s.lzwState := rfl
@[simp] theorem State.lzwReset_lzwMin (s : State) : s.lzwReset.lzwMin = s.lzwMin := rfl
@[simp] theorem State.lzwReset_lzwWidth (s : State) : s.lzwReset.lzwWidth = s.lzwMin + 1 := rfl
@[simp] theorem State.lzwReset_lzwNext (s : State) : s.lzwReset.lzwNext = s.clearCode + 2 := rfl
@[simp] theorem State.lzwReset_lzwPrev (s : State) : s.lzwReset.lzwPrev = 0 := rfl
@[simp] theorem State.lzwReset_lzwPrevValid (s : State) : s.lzwReset.lzwPrevValid = false := rfl
@[simp] theorem State.lzwReset_lzwBitbuf (s : State) : s.lzwReset.lzwBitbuf = s.lzwBitbuf := rfl
@[simp] theorem State.lzwReset_lzwNbits (s : State) : s.lzwReset.lzwNbits = s.lzwNbits := rfl
@[simp] theorem State.lzwReset_lzwPrefix (s : State) : s.lzwReset.lzwPrefix = s.lzwPrefix := rfl
@[simp] theorem State.lzwReset_lzwSuffix (s : State) : s.lzwReset.lzwSuffix = s.lzwSuffix := rfl
@[simp] theorem State.lzwReset_lzwPend (s : State) : s.lzwReset.lzwPend = s.lzwPend := rfl
@[simp] theorem State.lzwReset_buf (s : State) : s.lzwReset.buf = s.buf := rfl
@[simp] theorem State.lzwReset_bufBytes (s : State) : s.lzwReset.bufBytes = s.bufBytes := rfl
@[simp] theorem State.lzwReset_deflateChoice (s : State) : s.lzwReset.deflateChoice = s.deflateChoice := rfl
@[simp] theorem State.lzwReset_inBytes (s : State) : s.lzwReset.inBytes = s.inBytes := rfl
@[simp] theorem State.lzwReset_inEnd (s : State) : s.lzwReset.inEnd = s.inEnd := rfl
@[simp] theorem State.lzwReset_outBytes (s : State) : s.lzwReset.outBytes = s.outBytes := rfl
@[simp] theorem State.lzwReset_outRefusals (s : State) : s.lzwReset.outRefusals = s.outRefusals := rfl
@[simp] theorem State.lzwReset_hostOps (s : State) : s.lzwReset.hostOps = s.hostOps := rfl
@[simp] theorem State.lzwReset_hostReplies (s : State) : s.lzwReset.hostReplies = s.hostReplies := rfl

@[simp] theorem State.openLzw_cmd (s : State) (m : Nat) : (s.openLzw m).cmd = s.cmd := rfl
@[simp] theorem State.openLzw_a0 (s : State) (m : Nat) : (s.openLzw m).a0 = s.a0 := rfl
@[simp] theorem State.openLzw_a1 (s : State) (m : Nat) : (s.openLzw m).a1 = s.a1 := rfl
@[simp] theorem State.openLzw_a2 (s : State) (m : Nat) : (s.openLzw m).a2 = s.a2 := rfl
@[simp] theorem State.openLzw_res (s : State) (m : Nat) : (s.openLzw m).res = s.res := rfl
@[simp] theorem State.openLzw_fault (s : State) (m : Nat) : (s.openLzw m).fault = s.fault := rfl
@[simp] theorem State.openLzw_finfo0 (s : State) (m : Nat) : (s.openLzw m).finfo0 = s.finfo0 := rfl
@[simp] theorem State.openLzw_finfo1 (s : State) (m : Nat) : (s.openLzw m).finfo1 = s.finfo1 := rfl
@[simp] theorem State.openLzw_ctrl (s : State) (m : Nat) : (s.openLzw m).ctrl = s.ctrl := rfl
@[simp] theorem State.openLzw_crc (s : State) (m : Nat) : (s.openLzw m).crc = s.crc := rfl
@[simp] theorem State.openLzw_zadler (s : State) (m : Nat) : (s.openLzw m).zadler = s.zadler := rfl
@[simp] theorem State.openLzw_inCount (s : State) (m : Nat) : (s.openLzw m).inCount = s.inCount := rfl
@[simp] theorem State.openLzw_outCount (s : State) (m : Nat) : (s.openLzw m).outCount = s.outCount := rfl
@[simp] theorem State.openLzw_bsrBuf (s : State) (m : Nat) : (s.openLzw m).bsrBuf = s.bsrBuf := rfl
@[simp] theorem State.openLzw_bsrLen (s : State) (m : Nat) : (s.openLzw m).bsrLen = 0 := rfl
@[simp] theorem State.openLzw_bsrPos (s : State) (m : Nat) : (s.openLzw m).bsrPos = 0 := rfl
@[simp] theorem State.openLzw_bsrTerm (s : State) (m : Nat) : (s.openLzw m).bsrTerm = false := rfl
@[simp] theorem State.openLzw_lzwState (s : State) (m : Nat) : (s.openLzw m).lzwState = .active := rfl
@[simp] theorem State.openLzw_lzwMin (s : State) (m : Nat) : (s.openLzw m).lzwMin = m := rfl
@[simp] theorem State.openLzw_lzwWidth (s : State) (m : Nat) : (s.openLzw m).lzwWidth = m + 1 := rfl
@[simp] theorem State.openLzw_lzwNext (s : State) (m : Nat) : (s.openLzw m).lzwNext = (1 <<< m) + 2 := rfl
@[simp] theorem State.openLzw_lzwPrev (s : State) (m : Nat) : (s.openLzw m).lzwPrev = 0 := rfl
@[simp] theorem State.openLzw_lzwPrevValid (s : State) (m : Nat) : (s.openLzw m).lzwPrevValid = false := rfl
@[simp] theorem State.openLzw_lzwBitbuf (s : State) (m : Nat) : (s.openLzw m).lzwBitbuf = 0 := rfl
@[simp] theorem State.openLzw_lzwNbits (s : State) (m : Nat) : (s.openLzw m).lzwNbits = 0 := rfl
@[simp] theorem State.openLzw_lzwPrefix (s : State) (m : Nat) : (s.openLzw m).lzwPrefix = s.lzwPrefix := rfl
@[simp] theorem State.openLzw_lzwSuffix (s : State) (m : Nat) : (s.openLzw m).lzwSuffix = s.lzwSuffix := rfl
@[simp] theorem State.openLzw_lzwPend (s : State) (m : Nat) : (s.openLzw m).lzwPend = [] := rfl
@[simp] theorem State.openLzw_buf (s : State) (m : Nat) : (s.openLzw m).buf = s.buf := rfl
@[simp] theorem State.openLzw_bufBytes (s : State) (m : Nat) : (s.openLzw m).bufBytes = s.bufBytes := rfl
@[simp] theorem State.openLzw_deflateChoice (s : State) (m : Nat) : (s.openLzw m).deflateChoice = s.deflateChoice := rfl
@[simp] theorem State.openLzw_inBytes (s : State) (m : Nat) : (s.openLzw m).inBytes = s.inBytes := rfl
@[simp] theorem State.openLzw_inEnd (s : State) (m : Nat) : (s.openLzw m).inEnd = s.inEnd := rfl
@[simp] theorem State.openLzw_outBytes (s : State) (m : Nat) : (s.openLzw m).outBytes = s.outBytes := rfl
@[simp] theorem State.openLzw_outRefusals (s : State) (m : Nat) : (s.openLzw m).outRefusals = s.outRefusals := rfl
@[simp] theorem State.openLzw_hostOps (s : State) (m : Nat) : (s.openLzw m).hostOps = s.hostOps := rfl
@[simp] theorem State.openLzw_hostReplies (s : State) (m : Nat) : (s.openLzw m).hostReplies = s.hostReplies := rfl

@[simp] theorem State.finishLzw_cmd (s : State) : s.finishLzw.cmd = s.cmd := rfl
@[simp] theorem State.finishLzw_a0 (s : State) : s.finishLzw.a0 = s.a0 := rfl
@[simp] theorem State.finishLzw_a1 (s : State) : s.finishLzw.a1 = s.a1 := rfl
@[simp] theorem State.finishLzw_a2 (s : State) : s.finishLzw.a2 = s.a2 := rfl
@[simp] theorem State.finishLzw_res (s : State) : s.finishLzw.res = s.res := rfl
@[simp] theorem State.finishLzw_fault (s : State) : s.finishLzw.fault = s.fault := rfl
@[simp] theorem State.finishLzw_finfo0 (s : State) : s.finishLzw.finfo0 = s.finfo0 := rfl
@[simp] theorem State.finishLzw_finfo1 (s : State) : s.finishLzw.finfo1 = s.finfo1 := rfl
@[simp] theorem State.finishLzw_ctrl (s : State) : s.finishLzw.ctrl = s.ctrl := rfl
@[simp] theorem State.finishLzw_crc (s : State) : s.finishLzw.crc = s.crc := rfl
@[simp] theorem State.finishLzw_zadler (s : State) : s.finishLzw.zadler = s.zadler := rfl
@[simp] theorem State.finishLzw_inCount (s : State) : s.finishLzw.inCount = s.inCount := rfl
@[simp] theorem State.finishLzw_outCount (s : State) : s.finishLzw.outCount = s.outCount := rfl
@[simp] theorem State.finishLzw_bsrBuf (s : State) : s.finishLzw.bsrBuf = s.bsrBuf := rfl
@[simp] theorem State.finishLzw_bsrLen (s : State) : s.finishLzw.bsrLen = s.bsrLen := rfl
@[simp] theorem State.finishLzw_bsrPos (s : State) : s.finishLzw.bsrPos = s.bsrPos := rfl
@[simp] theorem State.finishLzw_bsrTerm (s : State) : s.finishLzw.bsrTerm = s.bsrTerm := rfl
@[simp] theorem State.finishLzw_lzwState (s : State) : s.finishLzw.lzwState = .done := rfl
@[simp] theorem State.finishLzw_lzwMin (s : State) : s.finishLzw.lzwMin = s.lzwMin := rfl
@[simp] theorem State.finishLzw_lzwWidth (s : State) : s.finishLzw.lzwWidth = s.lzwWidth := rfl
@[simp] theorem State.finishLzw_lzwNext (s : State) : s.finishLzw.lzwNext = s.lzwNext := rfl
@[simp] theorem State.finishLzw_lzwPrev (s : State) : s.finishLzw.lzwPrev = s.lzwPrev := rfl
@[simp] theorem State.finishLzw_lzwPrevValid (s : State) : s.finishLzw.lzwPrevValid = s.lzwPrevValid := rfl
@[simp] theorem State.finishLzw_lzwBitbuf (s : State) : s.finishLzw.lzwBitbuf = s.lzwBitbuf := rfl
@[simp] theorem State.finishLzw_lzwNbits (s : State) : s.finishLzw.lzwNbits = s.lzwNbits := rfl
@[simp] theorem State.finishLzw_lzwPrefix (s : State) : s.finishLzw.lzwPrefix = s.lzwPrefix := rfl
@[simp] theorem State.finishLzw_lzwSuffix (s : State) : s.finishLzw.lzwSuffix = s.lzwSuffix := rfl
@[simp] theorem State.finishLzw_lzwPend (s : State) : s.finishLzw.lzwPend = s.lzwPend := rfl
@[simp] theorem State.finishLzw_buf (s : State) : s.finishLzw.buf = s.buf := rfl
@[simp] theorem State.finishLzw_bufBytes (s : State) : s.finishLzw.bufBytes = s.bufBytes := rfl
@[simp] theorem State.finishLzw_deflateChoice (s : State) : s.finishLzw.deflateChoice = s.deflateChoice := rfl
@[simp] theorem State.finishLzw_inBytes (s : State) : s.finishLzw.inBytes = s.inBytes := rfl
@[simp] theorem State.finishLzw_inEnd (s : State) : s.finishLzw.inEnd = s.inEnd := rfl
@[simp] theorem State.finishLzw_outBytes (s : State) : s.finishLzw.outBytes = s.outBytes := rfl
@[simp] theorem State.finishLzw_outRefusals (s : State) : s.finishLzw.outRefusals = s.outRefusals := rfl
@[simp] theorem State.finishLzw_hostOps (s : State) : s.finishLzw.hostOps = s.hostOps := rfl
@[simp] theorem State.finishLzw_hostReplies (s : State) : s.finishLzw.hostReplies = s.hostReplies := rfl

@[simp] theorem State.setPrev_cmd (s : State) (c : Nat) : (s.setPrev c).cmd = s.cmd := rfl
@[simp] theorem State.setPrev_a0 (s : State) (c : Nat) : (s.setPrev c).a0 = s.a0 := rfl
@[simp] theorem State.setPrev_a1 (s : State) (c : Nat) : (s.setPrev c).a1 = s.a1 := rfl
@[simp] theorem State.setPrev_a2 (s : State) (c : Nat) : (s.setPrev c).a2 = s.a2 := rfl
@[simp] theorem State.setPrev_res (s : State) (c : Nat) : (s.setPrev c).res = s.res := rfl
@[simp] theorem State.setPrev_fault (s : State) (c : Nat) : (s.setPrev c).fault = s.fault := rfl
@[simp] theorem State.setPrev_finfo0 (s : State) (c : Nat) : (s.setPrev c).finfo0 = s.finfo0 := rfl
@[simp] theorem State.setPrev_finfo1 (s : State) (c : Nat) : (s.setPrev c).finfo1 = s.finfo1 := rfl
@[simp] theorem State.setPrev_ctrl (s : State) (c : Nat) : (s.setPrev c).ctrl = s.ctrl := rfl
@[simp] theorem State.setPrev_crc (s : State) (c : Nat) : (s.setPrev c).crc = s.crc := rfl
@[simp] theorem State.setPrev_zadler (s : State) (c : Nat) : (s.setPrev c).zadler = s.zadler := rfl
@[simp] theorem State.setPrev_inCount (s : State) (c : Nat) : (s.setPrev c).inCount = s.inCount := rfl
@[simp] theorem State.setPrev_outCount (s : State) (c : Nat) : (s.setPrev c).outCount = s.outCount := rfl
@[simp] theorem State.setPrev_bsrBuf (s : State) (c : Nat) : (s.setPrev c).bsrBuf = s.bsrBuf := rfl
@[simp] theorem State.setPrev_bsrLen (s : State) (c : Nat) : (s.setPrev c).bsrLen = s.bsrLen := rfl
@[simp] theorem State.setPrev_bsrPos (s : State) (c : Nat) : (s.setPrev c).bsrPos = s.bsrPos := rfl
@[simp] theorem State.setPrev_bsrTerm (s : State) (c : Nat) : (s.setPrev c).bsrTerm = s.bsrTerm := rfl
@[simp] theorem State.setPrev_lzwState (s : State) (c : Nat) : (s.setPrev c).lzwState = s.lzwState := rfl
@[simp] theorem State.setPrev_lzwMin (s : State) (c : Nat) : (s.setPrev c).lzwMin = s.lzwMin := rfl
@[simp] theorem State.setPrev_lzwWidth (s : State) (c : Nat) : (s.setPrev c).lzwWidth = s.lzwWidth := rfl
@[simp] theorem State.setPrev_lzwNext (s : State) (c : Nat) : (s.setPrev c).lzwNext = s.lzwNext := rfl
@[simp] theorem State.setPrev_lzwPrev (s : State) (c : Nat) : (s.setPrev c).lzwPrev = c := rfl
@[simp] theorem State.setPrev_lzwPrevValid (s : State) (c : Nat) : (s.setPrev c).lzwPrevValid = true := rfl
@[simp] theorem State.setPrev_lzwBitbuf (s : State) (c : Nat) : (s.setPrev c).lzwBitbuf = s.lzwBitbuf := rfl
@[simp] theorem State.setPrev_lzwNbits (s : State) (c : Nat) : (s.setPrev c).lzwNbits = s.lzwNbits := rfl
@[simp] theorem State.setPrev_lzwPrefix (s : State) (c : Nat) : (s.setPrev c).lzwPrefix = s.lzwPrefix := rfl
@[simp] theorem State.setPrev_lzwSuffix (s : State) (c : Nat) : (s.setPrev c).lzwSuffix = s.lzwSuffix := rfl
@[simp] theorem State.setPrev_lzwPend (s : State) (c : Nat) : (s.setPrev c).lzwPend = s.lzwPend := rfl
@[simp] theorem State.setPrev_buf (s : State) (c : Nat) : (s.setPrev c).buf = s.buf := rfl
@[simp] theorem State.setPrev_bufBytes (s : State) (c : Nat) : (s.setPrev c).bufBytes = s.bufBytes := rfl
@[simp] theorem State.setPrev_deflateChoice (s : State) (c : Nat) : (s.setPrev c).deflateChoice = s.deflateChoice := rfl
@[simp] theorem State.setPrev_inBytes (s : State) (c : Nat) : (s.setPrev c).inBytes = s.inBytes := rfl
@[simp] theorem State.setPrev_inEnd (s : State) (c : Nat) : (s.setPrev c).inEnd = s.inEnd := rfl
@[simp] theorem State.setPrev_outBytes (s : State) (c : Nat) : (s.setPrev c).outBytes = s.outBytes := rfl
@[simp] theorem State.setPrev_outRefusals (s : State) (c : Nat) : (s.setPrev c).outRefusals = s.outRefusals := rfl
@[simp] theorem State.setPrev_hostOps (s : State) (c : Nat) : (s.setPrev c).hostOps = s.hostOps := rfl
@[simp] theorem State.setPrev_hostReplies (s : State) (c : Nat) : (s.setPrev c).hostReplies = s.hostReplies := rfl

@[simp] theorem State.pushBits_cmd (s : State) (b : Byte) : (s.pushBits b).cmd = s.cmd := rfl
@[simp] theorem State.pushBits_a0 (s : State) (b : Byte) : (s.pushBits b).a0 = s.a0 := rfl
@[simp] theorem State.pushBits_a1 (s : State) (b : Byte) : (s.pushBits b).a1 = s.a1 := rfl
@[simp] theorem State.pushBits_a2 (s : State) (b : Byte) : (s.pushBits b).a2 = s.a2 := rfl
@[simp] theorem State.pushBits_res (s : State) (b : Byte) : (s.pushBits b).res = s.res := rfl
@[simp] theorem State.pushBits_fault (s : State) (b : Byte) : (s.pushBits b).fault = s.fault := rfl
@[simp] theorem State.pushBits_finfo0 (s : State) (b : Byte) : (s.pushBits b).finfo0 = s.finfo0 := rfl
@[simp] theorem State.pushBits_finfo1 (s : State) (b : Byte) : (s.pushBits b).finfo1 = s.finfo1 := rfl
@[simp] theorem State.pushBits_ctrl (s : State) (b : Byte) : (s.pushBits b).ctrl = s.ctrl := rfl
@[simp] theorem State.pushBits_crc (s : State) (b : Byte) : (s.pushBits b).crc = s.crc := rfl
@[simp] theorem State.pushBits_zadler (s : State) (b : Byte) : (s.pushBits b).zadler = s.zadler := rfl
@[simp] theorem State.pushBits_inCount (s : State) (b : Byte) : (s.pushBits b).inCount = s.inCount := rfl
@[simp] theorem State.pushBits_outCount (s : State) (b : Byte) : (s.pushBits b).outCount = s.outCount := rfl
@[simp] theorem State.pushBits_bsrBuf (s : State) (b : Byte) : (s.pushBits b).bsrBuf = s.bsrBuf := rfl
@[simp] theorem State.pushBits_bsrLen (s : State) (b : Byte) : (s.pushBits b).bsrLen = s.bsrLen := rfl
@[simp] theorem State.pushBits_bsrPos (s : State) (b : Byte) : (s.pushBits b).bsrPos = s.bsrPos := rfl
@[simp] theorem State.pushBits_bsrTerm (s : State) (b : Byte) : (s.pushBits b).bsrTerm = s.bsrTerm := rfl
@[simp] theorem State.pushBits_lzwState (s : State) (b : Byte) : (s.pushBits b).lzwState = s.lzwState := rfl
@[simp] theorem State.pushBits_lzwMin (s : State) (b : Byte) : (s.pushBits b).lzwMin = s.lzwMin := rfl
@[simp] theorem State.pushBits_lzwWidth (s : State) (b : Byte) : (s.pushBits b).lzwWidth = s.lzwWidth := rfl
@[simp] theorem State.pushBits_lzwNext (s : State) (b : Byte) : (s.pushBits b).lzwNext = s.lzwNext := rfl
@[simp] theorem State.pushBits_lzwPrev (s : State) (b : Byte) : (s.pushBits b).lzwPrev = s.lzwPrev := rfl
@[simp] theorem State.pushBits_lzwPrevValid (s : State) (b : Byte) : (s.pushBits b).lzwPrevValid = s.lzwPrevValid := rfl
@[simp] theorem State.pushBits_lzwBitbuf (s : State) (b : Byte) : (s.pushBits b).lzwBitbuf = s.lzwBitbuf ||| (b.setWidth 32 <<< s.lzwNbits) := rfl
@[simp] theorem State.pushBits_lzwNbits (s : State) (b : Byte) : (s.pushBits b).lzwNbits = s.lzwNbits + 8 := rfl
@[simp] theorem State.pushBits_lzwPrefix (s : State) (b : Byte) : (s.pushBits b).lzwPrefix = s.lzwPrefix := rfl
@[simp] theorem State.pushBits_lzwSuffix (s : State) (b : Byte) : (s.pushBits b).lzwSuffix = s.lzwSuffix := rfl
@[simp] theorem State.pushBits_lzwPend (s : State) (b : Byte) : (s.pushBits b).lzwPend = s.lzwPend := rfl
@[simp] theorem State.pushBits_buf (s : State) (b : Byte) : (s.pushBits b).buf = s.buf := rfl
@[simp] theorem State.pushBits_bufBytes (s : State) (b : Byte) : (s.pushBits b).bufBytes = s.bufBytes := rfl
@[simp] theorem State.pushBits_deflateChoice (s : State) (b : Byte) : (s.pushBits b).deflateChoice = s.deflateChoice := rfl
@[simp] theorem State.pushBits_inBytes (s : State) (b : Byte) : (s.pushBits b).inBytes = s.inBytes := rfl
@[simp] theorem State.pushBits_inEnd (s : State) (b : Byte) : (s.pushBits b).inEnd = s.inEnd := rfl
@[simp] theorem State.pushBits_outBytes (s : State) (b : Byte) : (s.pushBits b).outBytes = s.outBytes := rfl
@[simp] theorem State.pushBits_outRefusals (s : State) (b : Byte) : (s.pushBits b).outRefusals = s.outRefusals := rfl
@[simp] theorem State.pushBits_hostOps (s : State) (b : Byte) : (s.pushBits b).hostOps = s.hostOps := rfl
@[simp] theorem State.pushBits_hostReplies (s : State) (b : Byte) : (s.pushBits b).hostReplies = s.hostReplies := rfl

@[simp] theorem State.dropCode_cmd (s : State) : s.dropCode.cmd = s.cmd := rfl
@[simp] theorem State.dropCode_a0 (s : State) : s.dropCode.a0 = s.a0 := rfl
@[simp] theorem State.dropCode_a1 (s : State) : s.dropCode.a1 = s.a1 := rfl
@[simp] theorem State.dropCode_a2 (s : State) : s.dropCode.a2 = s.a2 := rfl
@[simp] theorem State.dropCode_res (s : State) : s.dropCode.res = s.res := rfl
@[simp] theorem State.dropCode_fault (s : State) : s.dropCode.fault = s.fault := rfl
@[simp] theorem State.dropCode_finfo0 (s : State) : s.dropCode.finfo0 = s.finfo0 := rfl
@[simp] theorem State.dropCode_finfo1 (s : State) : s.dropCode.finfo1 = s.finfo1 := rfl
@[simp] theorem State.dropCode_ctrl (s : State) : s.dropCode.ctrl = s.ctrl := rfl
@[simp] theorem State.dropCode_crc (s : State) : s.dropCode.crc = s.crc := rfl
@[simp] theorem State.dropCode_zadler (s : State) : s.dropCode.zadler = s.zadler := rfl
@[simp] theorem State.dropCode_inCount (s : State) : s.dropCode.inCount = s.inCount := rfl
@[simp] theorem State.dropCode_outCount (s : State) : s.dropCode.outCount = s.outCount := rfl
@[simp] theorem State.dropCode_bsrBuf (s : State) : s.dropCode.bsrBuf = s.bsrBuf := rfl
@[simp] theorem State.dropCode_bsrLen (s : State) : s.dropCode.bsrLen = s.bsrLen := rfl
@[simp] theorem State.dropCode_bsrPos (s : State) : s.dropCode.bsrPos = s.bsrPos := rfl
@[simp] theorem State.dropCode_bsrTerm (s : State) : s.dropCode.bsrTerm = s.bsrTerm := rfl
@[simp] theorem State.dropCode_lzwState (s : State) : s.dropCode.lzwState = s.lzwState := rfl
@[simp] theorem State.dropCode_lzwMin (s : State) : s.dropCode.lzwMin = s.lzwMin := rfl
@[simp] theorem State.dropCode_lzwWidth (s : State) : s.dropCode.lzwWidth = s.lzwWidth := rfl
@[simp] theorem State.dropCode_lzwNext (s : State) : s.dropCode.lzwNext = s.lzwNext := rfl
@[simp] theorem State.dropCode_lzwPrev (s : State) : s.dropCode.lzwPrev = s.lzwPrev := rfl
@[simp] theorem State.dropCode_lzwPrevValid (s : State) : s.dropCode.lzwPrevValid = s.lzwPrevValid := rfl
@[simp] theorem State.dropCode_lzwBitbuf (s : State) : s.dropCode.lzwBitbuf = s.lzwBitbuf >>> s.lzwWidth := rfl
@[simp] theorem State.dropCode_lzwNbits (s : State) : s.dropCode.lzwNbits = s.lzwNbits - s.lzwWidth := rfl
@[simp] theorem State.dropCode_lzwPrefix (s : State) : s.dropCode.lzwPrefix = s.lzwPrefix := rfl
@[simp] theorem State.dropCode_lzwSuffix (s : State) : s.dropCode.lzwSuffix = s.lzwSuffix := rfl
@[simp] theorem State.dropCode_lzwPend (s : State) : s.dropCode.lzwPend = s.lzwPend := rfl
@[simp] theorem State.dropCode_buf (s : State) : s.dropCode.buf = s.buf := rfl
@[simp] theorem State.dropCode_bufBytes (s : State) : s.dropCode.bufBytes = s.bufBytes := rfl
@[simp] theorem State.dropCode_deflateChoice (s : State) : s.dropCode.deflateChoice = s.deflateChoice := rfl
@[simp] theorem State.dropCode_inBytes (s : State) : s.dropCode.inBytes = s.inBytes := rfl
@[simp] theorem State.dropCode_inEnd (s : State) : s.dropCode.inEnd = s.inEnd := rfl
@[simp] theorem State.dropCode_outBytes (s : State) : s.dropCode.outBytes = s.outBytes := rfl
@[simp] theorem State.dropCode_outRefusals (s : State) : s.dropCode.outRefusals = s.outRefusals := rfl
@[simp] theorem State.dropCode_hostOps (s : State) : s.dropCode.hostOps = s.hostOps := rfl
@[simp] theorem State.dropCode_hostReplies (s : State) : s.dropCode.hostReplies = s.hostReplies := rfl

@[simp] theorem State.setPend_cmd (s : State) (bs : List Byte) : (s.setPend bs).cmd = s.cmd := rfl
@[simp] theorem State.setPend_a0 (s : State) (bs : List Byte) : (s.setPend bs).a0 = s.a0 := rfl
@[simp] theorem State.setPend_a1 (s : State) (bs : List Byte) : (s.setPend bs).a1 = s.a1 := rfl
@[simp] theorem State.setPend_a2 (s : State) (bs : List Byte) : (s.setPend bs).a2 = s.a2 := rfl
@[simp] theorem State.setPend_res (s : State) (bs : List Byte) : (s.setPend bs).res = s.res := rfl
@[simp] theorem State.setPend_fault (s : State) (bs : List Byte) : (s.setPend bs).fault = s.fault := rfl
@[simp] theorem State.setPend_finfo0 (s : State) (bs : List Byte) : (s.setPend bs).finfo0 = s.finfo0 := rfl
@[simp] theorem State.setPend_finfo1 (s : State) (bs : List Byte) : (s.setPend bs).finfo1 = s.finfo1 := rfl
@[simp] theorem State.setPend_ctrl (s : State) (bs : List Byte) : (s.setPend bs).ctrl = s.ctrl := rfl
@[simp] theorem State.setPend_crc (s : State) (bs : List Byte) : (s.setPend bs).crc = s.crc := rfl
@[simp] theorem State.setPend_zadler (s : State) (bs : List Byte) : (s.setPend bs).zadler = s.zadler := rfl
@[simp] theorem State.setPend_inCount (s : State) (bs : List Byte) : (s.setPend bs).inCount = s.inCount := rfl
@[simp] theorem State.setPend_outCount (s : State) (bs : List Byte) : (s.setPend bs).outCount = s.outCount := rfl
@[simp] theorem State.setPend_bsrBuf (s : State) (bs : List Byte) : (s.setPend bs).bsrBuf = s.bsrBuf := rfl
@[simp] theorem State.setPend_bsrLen (s : State) (bs : List Byte) : (s.setPend bs).bsrLen = s.bsrLen := rfl
@[simp] theorem State.setPend_bsrPos (s : State) (bs : List Byte) : (s.setPend bs).bsrPos = s.bsrPos := rfl
@[simp] theorem State.setPend_bsrTerm (s : State) (bs : List Byte) : (s.setPend bs).bsrTerm = s.bsrTerm := rfl
@[simp] theorem State.setPend_lzwState (s : State) (bs : List Byte) : (s.setPend bs).lzwState = s.lzwState := rfl
@[simp] theorem State.setPend_lzwMin (s : State) (bs : List Byte) : (s.setPend bs).lzwMin = s.lzwMin := rfl
@[simp] theorem State.setPend_lzwWidth (s : State) (bs : List Byte) : (s.setPend bs).lzwWidth = s.lzwWidth := rfl
@[simp] theorem State.setPend_lzwNext (s : State) (bs : List Byte) : (s.setPend bs).lzwNext = s.lzwNext := rfl
@[simp] theorem State.setPend_lzwPrev (s : State) (bs : List Byte) : (s.setPend bs).lzwPrev = s.lzwPrev := rfl
@[simp] theorem State.setPend_lzwPrevValid (s : State) (bs : List Byte) : (s.setPend bs).lzwPrevValid = s.lzwPrevValid := rfl
@[simp] theorem State.setPend_lzwBitbuf (s : State) (bs : List Byte) : (s.setPend bs).lzwBitbuf = s.lzwBitbuf := rfl
@[simp] theorem State.setPend_lzwNbits (s : State) (bs : List Byte) : (s.setPend bs).lzwNbits = s.lzwNbits := rfl
@[simp] theorem State.setPend_lzwPrefix (s : State) (bs : List Byte) : (s.setPend bs).lzwPrefix = s.lzwPrefix := rfl
@[simp] theorem State.setPend_lzwSuffix (s : State) (bs : List Byte) : (s.setPend bs).lzwSuffix = s.lzwSuffix := rfl
@[simp] theorem State.setPend_lzwPend (s : State) (bs : List Byte) : (s.setPend bs).lzwPend = bs := rfl
@[simp] theorem State.setPend_buf (s : State) (bs : List Byte) : (s.setPend bs).buf = s.buf := rfl
@[simp] theorem State.setPend_bufBytes (s : State) (bs : List Byte) : (s.setPend bs).bufBytes = s.bufBytes := rfl
@[simp] theorem State.setPend_deflateChoice (s : State) (bs : List Byte) : (s.setPend bs).deflateChoice = s.deflateChoice := rfl
@[simp] theorem State.setPend_inBytes (s : State) (bs : List Byte) : (s.setPend bs).inBytes = s.inBytes := rfl
@[simp] theorem State.setPend_inEnd (s : State) (bs : List Byte) : (s.setPend bs).inEnd = s.inEnd := rfl
@[simp] theorem State.setPend_outBytes (s : State) (bs : List Byte) : (s.setPend bs).outBytes = s.outBytes := rfl
@[simp] theorem State.setPend_outRefusals (s : State) (bs : List Byte) : (s.setPend bs).outRefusals = s.outRefusals := rfl
@[simp] theorem State.setPend_hostOps (s : State) (bs : List Byte) : (s.setPend bs).hostOps = s.hostOps := rfl
@[simp] theorem State.setPend_hostReplies (s : State) (bs : List Byte) : (s.setPend bs).hostReplies = s.hostReplies := rfl

@[simp] theorem State.closeLzw_cmd (s : State) : s.closeLzw.cmd = s.cmd := rfl
@[simp] theorem State.closeLzw_a0 (s : State) : s.closeLzw.a0 = s.a0 := rfl
@[simp] theorem State.closeLzw_a1 (s : State) : s.closeLzw.a1 = s.a1 := rfl
@[simp] theorem State.closeLzw_a2 (s : State) : s.closeLzw.a2 = s.a2 := rfl
@[simp] theorem State.closeLzw_res (s : State) : s.closeLzw.res = s.res := rfl
@[simp] theorem State.closeLzw_fault (s : State) : s.closeLzw.fault = s.fault := rfl
@[simp] theorem State.closeLzw_finfo0 (s : State) : s.closeLzw.finfo0 = s.finfo0 := rfl
@[simp] theorem State.closeLzw_finfo1 (s : State) : s.closeLzw.finfo1 = s.finfo1 := rfl
@[simp] theorem State.closeLzw_ctrl (s : State) : s.closeLzw.ctrl = s.ctrl := rfl
@[simp] theorem State.closeLzw_crc (s : State) : s.closeLzw.crc = s.crc := rfl
@[simp] theorem State.closeLzw_zadler (s : State) : s.closeLzw.zadler = s.zadler := rfl
@[simp] theorem State.closeLzw_inCount (s : State) : s.closeLzw.inCount = s.inCount := rfl
@[simp] theorem State.closeLzw_outCount (s : State) : s.closeLzw.outCount = s.outCount := rfl
@[simp] theorem State.closeLzw_bsrBuf (s : State) : s.closeLzw.bsrBuf = s.bsrBuf := rfl
@[simp] theorem State.closeLzw_bsrLen (s : State) : s.closeLzw.bsrLen = s.bsrLen := rfl
@[simp] theorem State.closeLzw_bsrPos (s : State) : s.closeLzw.bsrPos = s.bsrPos := rfl
@[simp] theorem State.closeLzw_bsrTerm (s : State) : s.closeLzw.bsrTerm = s.bsrTerm := rfl
@[simp] theorem State.closeLzw_lzwState (s : State) : s.closeLzw.lzwState = .idle := rfl
@[simp] theorem State.closeLzw_lzwMin (s : State) : s.closeLzw.lzwMin = s.lzwMin := rfl
@[simp] theorem State.closeLzw_lzwWidth (s : State) : s.closeLzw.lzwWidth = s.lzwWidth := rfl
@[simp] theorem State.closeLzw_lzwNext (s : State) : s.closeLzw.lzwNext = s.lzwNext := rfl
@[simp] theorem State.closeLzw_lzwPrev (s : State) : s.closeLzw.lzwPrev = s.lzwPrev := rfl
@[simp] theorem State.closeLzw_lzwPrevValid (s : State) : s.closeLzw.lzwPrevValid = s.lzwPrevValid := rfl
@[simp] theorem State.closeLzw_lzwBitbuf (s : State) : s.closeLzw.lzwBitbuf = 0 := rfl
@[simp] theorem State.closeLzw_lzwNbits (s : State) : s.closeLzw.lzwNbits = 0 := rfl
@[simp] theorem State.closeLzw_lzwPrefix (s : State) : s.closeLzw.lzwPrefix = s.lzwPrefix := rfl
@[simp] theorem State.closeLzw_lzwSuffix (s : State) : s.closeLzw.lzwSuffix = s.lzwSuffix := rfl
@[simp] theorem State.closeLzw_lzwPend (s : State) : s.closeLzw.lzwPend = [] := rfl
@[simp] theorem State.closeLzw_buf (s : State) : s.closeLzw.buf = s.buf := rfl
@[simp] theorem State.closeLzw_bufBytes (s : State) : s.closeLzw.bufBytes = s.bufBytes := rfl
@[simp] theorem State.closeLzw_deflateChoice (s : State) : s.closeLzw.deflateChoice = s.deflateChoice := rfl
@[simp] theorem State.closeLzw_inBytes (s : State) : s.closeLzw.inBytes = s.inBytes := rfl
@[simp] theorem State.closeLzw_inEnd (s : State) : s.closeLzw.inEnd = s.inEnd := rfl
@[simp] theorem State.closeLzw_outBytes (s : State) : s.closeLzw.outBytes = s.outBytes := rfl
@[simp] theorem State.closeLzw_outRefusals (s : State) : s.closeLzw.outRefusals = s.outRefusals := rfl
@[simp] theorem State.closeLzw_hostOps (s : State) : s.closeLzw.hostOps = s.hostOps := rfl
@[simp] theorem State.closeLzw_hostReplies (s : State) : s.closeLzw.hostReplies = s.hostReplies := rfl

@[simp] theorem State.putZlib_cmd (s : State) (x z : List Byte) : (s.putZlib x z).cmd = s.cmd := rfl
@[simp] theorem State.putZlib_a0 (s : State) (x z : List Byte) : (s.putZlib x z).a0 = s.a0 := rfl
@[simp] theorem State.putZlib_a1 (s : State) (x z : List Byte) : (s.putZlib x z).a1 = s.a1 := rfl
@[simp] theorem State.putZlib_a2 (s : State) (x z : List Byte) : (s.putZlib x z).a2 = s.a2 := rfl
@[simp] theorem State.putZlib_res (s : State) (x z : List Byte) : (s.putZlib x z).res = s.res := rfl
@[simp] theorem State.putZlib_fault (s : State) (x z : List Byte) : (s.putZlib x z).fault = s.fault := rfl
@[simp] theorem State.putZlib_finfo0 (s : State) (x z : List Byte) : (s.putZlib x z).finfo0 = s.finfo0 := rfl
@[simp] theorem State.putZlib_finfo1 (s : State) (x z : List Byte) : (s.putZlib x z).finfo1 = s.finfo1 := rfl
@[simp] theorem State.putZlib_ctrl (s : State) (x z : List Byte) : (s.putZlib x z).ctrl = s.ctrl := rfl
@[simp] theorem State.putZlib_crc (s : State) (x z : List Byte) : (s.putZlib x z).crc = s.crc := rfl
@[simp] theorem State.putZlib_zadler (s : State) (x z : List Byte) : (s.putZlib x z).zadler = adler32 x := rfl
@[simp] theorem State.putZlib_inCount (s : State) (x z : List Byte) : (s.putZlib x z).inCount = s.inCount := rfl
@[simp] theorem State.putZlib_outCount (s : State) (x z : List Byte) : (s.putZlib x z).outCount = s.outCount := rfl
@[simp] theorem State.putZlib_bsrBuf (s : State) (x z : List Byte) : (s.putZlib x z).bsrBuf = s.bsrBuf := rfl
@[simp] theorem State.putZlib_bsrLen (s : State) (x z : List Byte) : (s.putZlib x z).bsrLen = s.bsrLen := rfl
@[simp] theorem State.putZlib_bsrPos (s : State) (x z : List Byte) : (s.putZlib x z).bsrPos = s.bsrPos := rfl
@[simp] theorem State.putZlib_bsrTerm (s : State) (x z : List Byte) : (s.putZlib x z).bsrTerm = s.bsrTerm := rfl
@[simp] theorem State.putZlib_lzwState (s : State) (x z : List Byte) : (s.putZlib x z).lzwState = s.lzwState := rfl
@[simp] theorem State.putZlib_lzwMin (s : State) (x z : List Byte) : (s.putZlib x z).lzwMin = s.lzwMin := rfl
@[simp] theorem State.putZlib_lzwWidth (s : State) (x z : List Byte) : (s.putZlib x z).lzwWidth = s.lzwWidth := rfl
@[simp] theorem State.putZlib_lzwNext (s : State) (x z : List Byte) : (s.putZlib x z).lzwNext = s.lzwNext := rfl
@[simp] theorem State.putZlib_lzwPrev (s : State) (x z : List Byte) : (s.putZlib x z).lzwPrev = s.lzwPrev := rfl
@[simp] theorem State.putZlib_lzwPrevValid (s : State) (x z : List Byte) : (s.putZlib x z).lzwPrevValid = s.lzwPrevValid := rfl
@[simp] theorem State.putZlib_lzwBitbuf (s : State) (x z : List Byte) : (s.putZlib x z).lzwBitbuf = s.lzwBitbuf := rfl
@[simp] theorem State.putZlib_lzwNbits (s : State) (x z : List Byte) : (s.putZlib x z).lzwNbits = s.lzwNbits := rfl
@[simp] theorem State.putZlib_lzwPrefix (s : State) (x z : List Byte) : (s.putZlib x z).lzwPrefix = s.lzwPrefix := rfl
@[simp] theorem State.putZlib_lzwSuffix (s : State) (x z : List Byte) : (s.putZlib x z).lzwSuffix = s.lzwSuffix := rfl
@[simp] theorem State.putZlib_lzwPend (s : State) (x z : List Byte) : (s.putZlib x z).lzwPend = s.lzwPend := rfl
@[simp] theorem State.putZlib_buf (s : State) (x z : List Byte) : (s.putZlib x z).buf = Memory.writeList s.buf s.dest z := rfl
@[simp] theorem State.putZlib_bufBytes (s : State) (x z : List Byte) : (s.putZlib x z).bufBytes = s.bufBytes := rfl
@[simp] theorem State.putZlib_deflateChoice (s : State) (x z : List Byte) : (s.putZlib x z).deflateChoice = s.deflateChoice := rfl
@[simp] theorem State.putZlib_inBytes (s : State) (x z : List Byte) : (s.putZlib x z).inBytes = s.inBytes := rfl
@[simp] theorem State.putZlib_inEnd (s : State) (x z : List Byte) : (s.putZlib x z).inEnd = s.inEnd := rfl
@[simp] theorem State.putZlib_outBytes (s : State) (x z : List Byte) : (s.putZlib x z).outBytes = s.outBytes := rfl
@[simp] theorem State.putZlib_outRefusals (s : State) (x z : List Byte) : (s.putZlib x z).outRefusals = s.outRefusals := rfl
@[simp] theorem State.putZlib_hostOps (s : State) (x z : List Byte) : (s.putZlib x z).hostOps = s.hostOps := rfl
@[simp] theorem State.putZlib_hostReplies (s : State) (x z : List Byte) : (s.putZlib x z).hostReplies = s.hostReplies := rfl

@[simp] theorem State.reply_cmd (s : State) (r : Reply) : (s.reply r).cmd = s.cmd := rfl
@[simp] theorem State.reply_a0 (s : State) (r : Reply) : (s.reply r).a0 = s.a0 := rfl
@[simp] theorem State.reply_a1 (s : State) (r : Reply) : (s.reply r).a1 = s.a1 := rfl
@[simp] theorem State.reply_a2 (s : State) (r : Reply) : (s.reply r).a2 = s.a2 := rfl
@[simp] theorem State.reply_res (s : State) (r : Reply) : (s.reply r).res = s.res := rfl
@[simp] theorem State.reply_fault (s : State) (r : Reply) : (s.reply r).fault = s.fault := rfl
@[simp] theorem State.reply_finfo0 (s : State) (r : Reply) : (s.reply r).finfo0 = s.finfo0 := rfl
@[simp] theorem State.reply_finfo1 (s : State) (r : Reply) : (s.reply r).finfo1 = s.finfo1 := rfl
@[simp] theorem State.reply_ctrl (s : State) (r : Reply) : (s.reply r).ctrl = s.ctrl := rfl
@[simp] theorem State.reply_crc (s : State) (r : Reply) : (s.reply r).crc = s.crc := rfl
@[simp] theorem State.reply_zadler (s : State) (r : Reply) : (s.reply r).zadler = s.zadler := rfl
@[simp] theorem State.reply_inCount (s : State) (r : Reply) : (s.reply r).inCount = s.inCount := rfl
@[simp] theorem State.reply_outCount (s : State) (r : Reply) : (s.reply r).outCount = s.outCount := rfl
@[simp] theorem State.reply_bsrBuf (s : State) (r : Reply) : (s.reply r).bsrBuf = s.bsrBuf := rfl
@[simp] theorem State.reply_bsrLen (s : State) (r : Reply) : (s.reply r).bsrLen = s.bsrLen := rfl
@[simp] theorem State.reply_bsrPos (s : State) (r : Reply) : (s.reply r).bsrPos = s.bsrPos := rfl
@[simp] theorem State.reply_bsrTerm (s : State) (r : Reply) : (s.reply r).bsrTerm = s.bsrTerm := rfl
@[simp] theorem State.reply_lzwState (s : State) (r : Reply) : (s.reply r).lzwState = s.lzwState := rfl
@[simp] theorem State.reply_lzwMin (s : State) (r : Reply) : (s.reply r).lzwMin = s.lzwMin := rfl
@[simp] theorem State.reply_lzwWidth (s : State) (r : Reply) : (s.reply r).lzwWidth = s.lzwWidth := rfl
@[simp] theorem State.reply_lzwNext (s : State) (r : Reply) : (s.reply r).lzwNext = s.lzwNext := rfl
@[simp] theorem State.reply_lzwPrev (s : State) (r : Reply) : (s.reply r).lzwPrev = s.lzwPrev := rfl
@[simp] theorem State.reply_lzwPrevValid (s : State) (r : Reply) : (s.reply r).lzwPrevValid = s.lzwPrevValid := rfl
@[simp] theorem State.reply_lzwBitbuf (s : State) (r : Reply) : (s.reply r).lzwBitbuf = s.lzwBitbuf := rfl
@[simp] theorem State.reply_lzwNbits (s : State) (r : Reply) : (s.reply r).lzwNbits = s.lzwNbits := rfl
@[simp] theorem State.reply_lzwPrefix (s : State) (r : Reply) : (s.reply r).lzwPrefix = s.lzwPrefix := rfl
@[simp] theorem State.reply_lzwSuffix (s : State) (r : Reply) : (s.reply r).lzwSuffix = s.lzwSuffix := rfl
@[simp] theorem State.reply_lzwPend (s : State) (r : Reply) : (s.reply r).lzwPend = s.lzwPend := rfl
@[simp] theorem State.reply_buf (s : State) (r : Reply) : (s.reply r).buf = s.buf := rfl
@[simp] theorem State.reply_bufBytes (s : State) (r : Reply) : (s.reply r).bufBytes = s.bufBytes := rfl
@[simp] theorem State.reply_deflateChoice (s : State) (r : Reply) : (s.reply r).deflateChoice = s.deflateChoice := rfl
@[simp] theorem State.reply_inBytes (s : State) (r : Reply) : (s.reply r).inBytes = s.inBytes := rfl
@[simp] theorem State.reply_inEnd (s : State) (r : Reply) : (s.reply r).inEnd = s.inEnd := rfl
@[simp] theorem State.reply_outBytes (s : State) (r : Reply) : (s.reply r).outBytes = s.outBytes := rfl
@[simp] theorem State.reply_outRefusals (s : State) (r : Reply) : (s.reply r).outRefusals = s.outRefusals := rfl
@[simp] theorem State.reply_hostOps (s : State) (r : Reply) : (s.reply r).hostOps = s.hostOps := rfl
@[simp] theorem State.reply_hostReplies (s : State) (r : Reply) : (s.reply r).hostReplies = s.hostReplies ++ [r] := rfl

@[simp] theorem State.queueCommand_cmd (s : State) (w : Word) : (s.queueCommand w).cmd = s.cmd := rfl
@[simp] theorem State.queueCommand_a0 (s : State) (w : Word) : (s.queueCommand w).a0 = s.a0 := rfl
@[simp] theorem State.queueCommand_a1 (s : State) (w : Word) : (s.queueCommand w).a1 = s.a1 := rfl
@[simp] theorem State.queueCommand_a2 (s : State) (w : Word) : (s.queueCommand w).a2 = s.a2 := rfl
@[simp] theorem State.queueCommand_res (s : State) (w : Word) : (s.queueCommand w).res = s.res := rfl
@[simp] theorem State.queueCommand_fault (s : State) (w : Word) : (s.queueCommand w).fault = s.fault := rfl
@[simp] theorem State.queueCommand_finfo0 (s : State) (w : Word) : (s.queueCommand w).finfo0 = s.finfo0 := rfl
@[simp] theorem State.queueCommand_finfo1 (s : State) (w : Word) : (s.queueCommand w).finfo1 = s.finfo1 := rfl
@[simp] theorem State.queueCommand_ctrl (s : State) (w : Word) : (s.queueCommand w).ctrl = s.ctrl := rfl
@[simp] theorem State.queueCommand_crc (s : State) (w : Word) : (s.queueCommand w).crc = s.crc := rfl
@[simp] theorem State.queueCommand_zadler (s : State) (w : Word) : (s.queueCommand w).zadler = s.zadler := rfl
@[simp] theorem State.queueCommand_inCount (s : State) (w : Word) : (s.queueCommand w).inCount = s.inCount := rfl
@[simp] theorem State.queueCommand_outCount (s : State) (w : Word) : (s.queueCommand w).outCount = s.outCount := rfl
@[simp] theorem State.queueCommand_bsrBuf (s : State) (w : Word) : (s.queueCommand w).bsrBuf = s.bsrBuf := rfl
@[simp] theorem State.queueCommand_bsrLen (s : State) (w : Word) : (s.queueCommand w).bsrLen = s.bsrLen := rfl
@[simp] theorem State.queueCommand_bsrPos (s : State) (w : Word) : (s.queueCommand w).bsrPos = s.bsrPos := rfl
@[simp] theorem State.queueCommand_bsrTerm (s : State) (w : Word) : (s.queueCommand w).bsrTerm = s.bsrTerm := rfl
@[simp] theorem State.queueCommand_lzwState (s : State) (w : Word) : (s.queueCommand w).lzwState = s.lzwState := rfl
@[simp] theorem State.queueCommand_lzwMin (s : State) (w : Word) : (s.queueCommand w).lzwMin = s.lzwMin := rfl
@[simp] theorem State.queueCommand_lzwWidth (s : State) (w : Word) : (s.queueCommand w).lzwWidth = s.lzwWidth := rfl
@[simp] theorem State.queueCommand_lzwNext (s : State) (w : Word) : (s.queueCommand w).lzwNext = s.lzwNext := rfl
@[simp] theorem State.queueCommand_lzwPrev (s : State) (w : Word) : (s.queueCommand w).lzwPrev = s.lzwPrev := rfl
@[simp] theorem State.queueCommand_lzwPrevValid (s : State) (w : Word) : (s.queueCommand w).lzwPrevValid = s.lzwPrevValid := rfl
@[simp] theorem State.queueCommand_lzwBitbuf (s : State) (w : Word) : (s.queueCommand w).lzwBitbuf = s.lzwBitbuf := rfl
@[simp] theorem State.queueCommand_lzwNbits (s : State) (w : Word) : (s.queueCommand w).lzwNbits = s.lzwNbits := rfl
@[simp] theorem State.queueCommand_lzwPrefix (s : State) (w : Word) : (s.queueCommand w).lzwPrefix = s.lzwPrefix := rfl
@[simp] theorem State.queueCommand_lzwSuffix (s : State) (w : Word) : (s.queueCommand w).lzwSuffix = s.lzwSuffix := rfl
@[simp] theorem State.queueCommand_lzwPend (s : State) (w : Word) : (s.queueCommand w).lzwPend = s.lzwPend := rfl
@[simp] theorem State.queueCommand_buf (s : State) (w : Word) : (s.queueCommand w).buf = s.buf := rfl
@[simp] theorem State.queueCommand_bufBytes (s : State) (w : Word) : (s.queueCommand w).bufBytes = s.bufBytes := rfl
@[simp] theorem State.queueCommand_deflateChoice (s : State) (w : Word) : (s.queueCommand w).deflateChoice = s.deflateChoice := rfl
@[simp] theorem State.queueCommand_inBytes (s : State) (w : Word) : (s.queueCommand w).inBytes = s.inBytes := rfl
@[simp] theorem State.queueCommand_inEnd (s : State) (w : Word) : (s.queueCommand w).inEnd = s.inEnd := rfl
@[simp] theorem State.queueCommand_outBytes (s : State) (w : Word) : (s.queueCommand w).outBytes = s.outBytes := rfl
@[simp] theorem State.queueCommand_outRefusals (s : State) (w : Word) : (s.queueCommand w).outRefusals = s.outRefusals := rfl
@[simp] theorem State.queueCommand_hostOps (s : State) (w : Word) : (s.queueCommand w).hostOps = .regWrite 0x00 32 w :: s.hostOps := rfl
@[simp] theorem State.queueCommand_hostReplies (s : State) (w : Word) : (s.queueCommand w).hostReplies = s.hostReplies := rfl

@[simp] theorem State.addEntry_cmd (s : State) (b : Byte) : (s.addEntry b).cmd = s.cmd := by
  unfold State.addEntry; split <;> rfl
@[simp] theorem State.addEntry_a0 (s : State) (b : Byte) : (s.addEntry b).a0 = s.a0 := by
  unfold State.addEntry; split <;> rfl
@[simp] theorem State.addEntry_a1 (s : State) (b : Byte) : (s.addEntry b).a1 = s.a1 := by
  unfold State.addEntry; split <;> rfl
@[simp] theorem State.addEntry_a2 (s : State) (b : Byte) : (s.addEntry b).a2 = s.a2 := by
  unfold State.addEntry; split <;> rfl
@[simp] theorem State.addEntry_res (s : State) (b : Byte) : (s.addEntry b).res = s.res := by
  unfold State.addEntry; split <;> rfl
@[simp] theorem State.addEntry_fault (s : State) (b : Byte) : (s.addEntry b).fault = s.fault := by
  unfold State.addEntry; split <;> rfl
@[simp] theorem State.addEntry_finfo0 (s : State) (b : Byte) : (s.addEntry b).finfo0 = s.finfo0 := by
  unfold State.addEntry; split <;> rfl
@[simp] theorem State.addEntry_finfo1 (s : State) (b : Byte) : (s.addEntry b).finfo1 = s.finfo1 := by
  unfold State.addEntry; split <;> rfl
@[simp] theorem State.addEntry_ctrl (s : State) (b : Byte) : (s.addEntry b).ctrl = s.ctrl := by
  unfold State.addEntry; split <;> rfl
@[simp] theorem State.addEntry_crc (s : State) (b : Byte) : (s.addEntry b).crc = s.crc := by
  unfold State.addEntry; split <;> rfl
@[simp] theorem State.addEntry_zadler (s : State) (b : Byte) : (s.addEntry b).zadler = s.zadler := by
  unfold State.addEntry; split <;> rfl
@[simp] theorem State.addEntry_inCount (s : State) (b : Byte) : (s.addEntry b).inCount = s.inCount := by
  unfold State.addEntry; split <;> rfl
@[simp] theorem State.addEntry_outCount (s : State) (b : Byte) : (s.addEntry b).outCount = s.outCount := by
  unfold State.addEntry; split <;> rfl
@[simp] theorem State.addEntry_bsrBuf (s : State) (b : Byte) : (s.addEntry b).bsrBuf = s.bsrBuf := by
  unfold State.addEntry; split <;> rfl
@[simp] theorem State.addEntry_bsrLen (s : State) (b : Byte) : (s.addEntry b).bsrLen = s.bsrLen := by
  unfold State.addEntry; split <;> rfl
@[simp] theorem State.addEntry_bsrPos (s : State) (b : Byte) : (s.addEntry b).bsrPos = s.bsrPos := by
  unfold State.addEntry; split <;> rfl
@[simp] theorem State.addEntry_bsrTerm (s : State) (b : Byte) : (s.addEntry b).bsrTerm = s.bsrTerm := by
  unfold State.addEntry; split <;> rfl
@[simp] theorem State.addEntry_lzwState (s : State) (b : Byte) : (s.addEntry b).lzwState = s.lzwState := by
  unfold State.addEntry; split <;> rfl
@[simp] theorem State.addEntry_lzwMin (s : State) (b : Byte) : (s.addEntry b).lzwMin = s.lzwMin := by
  unfold State.addEntry; split <;> rfl
@[simp] theorem State.addEntry_lzwPrev (s : State) (b : Byte) : (s.addEntry b).lzwPrev = s.lzwPrev := by
  unfold State.addEntry; split <;> rfl
@[simp] theorem State.addEntry_lzwPrevValid (s : State) (b : Byte) : (s.addEntry b).lzwPrevValid = s.lzwPrevValid := by
  unfold State.addEntry; split <;> rfl
@[simp] theorem State.addEntry_lzwBitbuf (s : State) (b : Byte) : (s.addEntry b).lzwBitbuf = s.lzwBitbuf := by
  unfold State.addEntry; split <;> rfl
@[simp] theorem State.addEntry_lzwNbits (s : State) (b : Byte) : (s.addEntry b).lzwNbits = s.lzwNbits := by
  unfold State.addEntry; split <;> rfl
@[simp] theorem State.addEntry_lzwPend (s : State) (b : Byte) : (s.addEntry b).lzwPend = s.lzwPend := by
  unfold State.addEntry; split <;> rfl
@[simp] theorem State.addEntry_buf (s : State) (b : Byte) : (s.addEntry b).buf = s.buf := by
  unfold State.addEntry; split <;> rfl
@[simp] theorem State.addEntry_bufBytes (s : State) (b : Byte) : (s.addEntry b).bufBytes = s.bufBytes := by
  unfold State.addEntry; split <;> rfl
@[simp] theorem State.addEntry_deflateChoice (s : State) (b : Byte) : (s.addEntry b).deflateChoice = s.deflateChoice := by
  unfold State.addEntry; split <;> rfl
@[simp] theorem State.addEntry_inBytes (s : State) (b : Byte) : (s.addEntry b).inBytes = s.inBytes := by
  unfold State.addEntry; split <;> rfl
@[simp] theorem State.addEntry_inEnd (s : State) (b : Byte) : (s.addEntry b).inEnd = s.inEnd := by
  unfold State.addEntry; split <;> rfl
@[simp] theorem State.addEntry_outBytes (s : State) (b : Byte) : (s.addEntry b).outBytes = s.outBytes := by
  unfold State.addEntry; split <;> rfl
@[simp] theorem State.addEntry_outRefusals (s : State) (b : Byte) : (s.addEntry b).outRefusals = s.outRefusals := by
  unfold State.addEntry; split <;> rfl
@[simp] theorem State.addEntry_hostOps (s : State) (b : Byte) : (s.addEntry b).hostOps = s.hostOps := by
  unfold State.addEntry; split <;> rfl
@[simp] theorem State.addEntry_hostReplies (s : State) (b : Byte) : (s.addEntry b).hostReplies = s.hostReplies := by
  unfold State.addEntry; split <;> rfl

@[simp] theorem State.resetBlock_cmd (s : State) : s.resetBlock.cmd = State.reset.cmd := rfl
@[simp] theorem State.resetBlock_a0 (s : State) : s.resetBlock.a0 = State.reset.a0 := rfl
@[simp] theorem State.resetBlock_a1 (s : State) : s.resetBlock.a1 = State.reset.a1 := rfl
@[simp] theorem State.resetBlock_a2 (s : State) : s.resetBlock.a2 = State.reset.a2 := rfl
@[simp] theorem State.resetBlock_res (s : State) : s.resetBlock.res = State.reset.res := rfl
@[simp] theorem State.resetBlock_fault (s : State) : s.resetBlock.fault = State.reset.fault := rfl
@[simp] theorem State.resetBlock_finfo0 (s : State) : s.resetBlock.finfo0 = State.reset.finfo0 := rfl
@[simp] theorem State.resetBlock_finfo1 (s : State) : s.resetBlock.finfo1 = State.reset.finfo1 := rfl
@[simp] theorem State.resetBlock_ctrl (s : State) : s.resetBlock.ctrl = State.reset.ctrl := rfl
@[simp] theorem State.resetBlock_crc (s : State) : s.resetBlock.crc = State.reset.crc := rfl
@[simp] theorem State.resetBlock_zadler (s : State) : s.resetBlock.zadler = State.reset.zadler := rfl
@[simp] theorem State.resetBlock_inCount (s : State) : s.resetBlock.inCount = State.reset.inCount := rfl
@[simp] theorem State.resetBlock_outCount (s : State) : s.resetBlock.outCount = State.reset.outCount := rfl
@[simp] theorem State.resetBlock_bsrBuf (s : State) : s.resetBlock.bsrBuf = State.reset.bsrBuf := rfl
@[simp] theorem State.resetBlock_bsrLen (s : State) : s.resetBlock.bsrLen = State.reset.bsrLen := rfl
@[simp] theorem State.resetBlock_bsrPos (s : State) : s.resetBlock.bsrPos = State.reset.bsrPos := rfl
@[simp] theorem State.resetBlock_bsrTerm (s : State) : s.resetBlock.bsrTerm = State.reset.bsrTerm := rfl
@[simp] theorem State.resetBlock_lzwState (s : State) : s.resetBlock.lzwState = State.reset.lzwState := rfl
@[simp] theorem State.resetBlock_lzwMin (s : State) : s.resetBlock.lzwMin = State.reset.lzwMin := rfl
@[simp] theorem State.resetBlock_lzwWidth (s : State) : s.resetBlock.lzwWidth = State.reset.lzwWidth := rfl
@[simp] theorem State.resetBlock_lzwNext (s : State) : s.resetBlock.lzwNext = State.reset.lzwNext := rfl
@[simp] theorem State.resetBlock_lzwPrev (s : State) : s.resetBlock.lzwPrev = State.reset.lzwPrev := rfl
@[simp] theorem State.resetBlock_lzwPrevValid (s : State) : s.resetBlock.lzwPrevValid = State.reset.lzwPrevValid := rfl
@[simp] theorem State.resetBlock_lzwBitbuf (s : State) : s.resetBlock.lzwBitbuf = State.reset.lzwBitbuf := rfl
@[simp] theorem State.resetBlock_lzwNbits (s : State) : s.resetBlock.lzwNbits = State.reset.lzwNbits := rfl
@[simp] theorem State.resetBlock_lzwPrefix (s : State) : s.resetBlock.lzwPrefix = State.reset.lzwPrefix := rfl
@[simp] theorem State.resetBlock_lzwSuffix (s : State) : s.resetBlock.lzwSuffix = State.reset.lzwSuffix := rfl
@[simp] theorem State.resetBlock_lzwPend (s : State) : s.resetBlock.lzwPend = State.reset.lzwPend := rfl
@[simp] theorem State.resetBlock_buf (s : State) : s.resetBlock.buf = s.buf := rfl
@[simp] theorem State.resetBlock_bufBytes (s : State) : s.resetBlock.bufBytes = s.bufBytes := rfl
@[simp] theorem State.resetBlock_deflateChoice (s : State) : s.resetBlock.deflateChoice = s.deflateChoice := rfl
@[simp] theorem State.resetBlock_inBytes (s : State) : s.resetBlock.inBytes = s.inBytes := rfl
@[simp] theorem State.resetBlock_inEnd (s : State) : s.resetBlock.inEnd = s.inEnd := rfl
@[simp] theorem State.resetBlock_outBytes (s : State) : s.resetBlock.outBytes = s.outBytes := rfl
@[simp] theorem State.resetBlock_outRefusals (s : State) : s.resetBlock.outRefusals = s.outRefusals := rfl
@[simp] theorem State.resetBlock_hostOps (s : State) : s.resetBlock.hostOps = s.hostOps := rfl
@[simp] theorem State.resetBlock_hostReplies (s : State) : s.resetBlock.hostReplies = s.hostReplies := rfl

@[simp] theorem State.recordFault_clearCode (s : State) (c : FaultCode) (x y : Word) : (s.recordFault c x y).clearCode = s.clearCode := rfl
@[simp] theorem State.setRes_clearCode (s : State) (v : Word) : (s.setRes v).clearCode = s.clearCode := rfl
@[simp] theorem State.setCrc_clearCode (s : State) (v : Word) : (s.setCrc v).clearCode = s.clearCode := rfl
@[simp] theorem State.writeBuf_clearCode (s : State) (a : Nat) (b : Byte) : (s.writeBuf a b).clearCode = s.clearCode := rfl
@[simp] theorem State.writeBufList_clearCode (s : State) (a : Nat) (bs : List Byte) : (s.writeBufList a bs).clearCode = s.clearCode := rfl
@[simp] theorem State.tookByte_clearCode (s : State) (rest : List Byte) : (s.tookByte rest).clearCode = s.clearCode := rfl
@[simp] theorem State.gaveByte_clearCode (s : State) (b : Byte) : (s.gaveByte b).clearCode = s.clearCode := rfl
@[simp] theorem State.writeBsr_clearCode (s : State) (i : Nat) (b : Byte) : (s.writeBsr i b).clearCode = s.clearCode := rfl
@[simp] theorem State.setBsr_clearCode (s : State) (len pos : Nat) : (s.setBsr len pos).clearCode = s.clearCode := rfl
@[simp] theorem State.dropBlock_clearCode (s : State) : s.dropBlock.clearCode = s.clearCode := rfl
@[simp] theorem State.closeBsr_clearCode (s : State) : s.closeBsr.clearCode = s.clearCode := rfl
@[simp] theorem State.openBsr_clearCode (s : State) : s.openBsr.clearCode = s.clearCode := rfl
@[simp] theorem State.copyBlock_clearCode (s : State) (dst k : Nat) : (s.copyBlock dst k).clearCode = s.clearCode := rfl
@[simp] theorem State.lzwReset_clearCode (s : State) : s.lzwReset.clearCode = s.clearCode := rfl
@[simp] theorem State.finishLzw_clearCode (s : State) : s.finishLzw.clearCode = s.clearCode := rfl
@[simp] theorem State.setPrev_clearCode (s : State) (c : Nat) : (s.setPrev c).clearCode = s.clearCode := rfl
@[simp] theorem State.pushBits_clearCode (s : State) (b : Byte) : (s.pushBits b).clearCode = s.clearCode := rfl
@[simp] theorem State.dropCode_clearCode (s : State) : s.dropCode.clearCode = s.clearCode := rfl
@[simp] theorem State.setPend_clearCode (s : State) (bs : List Byte) : (s.setPend bs).clearCode = s.clearCode := rfl
@[simp] theorem State.closeLzw_clearCode (s : State) : s.closeLzw.clearCode = s.clearCode := rfl
@[simp] theorem State.putZlib_clearCode (s : State) (x z : List Byte) : (s.putZlib x z).clearCode = s.clearCode := rfl
@[simp] theorem State.reply_clearCode (s : State) (r : Reply) : (s.reply r).clearCode = s.clearCode := rfl
@[simp] theorem State.queueCommand_clearCode (s : State) (w : Word) : (s.queueCommand w).clearCode = s.clearCode := rfl
@[simp] theorem State.addEntry_clearCode (s : State) (b : Byte) : (s.addEntry b).clearCode = s.clearCode := by
  unfold State.clearCode; simp

end Sys2Proof.Machine
end

