-- ==== Sys2Proof/Laws/Flow.lean ====
section
/-! SUPPORT. How the parts of a command compose: what a sequence of parts can answer, and the one induction over each loop
of a fixed number of passes. -/

namespace Sys2Proof.Machine

section
variable {α β γ : Type}

@[simp] theorem Flow.bind_done (a : α) (s : State) (k : α → State → Flow β) :
    (Flow.done a s).bind k = k a s := rfl

@[simp] theorem Flow.bind_raised (s : State) (k : α → State → Flow β) :
    (Flow.raised s : Flow α).bind k = .raised s := rfl

@[simp] theorem Flow.bind_stop (f : Fault) (k : α → State → Flow β) :
    (Flow.stop f : Flow α).bind k = .stop f := rfl

theorem Flow.bind_assoc (x : Flow α) (k : α → State → Flow β) (l : β → State → Flow γ) :
    (x.bind k).bind l = x.bind fun a s => (k a s).bind l := by
  cases x <;> rfl

theorem Flow.bind_eq_done {x : Flow α} {k : α → State → Flow β} {b : β} {t : State} :
    x.bind k = .done b t ↔ ∃ a s, x = .done a s ∧ k a s = .done b t := by
  cases x <;> simp

theorem Flow.bind_eq_raised {x : Flow α} {k : α → State → Flow β} {t : State} :
    x.bind k = .raised t ↔ x = .raised t ∨ ∃ a s, x = .done a s ∧ k a s = .raised t := by
  cases x <;> simp

theorem Flow.bind_eq_stop {x : Flow α} {k : α → State → Flow β} {f : Fault} :
    x.bind k = .stop f ↔ x = .stop f ∨ ∃ a s, x = .done a s ∧ k a s = .stop f := by
  cases x <;> simp

end

@[simp] theorem Flow.outcome_done (s : State) : (Flow.done () s).outcome = .next s := rfl

@[simp] theorem Flow.outcome_raised (s : State) : (Flow.raised s).outcome = .next s := rfl

@[simp] theorem Flow.outcome_stop (f : Fault) : (Flow.stop f).outcome = .fault f := rfl

/-- A command's next state comes from its success or from the fault it recorded. -/
theorem Flow.outcome_eq_next {x : Flow Unit} {t : State} :
    x.outcome = .next t ↔ x = .done () t ∨ x = .raised t := by
  cases x <;> simp [Flow.outcome]

theorem Flow.outcome_eq_fault {x : Flow Unit} {f : Fault} : x.outcome = .fault f ↔ x = .stop f := by
  cases x <;> simp [Flow.outcome]

theorem Flow.outcome_ne_refused {x : Flow Unit} {r : Refusal} : x.outcome ≠ .refused r := by
  cases x <;> simp [Flow.outcome]

/-- Everything a part can answer: `P` where it goes on, `Q` where it has raised a fault, `E` where the model stops. -/
def Flow.All {α : Type} (x : Flow α) (P : α → State → Prop) (Q : State → Prop) (E : Fault → Prop) : Prop :=
  match x with
  | .done a s => P a s
  | .raised s => Q s
  | .stop f => E f

section
variable {α β : Type} {x : Flow α} {P P' : α → State → Prop} {R : β → State → Prop} {Q Q' : State → Prop}
  {E E' : Fault → Prop}

@[simp] theorem Flow.all_done (a : α) (s : State) : (Flow.done a s).All P Q E = P a s := rfl

@[simp] theorem Flow.all_raised (s : State) : (Flow.raised s : Flow α).All P Q E = Q s := rfl

@[simp] theorem Flow.all_stop (f : Fault) : (Flow.stop f : Flow α).All P Q E = E f := rfl

theorem Flow.All.mono (h : x.All P Q E) (hP : ∀ a s, P a s → P' a s) (hQ : ∀ s, Q s → Q' s)
    (hE : ∀ f, E f → E' f) : x.All P' Q' E' := by
  cases x with
  | done a s => exact hP a s h
  | raised s => exact hQ s h
  | stop f => exact hE f h

theorem Flow.All.and (h : x.All P Q E) (h' : x.All P' Q' E') :
    x.All (fun a s => P a s ∧ P' a s) (fun s => Q s ∧ Q' s) (fun f => E f ∧ E' f) := by
  cases x <;> exact ⟨h, h'⟩

theorem Flow.All.bind {k : α → State → Flow β} (h : x.All P Q E) (hk : ∀ a s, P a s → (k a s).All R Q E) :
    (x.bind k).All R Q E := by
  cases x with
  | done a s => exact hk a s h
  | raised s => exact h
  | stop f => exact h

theorem Flow.All.of_done (h : x.All P Q E) {a : α} {s : State} (e : x = .done a s) : P a s := by
  subst e; exact h

theorem Flow.All.of_raised (h : x.All P Q E) {s : State} (e : x = .raised s) : Q s := by
  subst e; exact h

theorem Flow.All.of_stop (h : x.All P Q E) {f : Fault} (e : x = .stop f) : E f := by
  subst e; exact h

end

/-- A command whose success and whose fault both meet `Q` leaves a next state that meets it. -/
theorem Flow.All.of_next {x : Flow Unit} {Q : State → Prop} {E : Fault → Prop} (h : x.All (fun _ s => Q s) Q E)
    {t : State} (e : x.outcome = .next t) : Q t := by
  rcases Flow.outcome_eq_next.mp e with e | e
  · exact h.of_done e
  · exact h.of_raised e

@[simp] theorem forUp_zero (body : Nat → State → Flow Unit) (i : Nat) (s : State) :
    forUp body 0 i s = .done () s := rfl

theorem forUp_succ (body : Nat → State → Flow Unit) (k i : Nat) (s : State) :
    forUp body (k + 1) i s = (body i s).bind fun _ t => forUp body k (i + 1) t := rfl

@[simp] theorem forBytes_nil (body : Byte → State → Flow Unit) (s : State) :
    forBytes body [] s = .done () s := rfl

@[simp] theorem forBytes_cons (body : Byte → State → Flow Unit) (b : Byte) (bs : List Byte) (s : State) :
    forBytes body (b :: bs) s = (body b s).bind fun _ t => forBytes body bs t := rfl

/-- A loop over `k + l` passes is the loop over the first `k`, then the loop over the rest. -/
theorem forUp_add (body : Nat → State → Flow Unit) (k l i : Nat) (s : State) :
    forUp body (k + l) i s = (forUp body k i s).bind fun _ t => forUp body l (i + k) t := by
  induction k generalizing i s with
  | zero => simp
  | succ k ih =>
    rw [show k + 1 + l = (k + l) + 1 by omega, forUp_succ, forUp_succ, Flow.bind_assoc]
    congr 1
    funext _ t
    rw [ih, show i + 1 + k = i + (k + 1) by omega]

/-- What every pass of a loop keeps, the loop keeps. -/
theorem forUp_all {body : Nat → State → Flow Unit} {P : Nat → State → Prop} {Q : State → Prop} {E : Fault → Prop}
    {k i : Nat} {s : State} (h : P i s)
    (hb : ∀ j t, i ≤ j → j < i + k → P j t → (body j t).All (fun _ u => P (j + 1) u) Q E) :
    (forUp body k i s).All (fun _ t => P (i + k) t) Q E := by
  induction k generalizing i s with
  | zero => exact h
  | succ k ih =>
    refine (hb i s (by omega) (by omega) h).bind fun _ t ht => ?_
    have := ih (i := i + 1) ht fun j u h₁ h₂ => hb j u (by omega) (by omega)
    rwa [show i + 1 + k = i + (k + 1) by omega] at this

/-- What the body keeps for every byte, the loop over a list of bytes keeps. -/
theorem forBytes_all {body : Byte → State → Flow Unit} {P Q : State → Prop} {E : Fault → Prop} {bs : List Byte}
    {s : State} (h : P s) (hb : ∀ b t, P t → (body b t).All (fun _ u => P u) Q E) :
    (forBytes body bs s).All (fun _ t => P t) Q E := by
  induction bs generalizing s with
  | nil => exact h
  | cons b bs ih => exact (hb b s h).bind fun _ t ht => ih ht

end Sys2Proof.Machine
end

