-- ==== Sys2Proof/Laws/Store.lean ====
section
/-! SUPPORT. The laws of the sparse tables and of BUF: a read after a write, what a write leaves alone, and that every operation
keeps the canonical form. -/

namespace Sys2Proof.Machine

section
variable {α : Type}

@[simp] theorem Store.find_nil (a : Nat) : Store.find ([] : Store α) a = none := rfl

theorem Store.find_put (m : Store α) (a b : Nat) (v : α) :
    Store.find (Store.put m a v) b = if b = a then some v else Store.find m b := by
  induction m with
  | nil => simp [Store.put, Store.find]
  | cons c m ih =>
    obtain ⟨k, w⟩ := c
    simp only [Store.put]
    split
    · simp only [Store.find]
    · split
      · subst_vars
        simp only [Store.find]
        split <;> rfl
      · simp only [Store.find, ih]
        by_cases h : b = k
        · subst h
          rw [if_pos rfl, if_pos rfl, if_neg (by omega)]
        · rw [if_neg h, if_neg h]

@[simp] theorem Store.find_put_same (m : Store α) (a : Nat) (v : α) :
    Store.find (Store.put m a v) a = some v := by
  simp [Store.find_put]

theorem Store.find_put_other (m : Store α) {a b : Nat} (v : α) (h : b ≠ a) :
    Store.find (Store.put m a v) b = Store.find m b := by
  simp [Store.find_put, h]

/-- A write adds no key but its own. -/
theorem Store.mem_put {m : Store α} {a : Nat} {v : α} {c : Nat × α} (h : c ∈ Store.put m a v) :
    c = (a, v) ∨ c ∈ m := by
  induction m with
  | nil => exact .inl (by simpa [Store.put] using h)
  | cons d m ih =>
    obtain ⟨k, w⟩ := d
    simp only [Store.put] at h
    split at h
    · simp only [List.mem_cons] at h ⊢
      exact h
    · split at h
      · simp only [List.mem_cons] at h ⊢
        rcases h with h | h
        · exact .inl h
        · exact .inr (.inr h)
      · simp only [List.mem_cons] at h ⊢
        rcases h with h | h
        · exact .inr (.inl h)
        · exact (ih h).imp_right .inr

theorem Store.rising_put {m : Store α} (h : Store.Rising m) (a : Nat) (v : α) :
    Store.Rising (Store.put m a v) := by
  induction m with
  | nil => simp [Store.put, Store.Rising]
  | cons d m ih =>
    obtain ⟨k, w⟩ := d
    obtain ⟨hk, hm⟩ := List.pairwise_cons.mp h
    simp only [Store.put]
    split
    · refine List.pairwise_cons.mpr ⟨fun c hc => ?_, h⟩
      rcases List.mem_cons.mp hc with rfl | hc
      · assumption
      · exact Nat.lt_trans (by assumption) (hk c hc)
    · split
      · subst_vars
        exact List.pairwise_cons.mpr ⟨hk, hm⟩
      · refine List.pairwise_cons.mpr ⟨fun c hc => ?_, ih hm⟩
        rcases Store.mem_put hc with rfl | hc
        · show k < a
          omega
        · exact hk c hc

/-- Every written slot is still written after a write. -/
theorem Store.find_put_isSome {m : Store α} {a b : Nat} {v : α} (h : ∃ w, Store.find m b = some w) :
    ∃ w, Store.find (Store.put m a v) b = some w := by
  rw [Store.find_put]
  split
  · exact ⟨v, rfl⟩
  · exact h

theorem Store.mem_of_find {m : Store α} {a : Nat} {v : α} (h : Store.find m a = some v) : (a, v) ∈ m := by
  induction m with
  | nil => simp at h
  | cons d m ih =>
    obtain ⟨k, w⟩ := d
    simp only [Store.find] at h
    split at h
    · simp_all
    · exact List.mem_cons_of_mem _ (ih h)

theorem Store.find_eq_none {m : Store α} {a : Nat} (h : ∀ c ∈ m, c.1 ≠ a) : Store.find m a = none := by
  cases hf : Store.find m a with
  | none => rfl
  | some v => exact absurd rfl (h _ (Store.mem_of_find hf))

/-- In canonical form every entry is the one its key finds. -/
theorem Store.find_of_mem {m : Store α} (h : Store.Rising m) {c : Nat × α} (hc : c ∈ m) :
    Store.find m c.1 = some c.2 := by
  induction m with
  | nil => simp at hc
  | cons d m ih =>
    obtain ⟨hd, hm⟩ := List.pairwise_cons.mp h
    obtain ⟨k, w⟩ := d
    simp only [Store.find]
    rcases List.mem_cons.mp hc with rfl | hc
    · simp
    · have := hd c hc
      rw [if_neg (by simp only at this; omega), ih hm hc]

/-- The canonical form is canonical: tables that read alike are the same list. -/
theorem Store.ext_of_find {m n : Store α} (hm : Store.Rising m) (hn : Store.Rising n)
    (h : ∀ a, Store.find m a = Store.find n a) : m = n := by
  refine List.Perm.eq_of_pairwise (le := fun x y => x.1 < y.1) (fun a b _ _ h₁ h₂ => by omega) hm hn ?_
  refine (List.perm_ext_iff_of_nodup ?_ ?_).mpr fun c => ?_
  · exact hm.imp fun h e => by simp [e] at h
  · exact hn.imp fun h e => by simp [e] at h
  · constructor
    · intro hc
      exact Store.mem_of_find (by rw [← h, Store.find_of_mem hm hc])
    · intro hc
      exact Store.mem_of_find (by rw [h, Store.find_of_mem hn hc])

end

theorem Memory.read_write (m : Memory) (a x : Nat) (b : Byte) :
    Memory.read (Memory.write m a b) x = if x = a then some b else Memory.read m x :=
  Store.find_put m a x b

theorem Memory.write_wf {m : Memory} (h : Memory.wf m) (a : Nat) (b : Byte) : Memory.wf (Memory.write m a b) :=
  Store.rising_put h a b

theorem Memory.writeList_wf {m : Memory} (h : Memory.wf m) (a : Nat) (bs : List Byte) :
    Memory.wf (Memory.writeList m a bs) := by
  induction bs generalizing m a with
  | nil => exact h
  | cons b bs ih => exact ih (Memory.write_wf h a b) (a + 1)

/-- What each address reads after a list of bytes was written from `a` up. -/
theorem Memory.read_writeList (m : Memory) (a x : Nat) (bs : List Byte) :
    Memory.read (Memory.writeList m a bs) x
      = if a ≤ x ∧ x < a + bs.length then bs[x - a]? else Memory.read m x := by
  induction bs generalizing m a with
  | nil =>
    rw [if_neg (by simp only [List.length_nil]; omega)]
    rfl
  | cons b bs ih =>
    simp only [Memory.writeList, ih, Memory.read_write, List.length_cons]
    by_cases h : a + 1 ≤ x ∧ x < a + 1 + bs.length
    · rw [if_pos h, if_pos (by omega), show x - a = (x - (a + 1)) + 1 by omega, List.getElem?_cons_succ]
    · rw [if_neg h]
      by_cases hx : x = a
      · subst hx
        rw [if_pos rfl, if_pos (by omega)]
        simp
      · rw [if_neg hx, if_neg (by omega)]

/-- Outside the written bytes, a list write leaves every address as it read. -/
theorem Memory.read_writeList_outside (m : Memory) {a x : Nat} {bs : List Byte}
    (h : x < a ∨ a + bs.length ≤ x) :
    Memory.read (Memory.writeList m a bs) x = Memory.read m x := by
  rw [Memory.read_writeList, if_neg (by omega)]

theorem Memory.mem_writeList {m : Memory} {a : Nat} {bs : List Byte} {c : Host.Cell}
    (h : c ∈ Memory.writeList m a bs) : (a ≤ c.1 ∧ c.1 < a + bs.length) ∨ c ∈ m := by
  induction bs generalizing m a with
  | nil => exact .inr h
  | cons b bs ih =>
    rcases ih h with h | h
    · exact .inl (by simp only [List.length_cons]; omega)
    · rcases Store.mem_put h with rfl | h
      · exact .inl (by simp only [List.length_cons]; omega)
      · exact .inr h

theorem Memory.writeList_append (m : Memory) (a : Nat) (bs cs : List Byte) :
    Memory.writeList m a (bs ++ cs) = Memory.writeList (Memory.writeList m a bs) (a + bs.length) cs := by
  induction bs generalizing m a with
  | nil => rfl
  | cons b bs ih =>
    simp only [List.cons_append, Memory.writeList, ih, List.length_cons]
    congr 1
    omega

/-- A range is readable exactly when each of its bytes was written. -/
theorem Memory.readList_eq_some {m : Memory} {a n : Nat} {bs : List Byte} :
    Memory.readList m a n = some bs ↔ bs.length = n ∧ ∀ i, i < n → Memory.read m (a + i) = bs[i]? := by
  induction n generalizing a bs with
  | zero =>
    simp only [Memory.readList, Option.some.injEq]
    constructor
    · rintro rfl
      simp
    · rintro ⟨h, -⟩
      exact (List.length_eq_zero_iff.mp h).symm
  | succ n ih =>
    simp only [Memory.readList]
    constructor
    · intro h
      split at h
      case h_2 => cases h
      case h_1 b cs hb hcs =>
        obtain rfl := Option.some.inj h
        obtain ⟨hl, hr⟩ := ih.mp hcs
        refine ⟨by simp [hl], fun i hi => ?_⟩
        cases i with
        | zero => simpa using hb
        | succ i => rw [List.getElem?_cons_succ, ← hr i (by omega)]; congr 1; omega
    · rintro ⟨hl, hr⟩
      cases bs with
      | nil => simp at hl
      | cons b bs =>
        have h0 : Memory.read m a = some b := by simpa using hr 0 (by omega)
        have ht : Memory.readList m (a + 1) n = some bs := by
          refine ih.mpr ⟨by simpa using hl, fun i hi => ?_⟩
          have := hr (i + 1) (by omega)
          rw [List.getElem?_cons_succ] at this
          rw [← this]
          congr 1
          omega
        rw [h0, ht]

end Sys2Proof.Machine
end

