-- ==== Sys2Proof/Laws/Ops.lean ====
section
/-! SUPPORT. What each shared operation can do, said once: the range check, reading BUF as data, the two ports, and the loops that
move bytes with them. -/

namespace Sys2Proof.Machine

/-! ### Faults and ranges -/

theorem raise_eq {α : Type} (c : FaultCode) (x y : Nat) (s : State) :
    (raise c x y s : Flow α) = .raised (s.recordFault c (BitVec.ofNat 32 x) (BitVec.ofNat 32 y)) := rfl

@[simp] theorem raise_outcome (c : FaultCode) (x y : Nat) (s : State) :
    (raise c x y s : Flow Unit).outcome
      = .next (s.recordFault c (BitVec.ofNat 32 x) (BitVec.ofNat 32 y)) := rfl

@[simp] theorem raise_bind {α β : Type} (c : FaultCode) (x y : Nat) (s : State) (k : α → State → Flow β) :
    (raise c x y s : Flow α).bind k = raise c x y s := rfl

@[simp] theorem raise_all {α : Type} {P : α → State → Prop} {Q : State → Prop} {E : Fault → Prop} (c : FaultCode)
    (x y : Nat) (s : State) :
    (raise c x y s : Flow α).All P Q E = Q (s.recordFault c (BitVec.ofNat 32 x) (BitVec.ofNat 32 y)) := rfl

/-- No fault code is 0, so recording one locks the block. -/
theorem FaultCode.code_ne_zero (c : FaultCode) : c.code.setWidth 32 ≠ (0 : Word) := by
  cases c <;> decide

theorem rangeCheck_pass {a n : Nat} {s : State} (h : a + n ≤ s.bufBytes) : rangeCheck a n s = .done () s :=
  if_neg (by omega)

theorem rangeCheck_fail {a n : Nat} {s : State} (h : a + n > s.bufBytes) :
    rangeCheck a n s = raise .bufRange a n s :=
  if_pos h

/-- A range check goes on unchanged, inside BUF, or records BUF_RANGE. -/
theorem rangeCheck_all {a n : Nat} {s : State} {Q : State → Prop} {E : Fault → Prop}
    (h : Q (s.recordFault .bufRange (BitVec.ofNat 32 a) (BitVec.ofNat 32 n))) :
    (rangeCheck a n s).All (fun _ t => t = s ∧ a + n ≤ s.bufBytes) Q E := by
  by_cases hr : a + n ≤ s.bufBytes
  · rw [rangeCheck_pass hr]
    exact ⟨rfl, hr⟩
  · rw [rangeCheck_fail (by omega)]
    exact h

/-! ### Reading BUF as data -/

theorem readByte_some {a : Nat} {s : State} {b : Byte} (h : Memory.read s.buf a = some b) :
    readByte a s = .done b s := by
  simp [readByte, h]

theorem readByte_none {a : Nat} {s : State} (h : Memory.read s.buf a = none) :
    readByte a s = .stop (.readUnwritten a) := by
  simp [readByte, h]

/-- Reading a byte changes nothing, and stops only where the byte was never written. -/
theorem readByte_all (a : Nat) (s : State) {Q : State → Prop} :
    (readByte a s).All (fun b t => t = s ∧ Memory.read s.buf a = some b) Q
      (fun f => ∃ x, f = .readUnwritten x) := by
  cases h : Memory.read s.buf a with
  | none => rw [readByte_none h]; exact ⟨a, rfl⟩
  | some b => rw [readByte_some h]; exact ⟨rfl, rfl⟩

theorem readBytes_some {a n : Nat} {s : State} {bs : List Byte} (h : Memory.readList s.buf a n = some bs) :
    readBytes a n s = .done bs s := by
  induction n generalizing a bs with
  | zero =>
    obtain rfl := Option.some.inj h
    rfl
  | succ n ih =>
    simp only [Memory.readList] at h
    split at h
    case h_2 => cases h
    case h_1 b cs hb hcs =>
      obtain rfl := Option.some.inj h
      simp [readBytes, readByte_some hb, ih hcs]

theorem readBytes_none {a n : Nat} {s : State} (h : Memory.readList s.buf a n = none) :
    ∃ x, readBytes a n s = .stop (.readUnwritten x) := by
  induction n generalizing a with
  | zero => simp [Memory.readList] at h
  | succ n ih =>
    cases hb : Memory.read s.buf a with
    | none => exact ⟨a, by simp [readBytes, readByte_none hb]⟩
    | some b =>
      have : Memory.readList s.buf (a + 1) n = none := by
        cases ht : Memory.readList s.buf (a + 1) n with
        | none => rfl
        | some bs => simp [Memory.readList, hb, ht] at h
      obtain ⟨x, hx⟩ := ih this
      exact ⟨x, by simp [readBytes, readByte_some hb, hx]⟩

/-- Reading a range changes nothing, and stops only where a byte of it was never written. -/
theorem readBytes_all (a n : Nat) (s : State) {Q : State → Prop} :
    (readBytes a n s).All (fun bs t => t = s ∧ Memory.readList s.buf a n = some bs) Q
      (fun f => ∃ x, f = .readUnwritten x) := by
  cases h : Memory.readList s.buf a n with
  | none =>
    obtain ⟨x, hx⟩ := readBytes_none h
    rw [hx]
    exact ⟨x, rfl⟩
  | some bs => rw [readBytes_some h]; exact ⟨rfl, rfl⟩

/-- A range whose byte `j` was never written, with every byte before it written, stops there. -/
theorem readBytes_stop {a n j : Nat} {s : State} {bs : List Byte} (hj : j < n)
    (h : Memory.readList s.buf a j = some bs) (hn : Memory.read s.buf (a + j) = none) :
    readBytes a n s = .stop (.readUnwritten (a + j)) := by
  induction n generalizing a j bs with
  | zero => omega
  | succ n ih =>
    simp only [readBytes]
    cases j with
    | zero => rw [readByte_none (by simpa using hn)]; rfl
    | succ j =>
      simp only [Memory.readList] at h
      split at h
      case h_2 => cases h
      case h_1 b cs hb hcs =>
        have hja : a + (j + 1) = a + 1 + j := by omega
        rw [readByte_some hb, Flow.bind_done, ih (by omega) hcs (by rw [← hja]; exact hn), hja]
        rfl

theorem Memory.readList_length {m : Memory} {a n : Nat} {bs : List Byte} (h : Memory.readList m a n = some bs) :
    bs.length = n :=
  (Memory.readList_eq_some.mp h).1

/-- A written range reads as its first part and its second. -/
theorem Memory.readList_add {m : Memory} {a k l : Nat} {bs : List Byte} (h : Memory.readList m a (k + l) = some bs) :
    Memory.readList m a k = some (bs.take k) ∧ Memory.readList m (a + k) l = some (bs.drop k) := by
  obtain ⟨hl, hr⟩ := Memory.readList_eq_some.mp h
  constructor
  · refine Memory.readList_eq_some.mpr ⟨by simp; omega, fun i hi => ?_⟩
    rw [hr i (by omega), List.getElem?_take_of_lt hi]
  · refine Memory.readList_eq_some.mpr ⟨by simp; omega, fun i hi => ?_⟩
    rw [List.getElem?_drop, ← hr (k + i) (by omega), Nat.add_assoc]

/-- A range just written reads back as it was written. -/
theorem Memory.readList_writeList (m : Memory) (a : Nat) (bs : List Byte) :
    Memory.readList (Memory.writeList m a bs) a bs.length = some bs := by
  refine Memory.readList_eq_some.mpr ⟨rfl, fun i hi => ?_⟩
  rw [Memory.read_writeList, if_pos (by omega), Nat.add_sub_cancel_left]

/-! ### The input port -/

theorem inByte_cons {exp got : Nat} {s : State} {b : Byte} {rest : List Byte} (h : s.inBytes = b :: rest) :
    inByte exp got s = .done b (s.tookByte rest) := by
  simp [inByte, h]

theorem inByte_eof {exp got : Nat} {s : State} (h : s.inBytes = []) (he : s.inEnd = .eof) :
    inByte exp got s = raise .truncated exp got s := by
  simp [inByte, h, he]

theorem inByte_err {exp got : Nat} {s : State} {e : Word} (h : s.inBytes = []) (he : s.inEnd = .err e) :
    inByte exp got s = raise .inIoError e.toNat s.inCount.toNat s := by
  simp [inByte, h, he]

/-- Taking a byte from IN takes its first, or records a fault and changes nothing else. -/
theorem inByte_all {exp got : Nat} {s : State} {Q : State → Prop} {E : Fault → Prop}
    (h : s.inBytes = [] → ∀ c x y, Q (s.recordFault c x y)) :
    (inByte exp got s).All (fun b t => ∃ rest, s.inBytes = b :: rest ∧ t = s.tookByte rest) Q E := by
  cases hb : s.inBytes with
  | cons b rest => rw [inByte_cons hb]; exact ⟨rest, rfl, rfl⟩
  | nil =>
    cases he : s.inEnd with
    | eof => rw [inByte_eof hb he]; exact h hb _ _ _
    | err e => rw [inByte_err hb he]; exact h hb _ _ _

/-! ### The output port -/

theorem outByte_accept {b : Byte} {s : State} (h : Store.find s.outRefusals s.outBytes.length = none) :
    outByte b s = .done () (s.gaveByte b) := by
  simp [outByte, h]

theorem outByte_refuse {b : Byte} {s : State} {e : Word}
    (h : Store.find s.outRefusals s.outBytes.length = some e) :
    outByte b s = raise .outIoError e.toNat s.outCount.toNat s := by
  simp [outByte, h]

/-- Giving a byte to OUT appends it, or records OUT_IO_ERROR and changes nothing else. -/
theorem outByte_all {b : Byte} {s : State} {Q : State → Prop} {E : Fault → Prop}
    (h : ∀ x y, Q (s.recordFault .outIoError x y)) :
    (outByte b s).All (fun _ t => t = s.gaveByte b) Q E := by
  cases hf : Store.find s.outRefusals s.outBytes.length with
  | none => rw [outByte_accept hf]; rfl
  | some e => rw [outByte_refuse hf]; exact h _ _

/-- OUT with a list of bytes accepted. -/
def State.gaveBytes (s : State) (bs : List Byte) : State :=
  { s with outBytes := s.outBytes ++ bs, outCount := s.outCount + BitVec.ofNat 32 bs.length }

theorem State.gaveBytes_nil (s : State) : s.gaveBytes [] = s := by
  simp [State.gaveBytes]

theorem State.gaveByte_gaveBytes (s : State) (b : Byte) (bs : List Byte) :
    (s.gaveByte b).gaveBytes bs = s.gaveBytes (b :: bs) := by
  simp only [State.gaveBytes, State.gaveByte, List.append_assoc, List.singleton_append, List.length_cons,
    State.mk.injEq, true_and, and_true]
  rw [BitVec.add_assoc, BitVec.ofNat_add, BitVec.add_comm (1 : Word)]
  rfl

theorem State.outAccepts_mono {s : State} {m n : Nat} (h : s.outAccepts n) (hm : m ≤ n) : s.outAccepts m :=
  fun j hj => h j (by omega)

theorem State.outAccepts_gaveBytes {s : State} {n : Nat} {bs : List Byte} (h : s.outAccepts (bs.length + n)) :
    (s.gaveBytes bs).outAccepts n := fun j hj => by
  have := h (bs.length + j) (by omega)
  simpa [State.gaveBytes, Nat.add_assoc] using this

/-- OUT takes a list of bytes where it accepts each. -/
theorem forBytes_outByte {s : State} {bs : List Byte} (h : s.outAccepts bs.length) :
    forBytes outByte bs s = .done () (s.gaveBytes bs) := by
  induction bs generalizing s with
  | nil => simp [State.gaveBytes_nil]
  | cons b bs ih =>
    rw [forBytes_cons, outByte_accept (by simpa using h 0 (by simp))]
    have h' : (s.gaveByte b).outAccepts bs.length := fun j hj => by
      have := h (j + 1) (by simp; omega)
      simpa [Nat.add_assoc, Nat.add_comm 1 j] using this
    rw [Flow.bind_done, ih h', State.gaveByte_gaveBytes]

end Sys2Proof.Machine
end

