-- ==== Sys2Proof/Laws/Inv.lean ====
section
/-! SUPPORT. The unit invariants under the updates of State that leave the units alone, or change one table or register of them. -/

namespace Sys2Proof.Machine

/-- The open-stream invariants see only the coding state and the dictionary. -/
theorem State.OpenInv.of_eq {s t : State} (h : s.OpenInv) (h₁ : t.lzwMin = s.lzwMin) (h₂ : t.lzwWidth = s.lzwWidth)
    (h₃ : t.lzwNext = s.lzwNext) (h₄ : t.lzwPrev = s.lzwPrev) (h₅ : t.lzwPrevValid = s.lzwPrevValid)
    (h₆ : t.lzwPrefix = s.lzwPrefix) (h₇ : t.lzwSuffix = s.lzwSuffix) : t.OpenInv := by
  obtain ⟨a, b, c, d, e, f, g⟩ := h
  constructor <;>
    simpa only [State.DataCode, State.Defined, State.clearCode, h₁, h₂, h₃, h₄, h₅, h₆, h₇] using ‹_›

/-- The LZW part of two states is the same. -/
structure SameLzw (s t : State) : Prop where
  st : t.lzwState = s.lzwState
  min : t.lzwMin = s.lzwMin
  width : t.lzwWidth = s.lzwWidth
  next : t.lzwNext = s.lzwNext
  prev : t.lzwPrev = s.lzwPrev
  prevValid : t.lzwPrevValid = s.lzwPrevValid
  bitbuf : t.lzwBitbuf = s.lzwBitbuf
  nbits : t.lzwNbits = s.lzwNbits
  prefixes : t.lzwPrefix = s.lzwPrefix
  suffixes : t.lzwSuffix = s.lzwSuffix
  pend : t.lzwPend = s.lzwPend

theorem SameLzw.refl (s : State) : SameLzw s s := ⟨rfl, rfl, rfl, rfl, rfl, rfl, rfl, rfl, rfl, rfl, rfl⟩

theorem SameLzw.trans {s t u : State} (h : SameLzw s t) (h' : SameLzw t u) : SameLzw s u :=
  ⟨h'.st.trans h.st, h'.min.trans h.min, h'.width.trans h.width, h'.next.trans h.next, h'.prev.trans h.prev,
    h'.prevValid.trans h.prevValid, h'.bitbuf.trans h.bitbuf, h'.nbits.trans h.nbits,
    h'.prefixes.trans h.prefixes, h'.suffixes.trans h.suffixes, h'.pend.trans h.pend⟩

/-- The BSR part of two states is the same. -/
structure SameBsr (s t : State) : Prop where
  buf : t.bsrBuf = s.bsrBuf
  len : t.bsrLen = s.bsrLen
  pos : t.bsrPos = s.bsrPos

/-- BUF and its size are the same. -/
structure SameBuf (s t : State) : Prop where
  buf : t.buf = s.buf
  size : t.bufBytes = s.bufBytes

/-- The invariants of the three units, one at a time. -/
theorem State.UnitInv.of_parts {s t u v : State} (hb : s.UnitInv) (hr : t.UnitInv) (hl : u.UnitInv) (e₁ : SameBuf s v)
    (e₂ : SameBsr t v) (e₃ : SameLzw u v) : v.UnitInv where
  bufSize := by simpa only [e₁.size] using hb.bufSize
  bufForm := by simpa only [e₁.buf] using hb.bufForm
  bufInside := by simpa only [e₁.buf, e₁.size] using hb.bufInside
  bsrRange := by simpa only [e₂.len, e₂.pos] using hr.bsrRange
  bsrForm := by simpa only [e₂.buf] using hr.bsrForm
  bsrFilled := by simpa only [e₂.len, e₂.buf] using hr.bsrFilled
  prefixForm := by simpa only [e₃.prefixes] using hl.prefixForm
  suffixForm := by simpa only [e₃.suffixes] using hl.suffixForm
  lzwSizes := by simpa only [e₃.min, e₃.width, e₃.next, e₃.prev] using hl.lzwSizes
  accumulator := by simpa only [e₃.nbits, e₃.bitbuf] using hl.accumulator
  pendSize := by simpa only [e₃.pend] using hl.pendSize
  opened := fun h =>
    (hl.opened (by rw [← e₃.st]; exact h)).of_eq e₃.min e₃.width e₃.next e₃.prev e₃.prevValid e₃.prefixes e₃.suffixes

/-- An update that touches no unit keeps the invariants. -/
theorem State.UnitInv.of_same {s v : State} (h : s.UnitInv) (e₁ : SameBuf s v) (e₂ : SameBsr s v) (e₃ : SameLzw s v) :
    v.UnitInv :=
  .of_parts h h h e₁ e₂ e₃

theorem State.UnitInv.recordFault {s : State} (h : s.UnitInv) (c : FaultCode) (x y : Word) :
    (s.recordFault c x y).UnitInv :=
  h.of_same ⟨rfl, rfl⟩ ⟨rfl, rfl, rfl⟩ ⟨rfl, rfl, rfl, rfl, rfl, rfl, rfl, rfl, rfl, rfl, rfl⟩

theorem State.UnitInv.setRes {s : State} (h : s.UnitInv) (v : Word) : (s.setRes v).UnitInv :=
  h.of_same ⟨rfl, rfl⟩ ⟨rfl, rfl, rfl⟩ ⟨rfl, rfl, rfl, rfl, rfl, rfl, rfl, rfl, rfl, rfl, rfl⟩

theorem State.UnitInv.setCrc {s : State} (h : s.UnitInv) (v : Word) : (s.setCrc v).UnitInv :=
  h.of_same ⟨rfl, rfl⟩ ⟨rfl, rfl, rfl⟩ ⟨rfl, rfl, rfl, rfl, rfl, rfl, rfl, rfl, rfl, rfl, rfl⟩

theorem State.UnitInv.tookByte {s : State} (h : s.UnitInv) (rest : List Byte) : (s.tookByte rest).UnitInv :=
  h.of_same ⟨rfl, rfl⟩ ⟨rfl, rfl, rfl⟩ ⟨rfl, rfl, rfl, rfl, rfl, rfl, rfl, rfl, rfl, rfl, rfl⟩

theorem State.UnitInv.gaveByte {s : State} (h : s.UnitInv) (b : Byte) : (s.gaveByte b).UnitInv :=
  h.of_same ⟨rfl, rfl⟩ ⟨rfl, rfl, rfl⟩ ⟨rfl, rfl, rfl, rfl, rfl, rfl, rfl, rfl, rfl, rfl, rfl⟩

theorem State.UnitInv.closeBsr {s : State} (h : s.UnitInv) : s.closeBsr.UnitInv :=
  h.of_same ⟨rfl, rfl⟩ ⟨rfl, rfl, rfl⟩ ⟨rfl, rfl, rfl, rfl, rfl, rfl, rfl, rfl, rfl, rfl, rfl⟩

theorem State.UnitInv.writeBufList {s : State} (h : s.UnitInv) {a : Nat} {bs : List Byte}
    (ha : bs.length ≠ 0 → a + bs.length ≤ s.bufBytes) : (s.writeBufList a bs).UnitInv where
  bufSize := h.bufSize
  bufForm := Memory.writeList_wf h.bufForm a bs
  bufInside := fun c hc => by
    rcases Memory.mem_writeList hc with hc | hc
    · have := ha (by omega)
      simp only [State.writeBufList_bufBytes]
      omega
    · exact h.bufInside c hc
  bsrRange := h.bsrRange
  bsrForm := h.bsrForm
  bsrFilled := h.bsrFilled
  prefixForm := h.prefixForm
  suffixForm := h.suffixForm
  lzwSizes := h.lzwSizes
  accumulator := h.accumulator
  pendSize := h.pendSize
  opened := fun hn => (h.opened hn).of_eq rfl rfl rfl rfl rfl rfl rfl

theorem State.UnitInv.writeBuf {s : State} (h : s.UnitInv) {a : Nat} (b : Byte) (ha : a < s.bufBytes) :
    (s.writeBuf a b).UnitInv :=
  h.writeBufList (a := a) (bs := [b]) (by simpa using ha)

theorem State.UnitInv.writeBsr {s : State} (h : s.UnitInv) {i : Nat} (b : Byte) (hi : i < 255) :
    (s.writeBsr i b).UnitInv where
  bufSize := h.bufSize
  bufForm := h.bufForm
  bufInside := h.bufInside
  bsrRange := h.bsrRange
  bsrForm := ⟨Store.rising_put h.bsrForm.1 i b, fun c hc => by
    rcases Store.mem_put hc with rfl | hc
    · exact hi
    · exact h.bsrForm.2 c hc⟩
  bsrFilled := fun j hj => Store.find_put_isSome (h.bsrFilled j hj)
  prefixForm := h.prefixForm
  suffixForm := h.suffixForm
  lzwSizes := h.lzwSizes
  accumulator := h.accumulator
  pendSize := h.pendSize
  opened := fun hn => (h.opened hn).of_eq rfl rfl rfl rfl rfl rfl rfl

/-- A new position in a sub-block whose bytes are all in `bsr_buf`. -/
theorem State.UnitInv.setBsr {s : State} (h : s.UnitInv) {len pos : Nat} (hp : pos ≤ len) (hl : len ≤ 255)
    (hf : ∀ i, i < len → ∃ b, Store.find s.bsrBuf i = some b) : (s.setBsr len pos).UnitInv where
  bufSize := h.bufSize
  bufForm := h.bufForm
  bufInside := h.bufInside
  bsrRange := ⟨hp, hl⟩
  bsrForm := h.bsrForm
  bsrFilled := hf
  prefixForm := h.prefixForm
  suffixForm := h.suffixForm
  lzwSizes := h.lzwSizes
  accumulator := h.accumulator
  pendSize := h.pendSize
  opened := fun hn => (h.opened hn).of_eq rfl rfl rfl rfl rfl rfl rfl

theorem State.UnitInv.dropBlock {s : State} (h : s.UnitInv) : s.dropBlock.UnitInv :=
  (h.setBsr (Nat.le_refl _) h.bsrRange.2 h.bsrFilled).of_same ⟨rfl, rfl⟩ ⟨rfl, rfl, rfl⟩ ⟨rfl, rfl, rfl, rfl, rfl, rfl, rfl, rfl, rfl, rfl, rfl⟩

theorem State.UnitInv.openBsr {s : State} (h : s.UnitInv) : s.openBsr.UnitInv :=
  (h.setBsr (len := 0) (pos := 0) (Nat.le_refl _) (by omega) (fun _ hi => absurd hi (by omega))).of_same
    ⟨rfl, rfl⟩ ⟨rfl, rfl, rfl⟩ ⟨rfl, rfl, rfl, rfl, rfl, rfl, rfl, rfl, rfl, rfl, rfl⟩

theorem State.UnitInv.setPos {s : State} (h : s.UnitInv) {p : Nat} (hp : p ≤ s.bsrLen) :
    State.UnitInv { s with bsrPos := p } :=
  (h.setBsr hp h.bsrRange.2 h.bsrFilled).of_same ⟨rfl, rfl⟩ ⟨rfl, rfl, rfl⟩ ⟨rfl, rfl, rfl, rfl, rfl, rfl, rfl, rfl, rfl, rfl, rfl⟩

/-- The LZW unit closed: nothing pending, an empty accumulator. -/
theorem State.UnitInv.closeLzw {s : State} (h : s.UnitInv) : s.closeLzw.UnitInv where
  bufSize := h.bufSize
  bufForm := h.bufForm
  bufInside := h.bufInside
  bsrRange := h.bsrRange
  bsrForm := h.bsrForm
  bsrFilled := h.bsrFilled
  prefixForm := h.prefixForm
  suffixForm := h.suffixForm
  lzwSizes := h.lzwSizes
  accumulator := by simp
  pendSize := by simp
  opened := fun hn => absurd rfl hn

end Sys2Proof.Machine
end

