-- ==== Sys2Proof/Laws/Stream.lean ====
section
/-! SUPPORT. What the block stream reader can do: what a fill, a byte and a drain do on a stream that is whole and on one that IN's end
cuts short, what they keep in every case, and that each uses up some of the stream. -/

namespace Sys2Proof.Machine

/-- A port counter after one more byte and then `k` (rules R49 and R50). -/
theorem count_succ (x : Word) (k : Nat) : x + 1 + BitVec.ofNat 32 k = x + BitVec.ofNat 32 (k + 1) := by
  rw [BitVec.add_assoc, BitVec.ofNat_add, BitVec.add_comm (1 : Word)]
  rfl

/-! ### The loop that moves IN bytes into BUF -/

/-- The body of IN_READ's loop (rule R163). -/
theorem inRead_loop {dst n k i : Nat} {s : State} (h : k ≤ s.inBytes.length) :
    forUp (fun i t => (inByte n i t).bind fun b t' => .done () (t'.writeBuf (dst + i) b)) k i s
      = .done () { s with
          buf := Memory.writeList s.buf (dst + i) (s.inBytes.take k)
          inBytes := s.inBytes.drop k
          inCount := s.inCount + BitVec.ofNat 32 k } := by
  induction k generalizing i s with
  | zero => simp [Memory.writeList]
  | succ k ih =>
    cases hb : s.inBytes with
    | nil => simp [hb] at h
    | cons b rest =>
      rw [forUp_succ, inByte_cons hb]
      simp only [Flow.bind_done]
      rw [ih (by simp [hb] at h ⊢; omega)]
      simp only [State.writeBuf, State.tookByte, List.take_succ_cons, List.drop_succ_cons, Memory.writeList,
        Flow.done.injEq, true_and, State.mk.injEq, and_true]
      exact ⟨count_succ _ _, by rw [Nat.add_assoc]⟩

/-- Taking a byte from an IN that has none left raises, whatever was to follow. -/
theorem inByte_end {exp got : Nat} {s : State} {k k' : Byte → State → Flow Unit} (h : s.inBytes = []) :
    (inByte exp got s).bind k = (inByte exp got s).bind k' := by
  cases he : s.inEnd with
  | eof => rw [inByte_eof h he]; rfl
  | err e => rw [inByte_err h he]; rfl

/-- IN_READ's loop where IN ends first: what came is in BUF, and the next take meets IN's end (rules R87 and R163). -/
theorem inRead_loop_end {dst n k : Nat} {s : State} (h : s.inBytes.length < k) :
    forUp (fun i t => (inByte n i t).bind fun b t' => .done () (t'.writeBuf (dst + i) b)) k 0 s
      = (inByte n s.inBytes.length { s with
          buf := Memory.writeList s.buf dst s.inBytes
          inBytes := []
          inCount := s.inCount + BitVec.ofNat 32 s.inBytes.length }).bind fun _ t => .done () t := by
  obtain ⟨l, rfl⟩ : ∃ l, k = s.inBytes.length + (l + 1) := ⟨k - s.inBytes.length - 1, by omega⟩
  rw [forUp_add, inRead_loop (Nat.le_refl _), Flow.bind_done, forUp_succ, Flow.bind_assoc, Nat.zero_add, Nat.add_zero,
    List.take_length, List.drop_length]
  exact inByte_end rfl

/-! ### Filling the buffer -/

/-- The body of BsrFill's loop (rule R161) where IN has the bytes. -/
theorem bsrFill_loop {l : Nat} {d rest : List Byte} {i : Nat} {s : State} (h : s.inBytes = d ++ rest) :
    forUp (fun i t => (inByte l i t).bind fun b t' => .done () (t'.writeBsr i b)) d.length i s
      = .done () { s with
          bsrBuf := fillTable s.bsrBuf i d
          inBytes := rest
          inCount := s.inCount + BitVec.ofNat 32 d.length } := by
  induction d generalizing i s with
  | nil =>
    obtain rfl : s.inBytes = rest := by simpa using h
    simp [fillTable]
  | cons b d ih =>
    rw [List.length_cons, forUp_succ, inByte_cons (by rw [h]; rfl)]
    simp only [Flow.bind_done]
    rw [ih (by simp)]
    simp only [State.writeBsr, State.tookByte, fillTable, Flow.done.injEq, true_and, State.mk.injEq, and_true]
    exact count_succ _ _

/-- A length byte 0 closes the sequence (rule R161). -/
theorem bsrFill_terminator {s : State} {rest : List Byte} (h : s.inBytes = 0 :: rest) :
    bsrFill s = .done () (s.tookByte rest).closeBsr := by
  simp [bsrFill, inByte_cons h]

/-- The number a length byte stands for. -/
theorem lengthByte {n : Nat} (h : n ≤ 255) : (BitVec.ofNat 8 n).toNat = n := by
  simp only [BitVec.toNat_ofNat]
  omega

/-- A whole sub-block is loaded and none of it served (rule R161). -/
theorem bsrFill_block {s : State} {d rest : List Byte} (h₁ : 1 ≤ d.length) (h₂ : d.length ≤ 255)
    (h : s.inBytes = BitVec.ofNat 8 d.length :: d ++ rest) :
    bsrFill s = .done () { s with
      bsrBuf := fillTable s.bsrBuf 0 d
      bsrLen := d.length
      bsrPos := 0
      inBytes := rest
      inCount := s.inCount + BitVec.ofNat 32 (d.length + 1) } := by
  have hl := lengthByte h₂
  have hz : (BitVec.ofNat 8 d.length) ≠ 0 := fun e => by
    rw [e] at hl
    simp at hl
    omega
  rw [bsrFill, inByte_cons (by rw [h]; rfl)]
  simp only [Flow.bind_done, if_neg hz, hl]
  rw [bsrFill_loop (d := d) (rest := rest) (by simp)]
  simp only [Flow.bind_done, State.setBsr, State.tookByte, Flow.done.injEq, true_and, State.mk.injEq, and_true]
  exact count_succ _ _

/-- What each slot of `bsr_buf` holds after a sub-block was loaded from slot `i` up. -/
theorem find_fillTable (m : Store Byte) (d : List Byte) (i j : Nat) :
    Store.find (fillTable m i d) j = if i ≤ j ∧ j < i + d.length then d[j - i]? else Store.find m j := by
  induction d generalizing m i with
  | nil =>
    rw [if_neg (by simp only [List.length_nil]; omega)]
    rfl
  | cons b d ih =>
    rw [fillTable, ih, Store.find_put, List.length_cons]
    by_cases h : i + 1 ≤ j ∧ j < i + 1 + d.length
    · rw [if_pos h, if_pos (by omega), show j - i = (j - (i + 1)) + 1 by omega, List.getElem?_cons_succ]
    · rw [if_neg h]
      by_cases hx : j = i
      · subst hx
        rw [if_pos rfl, if_pos (by omega)]
        simp
      · rw [if_neg hx, if_neg (by omega)]

/-- The bytes of a sub-block just loaded, from its start. -/
theorem bsrSlice_fill {s : State} {m : Store Byte} {d : List Byte} {k : Nat} (h : s.bsrBuf = fillTable m 0 d)
    (hp : s.bsrPos = 0) (hk : k ≤ d.length) : s.bsrSlice k = d.take k := by
  refine List.ext_getElem (by simp [State.bsrSlice, hk]) fun i h₁ h₂ => ?_
  simp only [State.bsrSlice, List.length_map, List.length_range] at h₁
  simp only [State.bsrSlice, List.getElem_map, List.getElem_range, State.bsrByte, h, hp, find_fillTable,
    List.getElem_take]
  rw [if_pos (by omega), Nat.zero_add, Nat.sub_zero, List.getElem?_eq_getElem (by omega)]
  rfl

/-- Taking a byte from an IN that has none left records IN's end (rule R87). -/
theorem inByte_fails {exp got : Nat} {s : State} (h : s.inBytes = []) :
    inByte exp got s = .raised (s.cutFill exp got) := by
  cases he : s.inEnd with
  | eof =>
    rw [inByte_eof h he, raise_eq]
    simp [State.cutFill, State.recordFault, he, h, fillTable, FaultCode.code]
  | err e =>
    rw [inByte_err h he, raise_eq]
    simp [State.cutFill, State.recordFault, he, h, fillTable, FaultCode.code]

/-- A fill that IN's end cuts short: the bytes that came are taken and loaded, IN's end is recorded, and nothing else moves
(rules R87 and R161). -/
theorem bsrFill_fails {s : State} {exp got : Nat} (h : cutBlock exp got s.inBytes) :
    bsrFill s = .raised (s.cutFill exp got) := by
  rcases h with ⟨hb, rfl, rfl⟩ | ⟨d, rfl, hd, hl, hb⟩
  · rw [bsrFill, inByte_fails hb]
    rfl
  · have hl' := lengthByte hl
    have hz : BitVec.ofNat 8 exp ≠ 0 := fun e => by
      rw [e] at hl'
      simp at hl'
      omega
    rw [bsrFill, inByte_cons hb]
    simp only [Flow.bind_done, if_neg hz, hl']
    obtain ⟨k, rfl⟩ : ∃ k, exp = d.length + (k + 1) := ⟨exp - d.length - 1, by omega⟩
    rw [forUp_add, bsrFill_loop (d := d) (rest := []) (by simp), Flow.bind_done, forUp_succ, inByte_fails rfl]
    simp only [Flow.bind_raised, Nat.zero_add, State.cutFill, State.tookByte, hb, count_succ, List.tail_cons, List.tail_nil,
      List.length_cons, List.length_nil, fillTable, Flow.raised.injEq, State.mk.injEq, true_and, and_true]
    cases s.inEnd <;> simp

/-- What a part of a command that only reads the stream leaves alone. -/
def State.StreamFrame (s t : State) : Prop :=
  t = { s with
    bsrBuf := t.bsrBuf, bsrLen := t.bsrLen, bsrPos := t.bsrPos, bsrTerm := t.bsrTerm
    inBytes := t.inBytes, inCount := t.inCount
    fault := t.fault, finfo0 := t.finfo0, finfo1 := t.finfo1 }

theorem State.StreamFrame.refl (s : State) : s.StreamFrame s := rfl

theorem State.StreamFrame.trans {s t u : State} (h : s.StreamFrame t) (h' : t.StreamFrame u) : s.StreamFrame u := by
  unfold State.StreamFrame at *
  rw [h', h]

theorem State.StreamFrame.sameLzw {s t : State} (h : s.StreamFrame t) : SameLzw s t := by
  constructor <;> (rw [h])

theorem State.StreamFrame.sameBuf {s t : State} (h : s.StreamFrame t) : SameBuf s t := by
  constructor <;> (rw [h])

theorem State.StreamFrame.regs {s t : State} (h : s.StreamFrame t) :
    t.cmd = s.cmd ∧ t.a0 = s.a0 ∧ t.a1 = s.a1 ∧ t.a2 = s.a2 ∧ t.ctrl = s.ctrl ∧ t.res = s.res := by
  rw [h]
  exact ⟨rfl, rfl, rfl, rfl, rfl, rfl⟩

/-- A part that goes on has recorded no fault. -/
def State.SameFault (s t : State) : Prop :=
  t.fault = s.fault ∧ t.finfo0 = s.finfo0 ∧ t.finfo1 = s.finfo1

theorem State.SameFault.refl (s : State) : s.SameFault s := ⟨rfl, rfl, rfl⟩

theorem State.SameFault.trans {s t u : State} (h : s.SameFault t) (h' : t.SameFault u) : s.SameFault u :=
  ⟨h'.1.trans h.1, h'.2.1.trans h.2.1, h'.2.2.trans h.2.2⟩

/-- `t` is `s` or a later state, with a listed fault recorded and no reset since. -/
def State.Faulted (t : State) : Prop :=
  ∃ c : FaultCode, t.fault = c.code.setWidth 32

theorem State.faulted_recordFault (s : State) (c : FaultCode) (x y : Word) : (s.recordFault c x y).Faulted :=
  ⟨c, rfl⟩

/-- What a fill leaves where it goes on: the sequence closed with the buffer as it was, or a whole sub-block unserved. -/
structure FillPost (s t : State) : Prop where
  inv : t.UnitInv
  frame : s.StreamFrame t
  faults : s.SameFault t
  shorter : ∃ taken, taken ≠ [] ∧ s.inBytes = taken ++ t.inBytes
  left : t.bsrLeft + t.inBytes.length < s.inBytes.length
  shape : (t.bsrTerm = true ∧ t.bsrPos = s.bsrPos ∧ t.bsrLen = s.bsrLen)
    ∨ (t.bsrTerm = s.bsrTerm ∧ t.bsrPos = 0 ∧ 1 ≤ t.bsrLen)

/-- What a part of a command that reads the stream leaves where it raises a fault. -/
structure RaisePost (s t : State) : Prop where
  inv : t.UnitInv
  frame : s.StreamFrame t
  faulted : t.Faulted
  shorter : ∃ taken, s.inBytes = taken ++ t.inBytes

theorem RaisePost.after {s t u : State} (h : s.StreamFrame t) (hs : ∃ taken, s.inBytes = taken ++ t.inBytes)
    (h' : RaisePost t u) : RaisePost s u where
  inv := h'.inv
  frame := h.trans h'.frame
  faulted := h'.faulted
  shorter := by
    obtain ⟨a, ha⟩ := hs
    obtain ⟨b, hb⟩ := h'.shorter
    exact ⟨a ++ b, by rw [ha, hb, List.append_assoc]⟩

/-- A refused take records its fault and leaves the rest. -/
theorem inByte_raise {s : State} (h : s.UnitInv) (c : FaultCode) (x y : Word) : RaisePost s (s.recordFault c x y) where
  inv := h.recordFault c x y
  frame := rfl
  faulted := s.faulted_recordFault c x y
  shorter := ⟨[], rfl⟩

/-- The states inside BsrFill's loop, `i` bytes of the sub-block loaded. -/
structure FillLoop (s : State) (i : Nat) (t : State) : Prop where
  inv : t.UnitInv
  frame : s.StreamFrame t
  faults : s.SameFault t
  bsr : t.bsrLen = s.bsrLen ∧ t.bsrPos = s.bsrPos ∧ t.bsrTerm = s.bsrTerm
  shorter : ∃ taken, taken.length = i ∧ s.inBytes = taken ++ t.inBytes
  filled : ∀ j, j < i → ∃ b, Store.find t.bsrBuf j = some b

/-- Everything a fill can do, from a state that keeps the invariants with the buffer exhausted. -/
theorem bsrFill_all {s : State} (h : s.UnitInv) (hp : s.bsrPos = s.bsrLen) :
    (bsrFill s).All (fun _ t => FillPost s t) (RaisePost s) (fun _ => False) := by
  refine (inByte_all (exp := 1) (got := 0) (fun _ c x y => inByte_raise h c x y)).bind ?_
  rintro l s₁ ⟨rest, hin, rfl⟩
  split
  · refine ⟨(h.tookByte rest).closeBsr, rfl, ⟨rfl, rfl, rfl⟩, ⟨[l], by simp, by simp [hin]⟩, ?_, .inl ⟨rfl, rfl, rfl⟩⟩
    simp [State.bsrLeft, hp, hin]
  · rename_i hl
    have hl' : 1 ≤ l.toNat := by
      rcases Nat.eq_zero_or_pos l.toNat with h0 | h0
      · exact absurd (BitVec.eq_of_toNat_eq (by simpa using h0)) hl
      · exact h0
    have hlen := l.isLt
    have loop : (forUp (fun i t => (inByte l.toNat i t).bind fun b t' => .done () (t'.writeBsr i b))
        l.toNat 0 (s.tookByte rest)).All (fun _ t => FillLoop (s.tookByte rest) l.toNat t) (RaisePost s)
        (fun _ => False) := by
      have := forUp_all (P := fun i t => FillLoop (s.tookByte rest) i t) (Q := RaisePost s) (E := fun _ => False)
        (body := fun i t => (inByte l.toNat i t).bind fun b t' => .done () (t'.writeBsr i b))
        (k := l.toNat) (i := 0) (s := s.tookByte rest)
        ⟨h.tookByte rest, rfl, ⟨rfl, rfl, rfl⟩, ⟨rfl, rfl, rfl⟩, ⟨[], rfl, rfl⟩, fun j hj => absurd hj (by omega)⟩
        (fun j t _ hj ht => by
          have hs : ∃ taken, s.inBytes = taken ++ t.inBytes := by
            obtain ⟨tk, -, htk⟩ := ht.shorter
            exact ⟨l :: tk, by rw [hin, State.tookByte_inBytes] at *; simp [htk]⟩
          have hf : s.StreamFrame t := State.StreamFrame.trans (t := s.tookByte rest) rfl ht.frame
          refine (inByte_all (exp := l.toNat) (got := j)
            (fun _ c x y => RaisePost.after hf hs (inByte_raise ht.inv c x y))).bind ?_
          rintro b u ⟨rest', hin', rfl⟩
          refine ⟨(ht.inv.tookByte rest').writeBsr b (by omega), ht.frame.trans rfl,
            ht.faults.trans ⟨rfl, rfl, rfl⟩, ht.bsr, ?_, fun i hi => ?_⟩
          · obtain ⟨tk, hk, htk⟩ := ht.shorter
            exact ⟨tk ++ [b], by simp [hk], by rw [htk, hin']; simp⟩
          · simp only [State.writeBsr_bsrBuf, State.tookByte_bsrBuf, Store.find_put]
            split
            · exact ⟨b, rfl⟩
            · exact ht.filled i (by omega))
      simpa using this
    refine loop.bind ?_
    intro _ t ht
    obtain ⟨tk, hk, htk⟩ := ht.shorter
    simp only [State.tookByte_inBytes] at htk
    refine ⟨ht.inv.setBsr (by omega) (by omega) ht.filled, State.StreamFrame.trans (t := s.tookByte rest) rfl
      (ht.frame.trans rfl), State.SameFault.trans (t := s.tookByte rest) ⟨rfl, rfl, rfl⟩
      (ht.faults.trans ⟨rfl, rfl, rfl⟩), ⟨l :: tk, by simp, by simp [hin, htk]⟩, ?_, .inr ⟨?_, rfl, hl'⟩⟩
    · simp [State.bsrLeft, hin, htk, hk]
    · exact ht.bsr.2.2

/-! ### One byte of the stream -/

/-- What taking one data byte leaves, `none` being EOD. -/
structure NextPost (s : State) (b : Option Byte) (t : State) : Prop where
  inv : t.UnitInv
  frame : s.StreamFrame t
  faults : s.SameFault t
  shorter : ∃ taken, s.inBytes = taken ++ t.inBytes
  some_left : b ≠ none → t.bsrLeft + t.inBytes.length + 1 ≤ s.bsrLeft + s.inBytes.length
  none_left : b = none → t.bsrTerm = true ∧ t.bsrPos = t.bsrLen ∧ t.bsrLen = s.bsrLen
    ∧ t.bsrLeft + t.inBytes.length ≤ s.bsrLeft + s.inBytes.length

theorem serveByte_post {s : State} (h : s.UnitInv) (hp : s.bsrPos ≠ s.bsrLen) :
    (serveByte s).All (fun b t => NextPost s b t ∧ b ≠ none) (RaisePost s) (fun _ => False) := by
  have hr := h.bsrRange
  refine ⟨⟨h.setPos (by omega), rfl, ⟨rfl, rfl, rfl⟩, ⟨[], rfl⟩, fun _ => ?_, fun hn => by cases hn⟩, by simp⟩
  simp only [State.bsrLeft]
  omega

theorem NextPost.after {s t u : State} {b : Option Byte} (h : FillPost s t) (hb : b ≠ none) (h' : NextPost t b u) :
    NextPost s b u where
  inv := h'.inv
  frame := h.frame.trans h'.frame
  faults := h.faults.trans h'.faults
  shorter := by
    obtain ⟨x, -, hx⟩ := h.shorter
    obtain ⟨y, hy⟩ := h'.shorter
    exact ⟨x ++ y, by rw [hx, hy, List.append_assoc]⟩
  some_left := fun _ => by
    have h₁ := h'.some_left hb
    have h₂ := h.left
    omega
  none_left := fun hn => absurd hn hb

/-- Everything taking one data byte can do. -/
theorem bsrNextByte_all {s : State} (h : s.UnitInv) :
    (bsrNextByte s).All (NextPost s) (RaisePost s) (fun _ => False) := by
  unfold bsrNextByte
  split
  · exact (serveByte_post h ‹_›).mono (fun _ _ hu => hu.1) (fun _ => id) (fun _ => id)
  · rename_i hp
    have hp : s.bsrPos = s.bsrLen := not_ne_iff.mp hp
    split
    · rename_i ht
      exact ⟨h, rfl, ⟨rfl, rfl, rfl⟩, ⟨[], rfl⟩, fun hn => absurd rfl hn, fun _ => ⟨ht, hp, rfl, Nat.le_refl _⟩⟩
    · refine (bsrFill_all h hp).bind fun _ t ht => ?_
      obtain ⟨x, -, hx⟩ := ht.shorter
      split
      · exact (serveByte_post ht.inv ‹_›).mono (fun _ _ hu => .after ht hu.2 hu.1)
          (fun _ hu => .after ht.frame ⟨x, hx⟩ hu) (fun _ => id)
      · rename_i hq
        have hq : t.bsrPos = t.bsrLen := not_ne_iff.mp hq
        have hl := ht.left
        refine ⟨ht.inv, ht.frame, ht.faults, ⟨x, hx⟩, fun hn => absurd rfl hn, fun _ => ?_⟩
        rcases ht.shape with ⟨h₁, -, h₃⟩ | ⟨-, h₂, h₃⟩
        · exact ⟨h₁, hq, h₃, by omega⟩
        · omega

/-! ### Draining -/

/-- The state after a whole sub-block sequence was drained, `rest` being what IN has left (rules R160 and R166). -/
def State.drained (s : State) (bs : List (List Byte)) (rest : List Byte) : State :=
  { s with
    bsrTerm := true
    bsrLen := (bs.getLast?.map List.length).getD s.bsrLen
    bsrPos := (bs.getLast?.map List.length).getD s.bsrLen
    bsrBuf := bs.foldl (fun m b => fillTable m 0 b) s.bsrBuf
    inBytes := rest
    inCount := s.inCount + BitVec.ofNat 32 (subBlocks bs).length }

theorem subBlocks_length_pos (bs : List (List Byte)) : bs.length + 1 ≤ (subBlocks bs).length := by
  induction bs with
  | nil => simp [subBlocks]
  | cons b bs ih => simp [subBlocks]; omega

/-- The drain loop over a whole sequence consumes its terminator and counts its data bytes (rules R160 and R166). -/
theorem drainLoop_blocks {bs : List (List Byte)} {rest : List Byte} {k d : Nat} {s : State} (hf : blocksFit bs)
    (hin : s.inBytes = subBlocks bs ++ rest) (ht : s.bsrTerm = false) (hp : s.bsrPos = s.bsrLen)
    (hk : bs.length + 2 ≤ k) : drainLoop k d s = .done (d + bs.flatten.length) (s.drained bs rest) := by
  induction bs generalizing k d s with
  | nil =>
    obtain ⟨k, rfl⟩ : ∃ j, k = j + 2 := ⟨k - 2, by omega⟩
    rw [drainLoop, if_neg (by simp [ht]), bsrFill_terminator (by simpa [subBlocks] using hin), Flow.bind_done, drainLoop,
      if_pos (by simp)]
    simp [State.drained, State.bsrLeft, State.closeBsr, State.tookByte, State.dropBlock, hp, subBlocks]
  | cons b bs ih =>
    obtain ⟨k, rfl⟩ : ∃ j, k = j + 1 := ⟨k - 1, by omega⟩
    obtain ⟨h₁, h₂⟩ := hf b (by simp)
    rw [drainLoop, if_neg (by simp [ht]),
      bsrFill_block (d := b) (rest := subBlocks bs ++ rest) h₁ h₂ (by simpa [subBlocks] using hin), Flow.bind_done,
      ih (fun c hc => hf c (by simp [hc])) (by rfl) (by exact ht) (by rfl) (by simp only [List.length_cons] at hk; omega)]
    have hl : ((b :: bs).getLast?.map List.length).getD s.bsrLen = (bs.getLast?.map List.length).getD b.length := by
      rw [List.getLast?_cons]
      cases bs.getLast? <;> rfl
    simp only [State.drained, State.bsrLeft, State.dropBlock, hl, Flow.done.injEq, State.mk.injEq, true_and, and_true,
      Nat.sub_zero, List.flatten_cons, List.length_append, List.foldl_cons, subBlocks, List.length_cons]
    refine ⟨by omega, ?_⟩
    rw [BitVec.add_assoc, ← BitVec.ofNat_add]

/-- A drain once EOD is reached takes nothing from IN (rule R167). -/
theorem drain_closed {s : State} (h : s.bsrTerm = true) : drain s = .done s.bsrLeft s.dropBlock := by
  rw [drain, drainLoop, if_pos (by exact h)]

/-- A drain of a whole sequence (rules R160 and R166). -/
theorem drain_blocks {bs : List (List Byte)} {rest : List Byte} {s : State} (hf : blocksFit bs)
    (hin : s.inBytes = subBlocks bs ++ rest) (ht : s.bsrTerm = false) :
    drain s = .done (s.bsrLeft + bs.flatten.length) (s.drained bs rest) := by
  have hlen := subBlocks_length_pos bs
  rw [drain, drainLoop_blocks (s := s.dropBlock) hf hin ht rfl (by rw [hin, List.length_append]; omega)]
  rfl

/-- The state after whole sub-blocks were drained and IN has `rest` left, the sequence still open (rules R160 and R166). -/
def State.drainedTo (s : State) (bs : List (List Byte)) (rest : List Byte) : State :=
  { s with
    bsrLen := (bs.getLast?.map List.length).getD s.bsrLen
    bsrPos := (bs.getLast?.map List.length).getD s.bsrLen
    bsrBuf := bs.foldl (fun m b => fillTable m 0 b) s.bsrBuf
    inBytes := rest
    inCount := s.inCount + BitVec.ofNat 32 (wholeBlocks bs).length }

/-- The drain loop over whole sub-blocks and then a fill that fails (rules R161 and R166). -/
theorem drainLoop_fails {exp got : Nat} {bs : List (List Byte)} {cut : List Byte} {k d : Nat} {s : State}
    (hf : blocksFit bs) (hc : cutBlock exp got cut) (hin : s.inBytes = wholeBlocks bs ++ cut) (ht : s.bsrTerm = false)
    (hp : s.bsrPos = s.bsrLen) (hk : bs.length < k) :
    drainLoop k d s = .raised ((s.drainedTo bs cut).cutFill exp got) := by
  induction bs generalizing k d s with
  | nil =>
    obtain ⟨k, rfl⟩ : ∃ j, k = j + 1 := ⟨k - 1, by omega⟩
    have hin : s.inBytes = cut := hin
    have hs : s.drainedTo [] cut = s := by
      cases s
      simp_all [State.drainedTo, wholeBlocks]
    rw [drainLoop, if_neg (by simp [ht]), bsrFill_fails (by rw [hin]; exact hc), hs]
    rfl
  | cons b bs ih =>
    obtain ⟨k, rfl⟩ : ∃ j, k = j + 1 := ⟨k - 1, by omega⟩
    obtain ⟨h₁, h₂⟩ := hf b (by simp)
    rw [drainLoop, if_neg (by simp [ht]),
      bsrFill_block (d := b) (rest := wholeBlocks bs ++ cut) h₁ h₂ (by simpa [wholeBlocks] using hin), Flow.bind_done,
      ih (fun c hc => hf c (by simp [hc])) (by rfl) (by exact ht) (by rfl) (by simp only [List.length_cons] at hk; omega)]
    have hl : ((b :: bs).getLast?.map List.length).getD s.bsrLen = (bs.getLast?.map List.length).getD b.length := by
      rw [List.getLast?_cons]
      cases bs.getLast? <;> rfl
    have hw : (wholeBlocks (b :: bs)).length = (b.length + 1) + (wholeBlocks bs).length := by
      simp only [wholeBlocks, List.flatMap_cons, List.length_append, List.length_cons]
    have hs : State.drainedTo (State.dropBlock { s with
          bsrBuf := fillTable s.bsrBuf 0 b
          bsrLen := b.length
          bsrPos := 0
          inBytes := wholeBlocks bs ++ cut
          inCount := s.inCount + BitVec.ofNat 32 (b.length + 1) }) bs cut = s.drainedTo (b :: bs) cut := by
      simp only [State.drainedTo, State.dropBlock, hl, hw, List.foldl_cons, State.mk.injEq, true_and, and_true]
      rw [BitVec.add_assoc, ← BitVec.ofNat_add]
    rw [hs]

/-- A drain of whole sub-blocks and then a fill that fails (rules R161 and R166). -/
theorem drain_fails {exp got : Nat} {bs : List (List Byte)} {cut : List Byte} {s : State} (hf : blocksFit bs)
    (hc : cutBlock exp got cut) (hin : s.inBytes = wholeBlocks bs ++ cut) (ht : s.bsrTerm = false) :
    drain s = .raised ((s.drainedTo bs cut).cutFill exp got) := by
  have hlen : bs.length ≤ (wholeBlocks bs).length := by
    clear hf hin
    induction bs with
    | nil => simp
    | cons b bs ih => simp only [wholeBlocks, List.flatMap_cons, List.length_append, List.length_cons] at ih ⊢; omega
  rw [drain, drainLoop_fails (s := s.dropBlock) hf hc hin ht rfl (by rw [hin, List.length_append]; omega)]
  rfl

/-- What a drain leaves where it goes on. -/
structure DrainPost (s t : State) : Prop where
  inv : t.UnitInv
  frame : s.StreamFrame t
  faults : s.SameFault t
  shorter : ∃ taken, s.inBytes = taken ++ t.inBytes
  closed : t.bsrTerm = true

/-- Everything the drain loop can do: with a bound above what is left on IN it is never cut short. -/
theorem drainLoop_all {k d : Nat} {s : State} (h : s.UnitInv) (hp : s.bsrPos = s.bsrLen)
    (hk : s.inBytes.length + 1 < k ∨ (s.inBytes.length < k ∧ s.bsrTerm = false) ∨ (0 < k ∧ s.bsrTerm = true)) :
    (drainLoop k d s).All (fun _ t => DrainPost s t) (RaisePost s) (fun _ => False) := by
  induction k generalizing d s with
  | zero => omega
  | succ k ih =>
    simp only [drainLoop]
    split
    · rename_i ht
      exact ⟨h, rfl, ⟨rfl, rfl, rfl⟩, ⟨[], rfl⟩, ht⟩
    · rename_i htn
      have htn : s.bsrTerm = false := by simpa using htn
      refine (bsrFill_all h hp).bind fun _ t ht => ?_
      obtain ⟨x, -, hx⟩ := ht.shorter
      have hl := ht.left
      have hbound : t.dropBlock.inBytes.length + 1 < k
          ∨ (t.dropBlock.inBytes.length < k ∧ t.dropBlock.bsrTerm = false)
          ∨ (0 < k ∧ t.dropBlock.bsrTerm = true) := by
        simp only [State.dropBlock_inBytes, State.dropBlock_bsrTerm]
        rcases ht.shape with ⟨h₁, -, -⟩ | ⟨h₁, -, -⟩
        · refine .inr (.inr ⟨?_, h₁⟩)
          rcases hk with hk | ⟨hk, -⟩ | ⟨-, hk⟩
          · omega
          · omega
          · simp [htn] at hk
        · refine .inr (.inl ⟨?_, h₁.trans htn⟩)
          rcases hk with hk | ⟨hk, -⟩ | ⟨-, hk⟩
          · omega
          · omega
          · simp [htn] at hk
      have hf : s.StreamFrame t.dropBlock := ht.frame.trans rfl
      refine (ih ht.inv.dropBlock rfl hbound).mono (fun _ u hu => ?_) (fun u hu => ?_) (fun _ => id)
      · obtain ⟨y, hy⟩ := hu.shorter
        exact ⟨hu.inv, hf.trans hu.frame, (ht.faults.trans ⟨rfl, rfl, rfl⟩).trans hu.faults,
          ⟨x ++ y, by rw [hx, List.append_assoc, ← hy]; rfl⟩, hu.closed⟩
      · exact RaisePost.after hf ⟨x, hx⟩ hu

/-- Everything a drain can do. -/
theorem drain_all {s : State} (h : s.UnitInv) :
    (drain s).All (fun _ t => DrainPost s t) (RaisePost s) (fun _ => False) := by
  refine (drainLoop_all (s := s.dropBlock) h.dropBlock rfl (.inl (by simp))).mono (fun _ u hu => ?_) (fun u hu => ?_)
    (fun _ => id)
  · exact ⟨hu.inv, State.StreamFrame.trans (t := s.dropBlock) rfl hu.frame,
      State.SameFault.trans (t := s.dropBlock) ⟨rfl, rfl, rfl⟩ hu.faults, hu.shorter, hu.closed⟩
  · exact RaisePost.after (t := s.dropBlock) rfl ⟨[], rfl⟩ hu

end Sys2Proof.Machine
end

