-- ==== Sys2Proof/Laws/Lzw.lean ====
section
/-! SUPPORT. What the LZW unit can do: the strings of its table, the step of one code, the reading of one code, and its two loops,
with what each keeps and that each uses up the code stream. -/

namespace Sys2Proof.Machine

theorem State.clearCode_eq (s : State) : s.clearCode = 2 ^ s.lzwMin := by
  rw [State.clearCode, Nat.one_shiftLeft]

/-! ### Strings -/

section
variable {s : State}

theorem State.OpenInv.clear_pos (_ : s.OpenInv) : 1 ≤ s.clearCode := by
  rw [s.clearCode_eq]
  exact Nat.one_le_two_pow

theorem State.OpenInv.clear_range (h : s.OpenInv) : 4 ≤ s.clearCode ∧ s.clearCode ≤ 256 := by
  obtain ⟨h₁, h₂⟩ := h.minRange
  rw [s.clearCode_eq]
  exact ⟨Nat.pow_le_pow_right (n := 2) (by omega) h₁, Nat.pow_le_pow_right (n := 2) (by omega) h₂⟩

theorem State.OpenInv.prefixOf (h : s.OpenInv) {k : Nat} (hk : s.Defined k) :
    s.prefixOf k < k ∧ s.DataCode (s.prefixOf k) := by
  obtain ⟨p, hp, h₁, h₂⟩ := h.prefixes k hk
  rw [State.prefixOf, hp]
  exact ⟨h₁, h₂⟩

theorem stringTo_literal {k c : Nat} (hc : c < s.clearCode) : stringTo s (k + 1) c = [BitVec.ofNat 8 c] := by
  rw [stringTo, if_pos hc]

theorem stringTo_entry {k c : Nat} (hc : s.Defined c) :
    stringTo s (k + 1) c = stringTo s k (s.prefixOf c) ++ [s.suffixOf c] := by
  have := hc.1
  rw [stringTo, if_neg (by omega)]

/-- A depth above the code reaches the whole string. -/
theorem State.OpenInv.stringTo_depth (h : s.OpenInv) {c : Nat} (hc : s.DataCode c) :
    ∀ k, c < k → stringTo s k c = s.stringOf c := by
  induction c using Nat.strong_induction_on with
  | _ c ih =>
    intro k hk
    obtain ⟨k, rfl⟩ : ∃ j, k = j + 1 := ⟨k - 1, by omega⟩
    rw [State.stringOf]
    rcases hc with hc | hc
    · rw [stringTo_literal hc, stringTo_literal hc]
    · obtain ⟨hp, hd⟩ := h.prefixOf hc
      rw [stringTo_entry hc, stringTo_entry hc, ih _ hp hd k (by omega), ih _ hp hd c hp]

theorem State.OpenInv.stringOf_literal {c : Nat} (hc : c < s.clearCode) : s.stringOf c = [BitVec.ofNat 8 c] :=
  stringTo_literal hc

/-- The recursion of rule R203. -/
theorem State.OpenInv.stringOf_entry (h : s.OpenInv) {c : Nat} (hc : s.Defined c) :
    s.stringOf c = s.stringOf (s.prefixOf c) ++ [s.suffixOf c] := by
  obtain ⟨hp, hd⟩ := h.prefixOf hc
  rw [State.stringOf, stringTo_entry hc, h.stringTo_depth hd c hp]

/-- No string is empty, in any state. -/
theorem State.stringOf_length_pos (s : State) (c : Nat) : 1 ≤ (s.stringOf c).length := by
  rw [State.stringOf, stringTo]
  split <;> simp

theorem State.OpenInv.stringOf_length (h : s.OpenInv) {c : Nat} (hc : s.DataCode c) :
    (c < s.clearCode → (s.stringOf c).length = 1) ∧ (s.Defined c → (s.stringOf c).length ≤ c - s.clearCode) := by
  induction c using Nat.strong_induction_on with
  | _ c ih =>
    refine ⟨fun hl => by rw [State.OpenInv.stringOf_literal hl]; rfl, fun hd => ?_⟩
    obtain ⟨hp, hpd⟩ := h.prefixOf hd
    rw [h.stringOf_entry hd, List.length_append, List.length_singleton]
    have := hd.1
    rcases hpd with hl | hl
    · have := (ih _ hp (.inl hl)).1 hl
      omega
    · have := (ih _ hp (.inr hl)).2 hl
      have := hl.1
      omega

/-- What `codeString` gives: the code is data, or the next entry's. -/
theorem State.codeString_some {c : Nat} {bs : List Byte} (h : s.codeString c = some bs) :
    (bs = s.stringOf c ∧ s.DataCode c)
      ∨ (bs = s.stringOf s.lzwPrev ++ [firstByte (s.stringOf s.lzwPrev)] ∧ c = s.lzwNext ∧ s.lzwPrevValid = true
        ∧ s.lzwNext < 4096) := by
  unfold State.codeString at h
  split at h
  · exact .inl ⟨(Option.some.inj h).symm, .inl ‹_›⟩
  · split at h
    · rename_i hc
      refine .inl ⟨(Option.some.inj h).symm, .inr ⟨?_, hc.2⟩⟩
      have := hc.1
      unfold State.eoiCode at this
      omega
    · split at h
      · rename_i hc
        exact .inr ⟨(Option.some.inj h).symm, hc⟩
      · cases h

/-- A code's string is neither empty nor longer than the pending list may be (rule R57). -/
theorem State.OpenInv.codeString_length (h : s.OpenInv) {c : Nat} {bs : List Byte} (hb : s.codeString c = some bs) :
    1 ≤ bs.length ∧ bs.length ≤ 4095 := by
  obtain ⟨h₁, h₂⟩ := h.clear_range
  have hn := h.nextRange
  rcases State.codeString_some hb with ⟨rfl, hc⟩ | ⟨rfl, -, hv, hm⟩
  · refine ⟨s.stringOf_length_pos c, ?_⟩
    obtain ⟨hl, hd⟩ := h.stringOf_length hc
    rcases hc with hc | hc
    · rw [hl hc]; omega
    · have := hd hc
      have := hc.2
      omega
  · refine ⟨by simp, ?_⟩
    obtain ⟨hl, hd⟩ := h.stringOf_length (h.prevData hv)
    rw [List.length_append, List.length_singleton]
    rcases h.prevData hv with hc | hc
    · rw [hl hc]; omega
    · have := hd hc
      have := hc.2
      omega

end

/-! ### Frames -/

/-- What a part of a command that reads and runs codes leaves alone. -/
def State.CodeFrame (s t : State) : Prop :=
  t = { s with
    bsrBuf := t.bsrBuf, bsrLen := t.bsrLen, bsrPos := t.bsrPos, bsrTerm := t.bsrTerm
    inBytes := t.inBytes, inCount := t.inCount
    fault := t.fault, finfo0 := t.finfo0, finfo1 := t.finfo1
    lzwState := t.lzwState, lzwWidth := t.lzwWidth, lzwNext := t.lzwNext, lzwPrev := t.lzwPrev
    lzwPrevValid := t.lzwPrevValid, lzwBitbuf := t.lzwBitbuf, lzwNbits := t.lzwNbits
    lzwPrefix := t.lzwPrefix, lzwSuffix := t.lzwSuffix, lzwPend := t.lzwPend }

theorem State.CodeFrame.refl (s : State) : s.CodeFrame s := rfl

theorem State.CodeFrame.trans {s t u : State} (h : s.CodeFrame t) (h' : t.CodeFrame u) : s.CodeFrame u := by
  unfold State.CodeFrame at *
  rw [h', h]

theorem State.StreamFrame.code {s t : State} (h : s.StreamFrame t) : s.CodeFrame t := by
  unfold State.StreamFrame at h
  unfold State.CodeFrame
  rw [h]

theorem State.CodeFrame.buf {s t : State} (h : s.CodeFrame t) : t.buf = s.buf ∧ t.bufBytes = s.bufBytes := by
  rw [h]
  exact ⟨rfl, rfl⟩

/-- What a part of a command that decodes into BUF leaves alone. -/
def State.DecodeFrame (s t : State) : Prop :=
  t = { s with
    buf := t.buf
    bsrBuf := t.bsrBuf, bsrLen := t.bsrLen, bsrPos := t.bsrPos, bsrTerm := t.bsrTerm
    inBytes := t.inBytes, inCount := t.inCount
    fault := t.fault, finfo0 := t.finfo0, finfo1 := t.finfo1
    lzwState := t.lzwState, lzwWidth := t.lzwWidth, lzwNext := t.lzwNext, lzwPrev := t.lzwPrev
    lzwPrevValid := t.lzwPrevValid, lzwBitbuf := t.lzwBitbuf, lzwNbits := t.lzwNbits
    lzwPrefix := t.lzwPrefix, lzwSuffix := t.lzwSuffix, lzwPend := t.lzwPend }

theorem State.DecodeFrame.refl (s : State) : s.DecodeFrame s := rfl

theorem State.DecodeFrame.trans {s t u : State} (h : s.DecodeFrame t) (h' : t.DecodeFrame u) : s.DecodeFrame u := by
  unfold State.DecodeFrame at *
  rw [h', h]

theorem State.CodeFrame.decode {s t : State} (h : s.CodeFrame t) : s.DecodeFrame t := by
  unfold State.CodeFrame at h
  unfold State.DecodeFrame
  rw [h]

/-! ### The step of one code -/

theorem grownWidth_range (n : Nat) {w : Nat} (h : w ≤ 12) : w ≤ grownWidth n w ∧ grownWidth n w ≤ 12 := by
  unfold grownWidth Config.maxWidth
  split <;> omega

theorem State.OpenInv.lzwReset {s : State} (h₁ : 2 ≤ s.lzwMin) (h₂ : s.lzwMin ≤ 8) : s.lzwReset.OpenInv where
  minRange := ⟨h₁, h₂⟩
  widthRange := ⟨Nat.le_refl _, by simp only [State.lzwReset_lzwWidth]; omega⟩
  nextRange := by
    simp only [State.lzwReset_clearCode, State.lzwReset_lzwNext, s.clearCode_eq]
    have := Nat.pow_le_pow_right (n := 2) (by omega) h₂
    omega
  room := by
    refine .inl ?_
    simp only [State.lzwReset_lzwWidth, State.lzwReset_lzwNext, s.clearCode_eq, Nat.pow_succ]
    have := Nat.pow_le_pow_right (n := 2) (by omega) h₁
    omega
  prevData := fun hv => by simp at hv
  prefixes := fun k hk => by
    obtain ⟨ha, hb⟩ := hk
    simp only [State.lzwReset_clearCode, State.lzwReset_lzwNext] at ha hb
    omega
  suffixes := fun k hk => by
    obtain ⟨ha, hb⟩ := hk
    simp only [State.lzwReset_clearCode, State.lzwReset_lzwNext] at ha hb
    omega

theorem State.UnitInv.lzwReset {s : State} (h : s.UnitInv) (ho : s.OpenInv) : s.lzwReset.UnitInv := by
  have hr := State.OpenInv.lzwReset ho.minRange.1 ho.minRange.2
  exact {
    bufSize := h.bufSize
    bufForm := h.bufForm
    bufInside := h.bufInside
    bsrRange := h.bsrRange
    bsrForm := h.bsrForm
    bsrFilled := h.bsrFilled
    prefixForm := h.prefixForm
    suffixForm := h.suffixForm
    lzwSizes := ⟨hr.minRange.2, hr.widthRange.2, hr.nextRange.2, by simp⟩
    accumulator := h.accumulator
    pendSize := h.pendSize
    opened := fun _ => hr }

/-- The entry and the previous code a data code leaves keep the open-stream invariants. -/
theorem State.OpenInv.afterCode {s : State} (h : s.OpenInv) {c : Nat} {bs : List Byte} (hb : s.codeString c = some bs)
    (b : Byte) : ((s.addEntry b).setPrev c).OpenInv := by
  have hcode := State.codeString_some hb
  by_cases hadd : s.lzwPrevValid = true ∧ s.lzwNext < Config.dictSize
  · have hnext : s.lzwNext < 4096 := hadd.2
    have hroom : s.lzwNext < 2 ^ s.lzwWidth := by
      rcases h.room with hr | hr
      · exact hr
      · omega
    have hprev := h.prevData hadd.1
    have hnr := h.nextRange
    have hmono : ∀ x, s.DataCode x → x < s.clearCode ∨ (s.clearCode + 2 ≤ x ∧ x < s.lzwNext + 1) := by
      rintro x (hx | hx)
      · exact .inl hx
      · exact .inr ⟨hx.1, Nat.lt_succ_of_lt hx.2⟩
    have hlt : ∀ x, s.DataCode x → x < s.lzwNext := by
      rintro x (hx | hx)
      · omega
      · exact hx.2
    rw [State.addEntry, if_pos hadd]
    constructor
    · exact h.minRange
    · obtain ⟨h₁, h₂⟩ := h.widthRange
      obtain ⟨h₃, h₄⟩ := grownWidth_range (s.lzwNext + 1) h₂
      exact ⟨Nat.le_trans h₁ h₃, h₄⟩
    · show s.clearCode + 2 ≤ s.lzwNext + 1 ∧ s.lzwNext + 1 ≤ 4096
      omega
    · simp only [State.setPrev_lzwNext, State.setPrev_lzwWidth, grownWidth, Config.maxWidth, Nat.one_shiftLeft]
      split
      · rename_i hw
        refine .inl ?_
        rw [Nat.pow_succ]
        omega
      · rename_i hw
        have := h.widthRange.2
        by_cases he : s.lzwNext + 1 = 2 ^ s.lzwWidth
        · have hw12 : s.lzwWidth = 12 := by omega
          refine .inr ⟨?_, hw12⟩
          rw [he, hw12]
          rfl
        · exact .inl (by omega)
    · intro _
      show c < s.clearCode ∨ (s.clearCode + 2 ≤ c ∧ c < s.lzwNext + 1)
      rcases hcode with ⟨-, hc⟩ | ⟨-, hc, -, -⟩
      · exact hmono c hc
      · omega
    · rintro k ⟨h₁, h₂⟩
      change s.clearCode + 2 ≤ k at h₁
      change k < s.lzwNext + 1 at h₂
      show ∃ p, Store.find (Store.put s.lzwPrefix s.lzwNext s.lzwPrev) k = some p ∧ p < k ∧ _
      rw [Store.find_put]
      split
      · subst_vars
        exact ⟨_, rfl, hlt _ hprev, hmono _ hprev⟩
      · obtain ⟨p, hp, hpk, hpd⟩ := h.prefixes k ⟨h₁, by omega⟩
        exact ⟨p, hp, hpk, hmono p hpd⟩
    · rintro k ⟨h₁, h₂⟩
      change s.clearCode + 2 ≤ k at h₁
      change k < s.lzwNext + 1 at h₂
      show ∃ x, Store.find (Store.put s.lzwSuffix s.lzwNext b) k = some x
      rw [Store.find_put]
      split
      · exact ⟨_, rfl⟩
      · exact h.suffixes k ⟨h₁, by omega⟩
  · rw [State.addEntry, if_neg hadd]
    obtain ⟨a₁, a₂, a₃, a₄, a₅, a₆, a₇⟩ := h
    refine ⟨a₁, a₂, a₃, a₄, fun _ => ?_, a₆, a₇⟩
    rcases hcode with ⟨-, hc⟩ | ⟨-, -, hv, hm⟩
    · exact hc
    · exact absurd ⟨hv, hm⟩ hadd

theorem State.UnitInv.afterCode {s : State} (h : s.UnitInv) (ho : s.OpenInv) {c : Nat} {bs : List Byte}
    (hb : s.codeString c = some bs) (b : Byte) : ((s.addEntry b).setPrev c).UnitInv := by
  have hn := ho.afterCode hb b
  have hc : c < 4096 := by
    obtain ⟨-, hcl⟩ := ho.clear_range
    have := ho.nextRange.2
    rcases State.codeString_some hb with ⟨-, hc | hc⟩ | ⟨-, hc, -, hm⟩
    · omega
    · have := hc.2
      omega
    · omega
  have hsize := h.lzwSizes
  exact {
    bufSize := by simpa using h.bufSize
    bufForm := by simpa using h.bufForm
    bufInside := by simpa using h.bufInside
    bsrRange := by simpa using h.bsrRange
    bsrForm := by simpa using h.bsrForm
    bsrFilled := by simpa using h.bsrFilled
    prefixForm := by
      simp only [State.setPrev_lzwPrefix, State.addEntry]
      split
      · rename_i hadd
        refine ⟨Store.rising_put h.prefixForm.1 _ _, fun x hx => ?_⟩
        rcases Store.mem_put hx with rfl | hx
        · exact ⟨hadd.2, hsize.2.2.2⟩
        · exact h.prefixForm.2 x hx
      · exact h.prefixForm
    suffixForm := by
      simp only [State.setPrev_lzwSuffix, State.addEntry]
      split
      · rename_i hadd
        refine ⟨Store.rising_put h.suffixForm.1 _ _, fun x hx => ?_⟩
        rcases Store.mem_put hx with rfl | hx
        · exact hadd.2
        · exact h.suffixForm.2 x hx
      · exact h.suffixForm
    lzwSizes := ⟨by simpa using hsize.1, hn.widthRange.2, hn.nextRange.2, hc⟩
    accumulator := by simpa using h.accumulator
    pendSize := by simpa using h.pendSize
    opened := fun _ => hn }

/-- What the step of a code leaves where it goes on; the end code is the one way to DONE. -/
structure StepPost (s : State) (r : Option (List Byte)) (t : State) : Prop where
  inv : t.UnitInv
  frame : s.CodeFrame t
  faults : s.SameFault t
  stream : t.inBytes = s.inBytes ∧ t.bitsLeft = s.bitsLeft ∧ t.lzwPend = s.lzwPend
  isOpen : t.lzwState ≠ .idle
  bytes : ∀ bs, r = some bs → bs.length ≤ 4095 ∧ t.lzwState = s.lzwState
  ended : r = none → t.lzwState = .done

/-- What a part of a command that reads and runs codes leaves where it raises a fault. -/
structure CodeRaise (s t : State) : Prop where
  inv : t.UnitInv
  frame : s.CodeFrame t
  faulted : t.Faulted
  shorter : ∃ taken, s.inBytes = taken ++ t.inBytes

theorem RaisePost.code {s t : State} (h : RaisePost s t) : CodeRaise s t :=
  ⟨h.inv, h.frame.code, h.faulted, h.shorter⟩

theorem CodeRaise.after {s t u : State} (h : s.CodeFrame t) (hs : ∃ taken, s.inBytes = taken ++ t.inBytes)
    (h' : CodeRaise t u) : CodeRaise s u where
  inv := h'.inv
  frame := h.trans h'.frame
  faulted := h'.faulted
  shorter := by
    obtain ⟨a, ha⟩ := hs
    obtain ⟨b, hb⟩ := h'.shorter
    exact ⟨a ++ b, by rw [ha, hb, List.append_assoc]⟩

theorem State.UnitInv.finishLzw {s : State} (h : s.UnitInv) (ho : s.OpenInv) :
    s.finishLzw.UnitInv where
  bufSize := h.bufSize
  bufForm := h.bufForm
  bufInside := h.bufInside
  bsrRange := h.bsrRange
  bsrForm := h.bsrForm
  bsrFilled := h.bsrFilled
  prefixForm := h.prefixForm
  suffixForm := h.suffixForm
  lzwSizes := h.lzwSizes
  accumulator := h.accumulator
  pendSize := h.pendSize
  opened := fun _ => ho.of_eq rfl rfl rfl rfl rfl rfl rfl

/-- A data code's entry and previous code change the coding state alone. -/
theorem State.codeFrame_afterCode (s : State) (b : Byte) (c : Nat) : s.CodeFrame ((s.addEntry b).setPrev c) := by
  unfold State.CodeFrame State.addEntry
  split <;> rfl

/-- Everything the step of a code can do while a stream is open. -/
theorem stepCode_all {s : State} (c : Nat) (h : s.UnitInv) (hs : s.lzwState ≠ .idle) :
    (stepCode c s).All (StepPost s) (CodeRaise s) (fun _ => False) := by
  have ho := h.opened hs
  unfold stepCode
  split
  · exact ⟨h.lzwReset ho, rfl, ⟨rfl, rfl, rfl⟩, ⟨rfl, rfl, rfl⟩, hs,
      fun bs e => ⟨by rw [← Option.some.inj e]; simp, rfl⟩, fun e => (by cases e)⟩
  · split
    · exact ⟨h.finishLzw ho, rfl, ⟨rfl, rfl, rfl⟩, ⟨rfl, rfl, rfl⟩, by simp, fun bs e => (by cases e), fun _ => rfl⟩
    · split
      · exact ⟨h.recordFault _ _ _, rfl, s.faulted_recordFault _ _ _, ⟨[], rfl⟩⟩
      · rename_i bs hb
        refine ⟨h.afterCode ho hb _, s.codeFrame_afterCode _ _, ⟨by simp, by simp, by simp⟩,
          ⟨by simp, by simp [State.bitsLeft, State.bsrLeft], by simp⟩, by simpa using hs,
          fun bs' e => ⟨?_, by simp⟩, fun e => (by cases e)⟩
        obtain rfl := Option.some.inj e
        exact (ho.codeString_length hb).2

/-! ### Reading a code -/

/-- One more stream byte keeps the bits above `lzw_nbits` 0 (rule R46). -/
theorem State.UnitInv.pushBits {s : State} (h : s.UnitInv) (b : Byte) (hn : s.lzwNbits < s.lzwWidth) :
    (s.pushBits b).UnitInv where
  bufSize := h.bufSize
  bufForm := h.bufForm
  bufInside := h.bufInside
  bsrRange := h.bsrRange
  bsrForm := h.bsrForm
  bsrFilled := h.bsrFilled
  prefixForm := h.prefixForm
  suffixForm := h.suffixForm
  lzwSizes := h.lzwSizes
  accumulator := by
    obtain ⟨-, h₂⟩ := h.accumulator
    have hw := h.lzwSizes.2.1
    refine ⟨by simp only [State.pushBits_lzwNbits]; omega, ?_⟩
    simp only [State.pushBits_lzwBitbuf, State.pushBits_lzwNbits, BitVec.toNat_or, BitVec.toNat_shiftLeft,
      BitVec.toNat_setWidth]
    refine Nat.or_lt_two_pow (Nat.lt_of_lt_of_le h₂ (Nat.pow_le_pow_right (by omega) (by omega))) ?_
    refine Nat.lt_of_le_of_lt (Nat.mod_le _ _) ?_
    rw [Nat.shiftLeft_eq, Nat.pow_add, Nat.mul_comm]
    refine Nat.mul_lt_mul_of_pos_left ?_ (Nat.two_pow_pos _)
    exact Nat.lt_of_le_of_lt (Nat.mod_le _ _) b.isLt
  pendSize := h.pendSize
  opened := fun hn => (h.opened hn).of_eq rfl rfl rfl rfl rfl rfl rfl

/-- Taking a code out keeps the bits above `lzw_nbits` 0. -/
theorem State.UnitInv.dropCode {s : State} (h : s.UnitInv) (hn : s.lzwWidth ≤ s.lzwNbits) : s.dropCode.UnitInv where
  bufSize := h.bufSize
  bufForm := h.bufForm
  bufInside := h.bufInside
  bsrRange := h.bsrRange
  bsrForm := h.bsrForm
  bsrFilled := h.bsrFilled
  prefixForm := h.prefixForm
  suffixForm := h.suffixForm
  lzwSizes := h.lzwSizes
  accumulator := by
    obtain ⟨h₁, h₂⟩ := h.accumulator
    refine ⟨by simp only [State.dropCode_lzwNbits]; omega, ?_⟩
    simp only [State.dropCode_lzwBitbuf, State.dropCode_lzwNbits, BitVec.toNat_ushiftRight,
      Nat.shiftRight_eq_div_pow]
    refine Nat.div_lt_of_lt_mul ?_
    rw [← Nat.pow_add]
    exact Nat.lt_of_lt_of_le h₂ (Nat.pow_le_pow_right (by omega) (by omega))
  pendSize := h.pendSize
  opened := fun hn => (h.opened hn).of_eq rfl rfl rfl rfl rfl rfl rfl

/-- The coding state of two states is the same; only the accumulator may differ. -/
structure SameCoding (s t : State) : Prop where
  st : t.lzwState = s.lzwState
  min : t.lzwMin = s.lzwMin
  width : t.lzwWidth = s.lzwWidth
  next : t.lzwNext = s.lzwNext
  prev : t.lzwPrev = s.lzwPrev
  prevValid : t.lzwPrevValid = s.lzwPrevValid
  prefixes : t.lzwPrefix = s.lzwPrefix
  suffixes : t.lzwSuffix = s.lzwSuffix
  pend : t.lzwPend = s.lzwPend

theorem SameCoding.trans {s t u : State} (h : SameCoding s t) (h' : SameCoding t u) : SameCoding s u :=
  ⟨h'.st.trans h.st, h'.min.trans h.min, h'.width.trans h.width, h'.next.trans h.next, h'.prev.trans h.prev,
    h'.prevValid.trans h.prevValid, h'.prefixes.trans h.prefixes, h'.suffixes.trans h.suffixes,
    h'.pend.trans h.pend⟩

theorem SameLzw.coding {s t : State} (h : SameLzw s t) : SameCoding s t :=
  ⟨h.st, h.min, h.width, h.next, h.prev, h.prevValid, h.prefixes, h.suffixes, h.pend⟩

/-- What the reading of bits or of a code leaves where it goes on. -/
structure ReadPost (s t : State) : Prop where
  inv : t.UnitInv
  frame : s.CodeFrame t
  faults : s.SameFault t
  shorter : ∃ taken, s.inBytes = taken ++ t.inBytes
  coding : SameCoding s t
  bits : t.bitsLeft ≤ s.bitsLeft

theorem ReadPost.trans {s t u : State} (h : ReadPost s t) (h' : ReadPost t u) : ReadPost s u where
  inv := h'.inv
  frame := h.frame.trans h'.frame
  faults := h.faults.trans h'.faults
  shorter := by
    obtain ⟨a, ha⟩ := h.shorter
    obtain ⟨b, hb⟩ := h'.shorter
    exact ⟨a ++ b, by rw [ha, hb, List.append_assoc]⟩
  coding := h.coding.trans h'.coding
  bits := Nat.le_trans h'.bits h.bits

theorem ReadPost.refl {s : State} (h : s.UnitInv) : ReadPost s s :=
  ⟨h, rfl, ⟨rfl, rfl, rfl⟩, ⟨[], rfl⟩, ⟨rfl, rfl, rfl, rfl, rfl, rfl, rfl, rfl, rfl⟩, Nat.le_refl _⟩

/-- Everything the fetch of bits can do: at the bound of rule R206 it holds a whole code, or met EOD. -/
theorem fetchBits_all {k : Nat} {s : State} (h : s.UnitInv) (hk : s.lzwWidth ≤ s.lzwNbits + 8 * k) :
    (fetchBits k s).All (fun ready t => ReadPost s t ∧ (ready = true → t.lzwWidth ≤ t.lzwNbits)
        ∧ (ready = false → t.bsrTerm = true ∧ t.bsrPos = t.bsrLen))
      (CodeRaise s) (fun _ => False) := by
  induction k generalizing s with
  | zero => exact ⟨.refl h, fun _ => by omega, fun e => (by cases e)⟩
  | succ k ih =>
    simp only [fetchBits]
    split
    · rename_i hn
      refine ((bsrNextByte_all h).mono (fun _ _ => id) (fun _ hu => hu.code) (fun _ => id)).bind fun b t ht => ?_
      have hlz := ht.frame.sameLzw
      cases b with
      | none =>
        have hnone := ht.none_left rfl
        refine ⟨⟨ht.inv, ht.frame.code, ht.faults, ht.shorter, hlz.coding, ?_⟩, fun e => (by cases e),
          fun _ => ⟨hnone.1, hnone.2.1⟩⟩
        simp only [State.bitsLeft, hlz.nbits]
        omega
      | some b =>
        have hsome := ht.some_left (by simp)
        have hn' : t.lzwNbits < t.lzwWidth := by rw [hlz.nbits, hlz.width]; exact hn
        have hread : ReadPost s (t.pushBits b) := by
          refine ⟨ht.inv.pushBits b hn', ht.frame.code.trans rfl, ht.faults.trans ⟨rfl, rfl, rfl⟩, ht.shorter,
            hlz.coding.trans ⟨rfl, rfl, rfl, rfl, rfl, rfl, rfl, rfl, rfl⟩, ?_⟩
          simp only [State.bitsLeft, State.pushBits_lzwNbits, State.pushBits_inBytes, hlz.nbits]
          have : (t.pushBits b).bsrLeft = t.bsrLeft := rfl
          omega
        have hk' : (t.pushBits b).lzwWidth ≤ (t.pushBits b).lzwNbits + 8 * k := by
          simp only [State.pushBits_lzwNbits, State.pushBits_lzwWidth, hlz.nbits, hlz.width]
          omega
        exact (ih hread.inv hk').mono (fun _ u hu => ⟨hread.trans hu.1, hu.2⟩)
          (fun u hu => CodeRaise.after hread.frame hread.shorter hu) (fun _ => id)
    · exact ⟨.refl h, fun _ => by omega, fun e => (by cases e)⟩

/-- Everything the reading of a code can do: a code uses `lzw_width` bits, and EOD closes the BSR. -/
theorem readCode_all {s : State} (h : s.UnitInv) :
    (readCode s).All (fun oc t => ReadPost s t ∧ (oc ≠ none → t.bitsLeft + s.lzwWidth ≤ s.bitsLeft)
        ∧ (oc = none → t.bsrTerm = true ∧ t.bsrPos = t.bsrLen))
      (CodeRaise s) (fun _ => False) := by
  refine (fetchBits_all h (by omega)).bind ?_
  rintro ready t ⟨ht, hr, he⟩
  cases ready with
  | false => exact ⟨ht, fun hn => absurd rfl hn, fun _ => he rfl⟩
  | true =>
    have hn := hr rfl
    have hbits : t.dropCode.bitsLeft + s.lzwWidth ≤ s.bitsLeft := by
      have hb := ht.bits
      have hd : t.dropCode.bsrLeft = t.bsrLeft := rfl
      simp only [State.bitsLeft, State.dropCode_lzwNbits, State.dropCode_inBytes] at hb ⊢
      rw [← ht.coding.width]
      omega
    refine ⟨ht.trans ⟨ht.inv.dropCode hn, rfl, ⟨rfl, rfl, rfl⟩, ⟨[], rfl⟩,
      ⟨rfl, rfl, rfl, rfl, rfl, rfl, rfl, rfl, rfl⟩, ?_⟩, fun _ => hbits, fun e => (by cases e)⟩
    have hd : t.dropCode.bsrLeft = t.bsrLeft := rfl
    simp only [State.bitsLeft, State.dropCode_lzwNbits, State.dropCode_inBytes]
    omega

theorem State.UnitInv.setPend {s : State} (h : s.UnitInv) {bs : List Byte} (hb : bs.length ≤ 4095) :
    (s.setPend bs).UnitInv where
  bufSize := h.bufSize
  bufForm := h.bufForm
  bufInside := h.bufInside
  bsrRange := h.bsrRange
  bsrForm := h.bsrForm
  bsrFilled := h.bsrFilled
  prefixForm := h.prefixForm
  suffixForm := h.suffixForm
  lzwSizes := h.lzwSizes
  accumulator := h.accumulator
  pendSize := hb
  opened := fun hn => (h.opened hn).of_eq rfl rfl rfl rfl rfl rfl rfl

/-! ### The loop of LZW_DECODE -/

/-- What the loop of LZW_DECODE leaves where it goes on, and, but for the fault, where it raises one. -/
structure DecodePost (lo hi : Nat) (s t : State) : Prop where
  inv : t.UnitInv
  frame : s.DecodeFrame t
  outside : ∀ x, x < lo ∨ hi ≤ x → Memory.read t.buf x = Memory.read s.buf x
  shorter : ∃ taken, s.inBytes = taken ++ t.inBytes
  isOpen : t.lzwState ≠ .idle

theorem DecodePost.trans {lo hi : Nat} {s t u : State} (h : DecodePost lo hi s t) (h' : DecodePost lo hi t u) :
    DecodePost lo hi s u where
  inv := h'.inv
  frame := h.frame.trans h'.frame
  outside := fun x hx => (h'.outside x hx).trans (h.outside x hx)
  shorter := by
    obtain ⟨a, ha⟩ := h.shorter
    obtain ⟨b, hb⟩ := h'.shorter
    exact ⟨a ++ b, by rw [ha, hb, List.append_assoc]⟩
  isOpen := h'.isOpen

/-- A fault inside the loop: what it leaves, but that it may leave the unit in any state it was in. -/
structure DecodeRaise (lo hi : Nat) (s t : State) : Prop where
  inv : t.UnitInv
  frame : s.DecodeFrame t
  outside : ∀ x, x < lo ∨ hi ≤ x → Memory.read t.buf x = Memory.read s.buf x
  shorter : ∃ taken, s.inBytes = taken ++ t.inBytes
  faulted : t.Faulted

theorem DecodeRaise.after {lo hi : Nat} {s t u : State} (h : DecodePost lo hi s t) (h' : DecodeRaise lo hi t u) :
    DecodeRaise lo hi s u where
  inv := h'.inv
  frame := h.frame.trans h'.frame
  outside := fun x hx => (h'.outside x hx).trans (h.outside x hx)
  shorter := by
    obtain ⟨a, ha⟩ := h.shorter
    obtain ⟨b, hb⟩ := h'.shorter
    exact ⟨a ++ b, by rw [ha, hb, List.append_assoc]⟩
  faulted := h'.faulted

theorem CodeRaise.decode {lo hi : Nat} {s t : State} (h : CodeRaise s t) : DecodeRaise lo hi s t :=
  ⟨h.inv, h.frame.decode, fun x _ => by rw [h.frame.buf.1], h.shorter, h.faulted⟩

theorem ReadPost.decode {lo hi : Nat} {s t : State} (h : ReadPost s t) (hs : s.lzwState ≠ .idle) :
    DecodePost lo hi s t :=
  ⟨h.inv, h.frame.decode, fun x _ => by rw [h.frame.buf.1], h.shorter, by rw [h.coding.st]; exact hs⟩

/-- A step's string, taken, keeps what the step kept. -/
theorem StepPost.takeString {lo hi : Nat} {s t : State} {r : Option (List Byte)} (h : StepPost s r t) :
    DecodePost lo hi s (t.takeString r) ∧ s.SameFault (t.takeString r)
      ∧ (t.takeString r).bitsLeft = s.bitsLeft ∧ ((t.takeString r).lzwState = .done → s.lzwState = .done
        ∨ ((t.takeString r).lzwPend = s.lzwPend)) := by
  cases r with
  | none =>
    exact ⟨⟨h.inv, h.frame.decode, fun x _ => by rw [State.takeString, h.frame.buf.1],
      ⟨[], by rw [State.takeString, h.stream.1]; rfl⟩, h.isOpen⟩, h.faults, h.stream.2.1,
      fun _ => .inr h.stream.2.2⟩
  | some bs =>
    obtain ⟨h₁, h₂⟩ := h.bytes bs rfl
    refine ⟨⟨h.inv.setPend h₁, h.frame.decode.trans rfl, fun x _ => ?_, ⟨[], ?_⟩, h.isOpen⟩,
      h.faults.trans ⟨rfl, rfl, rfl⟩, h.stream.2.1, fun hd => .inl (by rw [← h₂]; exact hd)⟩
    · show Memory.read t.buf x = _
      rw [h.frame.buf.1]
    · exact h.stream.1.symm

/-- One delivered byte. -/
theorem DecodePost.deliver {dst n i : Nat} {s : State} {b : Byte} {rest : List Byte} (h : s.UnitInv)
    (hs : s.lzwState ≠ .idle) (hb : s.lzwPend = b :: rest) (hr : dst + n ≤ s.bufBytes) (hi : i < n) :
    DecodePost dst (dst + n) s ((s.writeBuf (dst + i) b).setPend rest) where
  inv := by
    refine (h.writeBuf b (by omega)).setPend ?_
    have := h.pendSize
    rw [hb, List.length_cons] at this
    omega
  frame := rfl
  outside := fun x hx => by
    simp only [State.setPend_buf, State.writeBuf_buf, Memory.read_write]
    rw [if_neg (by omega)]
  shorter := ⟨[], rfl⟩
  isOpen := hs

/-- Everything the loop of LZW_DECODE can do: with a bound above the bytes wanted and the bits left it is never cut short. It ends
in the state DONE only where it began in it. -/
theorem decodeLoop_all {dst n k i : Nat} {s : State} (h : s.UnitInv) (hs : s.lzwState ≠ .idle)
    (hr : dst + n ≤ s.bufBytes) (hk : n - i + s.bitsLeft < k) (p : Prop)
    (hd : s.lzwState = .done → p ∨ (s.lzwPend = [] ∧ i < n)) :
    (decodeLoop dst n k i s).All (fun _ t => DecodePost dst (dst + n) s t ∧ s.SameFault t ∧ (t.lzwState = .done → p))
      (DecodeRaise dst (dst + n) s) (fun _ => False) := by
  induction k generalizing i s with
  | zero => omega
  | succ k ih =>
    simp only [decodeLoop]
    split
    · rename_i hin
      split
      · rename_i b rest hb
        have hdel := DecodePost.deliver h hs hb hr hin
        refine (ih (i := i + 1) hdel.inv hdel.isOpen hr ?_ ?_).mono (fun _ t ht => ⟨hdel.trans ht.1, ?_, ht.2.2⟩)
          (fun t ht => .after hdel ht) (fun _ => id)
        · have : ((s.writeBuf (dst + i) b).setPend rest).bitsLeft = s.bitsLeft := rfl
          omega
        · intro hdone
          rcases hd hdone with hp | ⟨hp, -⟩
          · exact .inl hp
          · rw [hb] at hp
            cases hp
        · exact State.SameFault.trans (t := (s.writeBuf (dst + i) b).setPend rest) ⟨rfl, rfl, rfl⟩ ht.2.1
      · rename_i hb
        split
        · exact ⟨h.recordFault _ _ _, rfl, fun _ _ => rfl, ⟨[], rfl⟩, s.faulted_recordFault _ _ _⟩
        · rename_i hnd
          have hw : 1 ≤ s.lzwWidth := by have := (h.opened hs).widthRange.1; omega
          refine ((readCode_all h).mono (fun _ _ => id) (fun _ hu => hu.decode) (fun _ => id)).bind ?_
          rintro oc s₁ ⟨h₁, hbits, -⟩
          have hp₁ : DecodePost dst (dst + n) s s₁ := h₁.decode hs
          cases oc with
          | none =>
            exact DecodeRaise.after hp₁ ⟨h₁.inv.recordFault _ _ _, rfl, fun _ _ => rfl, ⟨[], rfl⟩,
              s₁.faulted_recordFault _ _ _⟩
          | some c =>
            have hbits := hbits (by simp)
            refine ((stepCode_all c h₁.inv hp₁.isOpen).mono (fun _ _ => id)
              (fun u hu => DecodeRaise.after hp₁ hu.decode) (fun _ => id)).bind ?_
            intro r s₂ h₂
            obtain ⟨hp₂, hf₂, hb₂, hd₂⟩ := h₂.takeString (lo := dst) (hi := dst + n)
            have hp := hp₁.trans hp₂
            have hsz : (s₂.takeString r).bufBytes = s.bufBytes := by rw [hp.frame]
            refine (ih (i := i) hp.inv hp.isOpen (by rw [hsz]; exact hr) (by omega) ?_).mono
              (fun _ t ht => ⟨hp.trans ht.1, h₁.faults.trans (hf₂.trans ht.2.1), ht.2.2⟩)
              (fun t ht => .after hp ht) (fun _ => id)
            intro hdone
            rcases hd₂ hdone with hd' | hd'
            · exact absurd (h₁.coding.st.symm.trans hd') hnd
            · exact .inr ⟨by rw [hd', h₁.coding.pend, hb], hin⟩
    · rename_i hin
      refine ⟨⟨h, rfl, fun _ _ => rfl, ⟨[], rfl⟩, hs⟩, ⟨rfl, rfl, rfl⟩, fun hdone => ?_⟩
      rcases hd hdone with hp | ⟨-, hp⟩
      · exact hp
      · exact absurd hp hin

/-! ### The loop of a strict LZW_FINISH -/

/-- Everything the loop of a strict LZW_FINISH can do: with a bound above the bits left it is never cut short. -/
theorem strictLoop_all {k : Nat} {s : State} (h : s.UnitInv) (hs : s.lzwState ≠ .idle) (hk : s.bitsLeft < k) :
    (strictLoop k s).All (fun _ t => t.UnitInv ∧ s.CodeFrame t ∧ s.SameFault t ∧ (∃ taken, s.inBytes = taken ++ t.inBytes)
        ∧ t.lzwState ≠ .idle)
      (CodeRaise s) (fun _ => False) := by
  induction k generalizing s with
  | zero => omega
  | succ k ih =>
    simp only [strictLoop]
    split
    · have hw : 1 ≤ s.lzwWidth := by have := (h.opened hs).widthRange.1; omega
      refine (readCode_all h).bind ?_
      rintro oc s₁ ⟨h₁, hbits, -⟩
      have hs₁ : s₁.lzwState ≠ .idle := by rw [h₁.coding.st]; exact hs
      cases oc with
      | none => exact ⟨h₁.inv, h₁.frame, h₁.faults, h₁.shorter, hs₁⟩
      | some c =>
        have hbits := hbits (by simp)
        refine ((stepCode_all c h₁.inv hs₁).mono (fun _ _ => id)
          (fun u hu => CodeRaise.after h₁.frame h₁.shorter hu) (fun _ => id)).bind ?_
        intro r s₂ h₂
        have hf := h₁.frame.trans h₂.frame
        have hsh : ∃ taken, s.inBytes = taken ++ s₂.inBytes := by
          obtain ⟨a, ha⟩ := h₁.shorter
          exact ⟨a, by rw [ha, h₂.stream.1]⟩
        split
        · exact ⟨h₂.inv.recordFault _ _ _, hf.trans rfl, s₂.faulted_recordFault _ _ _, hsh⟩
        · have hb₂ := h₂.stream.2.1
          refine (ih h₂.inv h₂.isOpen (by omega)).mono (fun _ t ht => ?_)
            (fun t ht => CodeRaise.after hf hsh ht) (fun _ => id)
          obtain ⟨g₁, g₂, g₃, ⟨b, hb⟩, g₅⟩ := ht
          obtain ⟨a, ha⟩ := hsh
          exact ⟨g₁, hf.trans g₂, h₁.faults.trans (h₂.faults.trans g₃), ⟨a ++ b, by rw [ha, hb, List.append_assoc]⟩, g₅⟩
    · exact ⟨h, rfl, ⟨rfl, rfl, rfl⟩, ⟨[], rfl⟩, hs⟩

end Sys2Proof.Machine
end

