-- ==== Sys2Proof/Laws/Frames.lean ====
section
/-! SUPPORT. What each part of the input side leaves alone, in every state, whether it goes on or raises a fault; and that IN only
gets shorter from the front. -/

namespace Sys2Proof.Machine

/-- `t` comes after `s` by parts that read the stream. -/
def State.StreamStep (s t : State) : Prop :=
  s.StreamFrame t ∧ ∃ taken, s.inBytes = taken ++ t.inBytes

/-- `t` comes after `s` by parts that read and run codes. -/
def State.CodeStep (s t : State) : Prop :=
  s.CodeFrame t ∧ ∃ taken, s.inBytes = taken ++ t.inBytes

/-- `t` comes after `s` by parts that decode into the addresses `lo` up to `hi` of BUF. -/
def State.DecodeStep (lo hi : Nat) (s t : State) : Prop :=
  s.DecodeFrame t ∧ (∃ taken, s.inBytes = taken ++ t.inBytes)
    ∧ ∀ x, x < lo ∨ hi ≤ x → Memory.read t.buf x = Memory.read s.buf x

theorem taken_trans {a b c : List Byte} (h : ∃ x, a = x ++ b) (h' : ∃ x, b = x ++ c) : ∃ x, a = x ++ c := by
  obtain ⟨x, rfl⟩ := h
  obtain ⟨y, rfl⟩ := h'
  exact ⟨x ++ y, by rw [List.append_assoc]⟩

theorem State.StreamStep.trans {s t u : State} (h : s.StreamStep t) (h' : t.StreamStep u) : s.StreamStep u :=
  ⟨h.1.trans h'.1, taken_trans h.2 h'.2⟩

theorem State.CodeStep.trans {s t u : State} (h : s.CodeStep t) (h' : t.CodeStep u) : s.CodeStep u :=
  ⟨h.1.trans h'.1, taken_trans h.2 h'.2⟩

theorem State.DecodeStep.trans {lo hi : Nat} {s t u : State} (h : s.DecodeStep lo hi t) (h' : t.DecodeStep lo hi u) :
    s.DecodeStep lo hi u :=
  ⟨h.1.trans h'.1, taken_trans h.2.1 h'.2.1, fun x hx => (h'.2.2 x hx).trans (h.2.2 x hx)⟩

theorem State.StreamStep.code {s t : State} (h : s.StreamStep t) : s.CodeStep t := ⟨h.1.code, h.2⟩

theorem State.CodeStep.decode {lo hi : Nat} {s t : State} (h : s.CodeStep t) : s.DecodeStep lo hi t :=
  ⟨h.1.decode, h.2, fun x _ => by rw [h.1.buf.1]⟩

section
variable {α β : Type} {x : Flow α} {k : α → State → Flow β} {s : State}

/-- Parts in sequence, of which each only moves the state along `R`, move it along `R`. -/
theorem Flow.All.seq {R : State → State → Prop} (hR : ∀ {t u v}, R t u → R u v → R t v) {E : Fault → Prop}
    (h : x.All (fun _ t => R s t) (R s) E) (hk : ∀ a t, R s t → (k a t).All (fun _ u => R t u) (R t) E) :
    (x.bind k).All (fun _ t => R s t) (R s) E :=
  h.bind fun a t ht => (hk a t ht).mono (fun _ _ => hR ht) (fun _ => hR ht) (fun _ => id)

end

/-- A part that may do anything but move the state outside `R`. -/
abbrev Flow.Along {α : Type} (R : State → State → Prop) (s : State) (x : Flow α) : Prop :=
  x.All (fun _ t => R s t) (R s) (fun _ => True)

theorem Flow.Along.mono {α : Type} {R R' : State → State → Prop} {s : State} {x : Flow α} (h : x.Along R s)
    (hR : ∀ t, R s t → R' s t) : x.Along R' s :=
  Flow.All.mono h (fun _ => hR) hR (fun _ => id)

theorem Flow.Along.after {α : Type} {R : State → State → Prop} {s t : State} {x : Flow α}
    (hx : x.Along R t) (hR : ∀ {t u v}, R t u → R u v → R t v) (h : R s t) : x.Along R s :=
  Flow.All.mono hx (fun _ _ => hR h) (fun _ => hR h) (fun _ => id)

theorem inByte_step (exp got : Nat) (s : State) : (inByte exp got s).Along State.StreamStep s :=
  (inByte_all fun _ _ _ _ => ⟨rfl, [], rfl⟩).mono (fun _ _ ⟨rest, h, e⟩ => by subst e; exact ⟨rfl, [_], h⟩)
    (fun _ => id) (fun _ => id)

theorem bsrFill_step (s : State) : (bsrFill s).Along State.StreamStep s := by
  refine (inByte_step 1 0 s).seq .trans fun l t _ => ?_
  split
  · exact ⟨rfl, [], rfl⟩
  · refine Flow.All.seq (R := State.StreamStep) .trans ?_ fun _ _ _ => ⟨rfl, [], rfl⟩
    refine forUp_all (P := fun _ u => State.StreamStep t u) ⟨rfl, [], rfl⟩ fun j u _ _ hu => ?_
    exact ((inByte_step _ _ u).after .trans hu).bind fun _ v hv => hv.trans ⟨rfl, [], rfl⟩

theorem bsrNextByte_step (s : State) : (bsrNextByte s).Along State.StreamStep s := by
  unfold bsrNextByte
  split
  · exact ⟨rfl, [], rfl⟩
  · split
    · exact ⟨rfl, [], rfl⟩
    · refine (bsrFill_step s).seq .trans fun _ t _ => ?_
      split <;> exact ⟨rfl, [], rfl⟩

theorem drainLoop_step (k d : Nat) (s : State) : (drainLoop k d s).Along State.StreamStep s := by
  induction k generalizing d s with
  | zero => exact trivial
  | succ k ih =>
    simp only [drainLoop]
    split
    · exact ⟨rfl, [], rfl⟩
    · exact (bsrFill_step s).seq .trans fun _ t _ => (ih _ t.dropBlock).after .trans ⟨rfl, [], rfl⟩

theorem drain_step (s : State) : (drain s).Along State.StreamStep s :=
  (drainLoop_step _ _ s.dropBlock).after .trans ⟨rfl, [], rfl⟩

theorem fetchBits_step (k : Nat) (s : State) : (fetchBits k s).Along State.CodeStep s := by
  induction k generalizing s with
  | zero => exact ⟨rfl, [], rfl⟩
  | succ k ih =>
    simp only [fetchBits]
    split
    · refine ((bsrNextByte_step s).mono fun _ => State.StreamStep.code).seq .trans fun b t _ => ?_
      cases b with
      | none => exact ⟨rfl, [], rfl⟩
      | some b => exact (ih (t.pushBits b)).after .trans ⟨rfl, [], rfl⟩
    · exact ⟨rfl, [], rfl⟩

theorem readCode_step (s : State) : (readCode s).Along State.CodeStep s := by
  refine (fetchBits_step _ s).seq .trans fun ready t _ => ?_
  split <;> exact ⟨rfl, [], rfl⟩

theorem stepCode_step (c : Nat) (s : State) : (stepCode c s).Along State.CodeStep s := by
  unfold stepCode
  split
  · exact ⟨rfl, [], rfl⟩
  · split
    · exact ⟨rfl, [], rfl⟩
    · split
      · exact ⟨rfl, [], rfl⟩
      · exact ⟨s.codeFrame_afterCode _ c, [], by simp⟩

theorem strictLoop_step (k : Nat) (s : State) : (strictLoop k s).Along State.CodeStep s := by
  induction k generalizing s with
  | zero => exact trivial
  | succ k ih =>
    simp only [strictLoop]
    split
    · refine (readCode_step s).seq .trans fun oc t _ => ?_
      cases oc with
      | none => exact ⟨rfl, [], rfl⟩
      | some c =>
        refine (stepCode_step c t).seq .trans fun r u _ => ?_
        split
        · exact ⟨rfl, [], rfl⟩
        · exact ih u
    · exact ⟨rfl, [], rfl⟩

theorem readTerminator_step (s : State) : (readTerminator s).Along State.StreamStep s := by
  unfold readTerminator
  split
  · exact ⟨rfl, [], rfl⟩
  · refine (inByte_step 1 0 s).seq .trans fun l t _ => ?_
    split <;> exact ⟨rfl, [], rfl⟩

theorem strictFinish_step (s : State) : (strictFinish s).Along State.CodeStep s := by
  unfold strictFinish
  split
  · exact ⟨rfl, [], rfl⟩
  · refine (strictLoop_step _ s).seq .trans fun _ t _ => ?_
    refine Flow.All.seq (R := State.CodeStep) .trans (((readTerminator_step t.dropBlock).mono fun _ =>
      State.StreamStep.code).after .trans ⟨rfl, [], rfl⟩) fun _ _ _ => ⟨rfl, [], rfl⟩

theorem decodeLoop_step (dst n k i : Nat) (s : State) :
    (decodeLoop dst n k i s).Along (State.DecodeStep dst (dst + n)) s := by
  induction k generalizing i s with
  | zero => exact trivial
  | succ k ih =>
    simp only [decodeLoop]
    split
    · rename_i hi
      split
      · rename_i b rest _
        refine (ih (i + 1) ((s.writeBuf (dst + i) b).setPend rest)).after .trans ⟨rfl, ⟨[], rfl⟩, fun x hx => ?_⟩
        simp only [State.setPend_buf, State.writeBuf_buf, Memory.read_write]
        rw [if_neg (by omega)]
      · split
        · exact ⟨rfl, ⟨[], rfl⟩, fun _ _ => rfl⟩
        · refine ((readCode_step s).mono fun _ => State.CodeStep.decode).seq .trans fun oc t _ => ?_
          cases oc with
          | none => exact ⟨rfl, ⟨[], rfl⟩, fun _ _ => rfl⟩
          | some c =>
            refine ((stepCode_step c t).mono fun _ => State.CodeStep.decode).seq .trans fun r u _ => ?_
            refine (ih i (u.takeString r)).after .trans ?_
            cases r <;> exact ⟨rfl, ⟨[], rfl⟩, fun _ _ => rfl⟩
    · exact ⟨rfl, ⟨[], rfl⟩, fun _ _ => rfl⟩

end Sys2Proof.Machine
end

