-- ==== Sys2Proof/Laws/Output.lean ====
section
/-! SUPPORT. What the output side can do: the loops that read BUF as data, the CRC-32 of a list of bytes, OUT with a byte refused,
and what the parts of the output commands leave alone in every state. -/

namespace Sys2Proof.Machine

/-! ### Loops that read BUF as data -/

/-- A loop over a written range is the loop over its bytes, where the body leaves BUF alone. -/
theorem forUp_readByte {f : Byte → State → Flow Unit} (hf : ∀ b t u, f b t = .done () u → u.buf = t.buf) {a k i : Nat}
    {s : State} {bs : List Byte} (h : Memory.readList s.buf (a + i) k = some bs) :
    forUp (fun i t => (readByte (a + i) t).bind f) k i s = forBytes f bs s := by
  induction k generalizing i s bs with
  | zero =>
    obtain rfl : [] = bs := Option.some.inj h
    rfl
  | succ k ih =>
    simp only [Memory.readList] at h
    split at h
    case h_2 => cases h
    case h_1 b cs hb hcs =>
      obtain rfl := Option.some.inj h
      rw [forUp_succ, readByte_some hb, Flow.bind_done, forBytes_cons]
      cases hr : f b s with
      | done x u => exact ih (by rw [hf b s u hr, ← Nat.add_assoc]; exact hcs)
      | raised u => rfl
      | stop e => rfl

/-- A loop over a range whose byte `j` was never written does what it does for the bytes before, and stops there. -/
theorem forUp_readByte_none {f : Byte → State → Flow Unit} (hf : ∀ b t u, f b t = .done () u → u.buf = t.buf)
    {a k j : Nat} {s : State} {bs : List Byte} (hj : j < k) (h : Memory.readList s.buf a j = some bs)
    (hn : Memory.read s.buf (a + j) = none) :
    forUp (fun i t => (readByte (a + i) t).bind f) k 0 s
      = (forBytes f bs s).bind fun _ _ => .stop (.readUnwritten (a + j)) := by
  obtain ⟨l, rfl⟩ : ∃ l, k = j + (l + 1) := ⟨k - j - 1, by omega⟩
  have hbuf : ∀ bs t, ∀ u, forBytes f bs t = .done () u → u.buf = t.buf := by
    intro bs
    induction bs with
    | nil => rintro t u h; cases h; rfl
    | cons b bs ih =>
      intro t u h
      obtain ⟨_, v, h₁, h₂⟩ := Flow.bind_eq_done.mp h
      rw [ih v u h₂, hf b t v h₁]
  rw [forUp_add, forUp_readByte hf (by simpa using h)]
  cases hr : forBytes f bs s with
  | done x u =>
    rw [Flow.bind_done, Flow.bind_done, Nat.zero_add, forUp_succ,
      readByte_none (by rw [hbuf bs s u hr]; exact hn)]
    rfl
  | raised u => rfl
  | stop e => rfl

/-! ### CRC-32 -/

theorem crcBytes_cons (c : Word) (b : Byte) (bs : List Byte) : crcBytes c (b :: bs) = crcBytes (crcByte c b) bs := rfl

theorem crcBytes_append (c : Word) (bs cs : List Byte) : crcBytes c (bs ++ cs) = crcBytes (crcBytes c bs) cs := by
  simp only [crcBytes, List.foldl_append]

/-- The CRC state after a list of bytes was fed (rules R260 and R263). -/
theorem forBytes_crc (bs : List Byte) (s : State) :
    forBytes (fun b t => .done () (t.setCrc (crcByte t.crc b))) bs s = .done () (s.setCrc (crcBytes s.crc bs)) := by
  induction bs generalizing s with
  | nil => rfl
  | cons b bs ih =>
    rw [forBytes_cons, Flow.bind_done, ih]
    rfl

/-! ### OUT -/

/-- OUT takes a list of bytes into a chunk where it accepts each, and the CRC covers them (rule R266). -/
theorem forBytes_outCrcByte {s : State} {bs : List Byte} (h : s.outAccepts bs.length) :
    forBytes outCrcByte bs s = .done () ((s.gaveBytes bs).setCrc (crcBytes s.crc bs)) := by
  induction bs generalizing s with
  | nil =>
    rw [State.gaveBytes_nil]
    rfl
  | cons b bs ih =>
    have h' : ((s.gaveByte b).setCrc (crcByte s.crc b)).outAccepts bs.length := fun j hj => by
      have := h (j + 1) (by simp; omega)
      simpa [Nat.add_assoc, Nat.add_comm 1 j] using this
    rw [forBytes_cons, outCrcByte, outByte_accept (by simpa using h 0 (by simp))]
    simp only [Flow.bind_done, State.gaveByte_crc]
    rw [ih h', crcBytes_cons, ← s.gaveByte_gaveBytes]
    rfl

/-- The refusal of a byte, whatever list of bytes was accepted before it. -/
theorem outByte_refuse_after {s : State} {bs : List Byte} {b : Byte} {e : Word}
    (h : Store.find s.outRefusals (s.outBytes.length + bs.length) = some e) :
    outByte b (s.gaveBytes bs) = raise .outIoError e.toNat (s.gaveBytes bs).outCount.toNat (s.gaveBytes bs) :=
  outByte_refuse (by simpa [State.gaveBytes] using h)

theorem forBytes_append (f : Byte → State → Flow Unit) (bs cs : List Byte) (s : State) :
    forBytes f (bs ++ cs) s = (forBytes f bs s).bind fun _ t => forBytes f cs t := by
  induction bs generalizing s with
  | nil => rfl
  | cons b bs ih =>
    rw [List.cons_append, forBytes_cons, forBytes_cons, Flow.bind_assoc]
    congr 1
    funext _ t
    exact ih t

theorem outByte_keeps_buf {b : Byte} {s t : State} (h : outByte b s = .done () t) : t.buf = s.buf := by
  unfold outByte at h
  split at h
  · cases h
    rfl
  · cases h

theorem outCrcByte_keeps_buf {b : Byte} {s t : State} (h : outCrcByte b s = .done () t) : t.buf = s.buf := by
  obtain ⟨_, u, h₁, h₂⟩ := Flow.bind_eq_done.mp h
  cases h₂
  exact (outByte_keeps_buf h₁ :)

theorem State.gaveBytes_append (s : State) (bs cs : List Byte) :
    (s.gaveBytes bs).gaveBytes cs = s.gaveBytes (bs ++ cs) := by
  simp [State.gaveBytes, BitVec.add_assoc, BitVec.ofNat_add]

/-- The state of a chunk whose length and type OUT has accepted (rule R266). -/
def State.chunkHead (s : State) : State :=
  (s.gaveBytes (be32 s.a1 ++ be32 s.a2)).setCrc (crcBytes 0xFFFFFFFF (be32 s.a2))

theorem State.chunkHead_buf (s : State) : s.chunkHead.buf = s.buf := rfl

theorem State.chunkHead_accepts {s : State} {n : Nat} (h : s.outAccepts (8 + n)) : s.chunkHead.outAccepts n :=
  State.outAccepts_gaveBytes (bs := be32 s.a1 ++ be32 s.a2) h

/-- CHUNK_WRITE once OUT has accepted the length and the type. -/
theorem chunkWrite_head {s : State} (hr : s.addr + s.count ≤ s.bufBytes) (ho : s.outAccepts 8) :
    chunkWrite s
      = (forUp (fun i t => (readByte (s.addr + i) t).bind outCrcByte) s.count 0 s.chunkHead).bind fun _ s₄ =>
        (forBytes outByte (be32 (s₄.crc ^^^ 0xFFFFFFFF)) s₄).bind fun _ s₅ =>
          .done () (s₅.setRes (BitVec.ofNat 32 (s.count + 12))) := by
  have h₄ : (s.gaveBytes (be32 s.a1)).outAccepts 4 := State.outAccepts_gaveBytes (bs := be32 s.a1) ho
  have hs : (((s.gaveBytes (be32 s.a1)).setCrc 0xFFFFFFFF).gaveBytes (be32 s.chunkType)).setCrc
      (crcBytes 0xFFFFFFFF (be32 s.chunkType)) = s.chunkHead := by
    rw [State.chunkHead, ← State.gaveBytes_append]
    rfl
  rw [chunkWrite, rangeCheck_pass hr, Flow.bind_done, forBytes_outByte (s := s) (State.outAccepts_mono ho (by simp [be32])),
    Flow.bind_done, forBytes_outCrcByte (s := (s.gaveBytes (be32 s.a1)).setCrc 0xFFFFFFFF) (bs := be32 s.chunkType) h₄, Flow.bind_done, ← hs]
  rfl

/-! ### What a completed loop has done -/

theorem forBytes_outByte_inv {bs : List Byte} {s t : State} (h : forBytes outByte bs s = .done () t) :
    t = s.gaveBytes bs := by
  induction bs generalizing s with
  | nil =>
    cases h
    exact (State.gaveBytes_nil _).symm
  | cons b bs ih =>
    obtain ⟨_, u, h₁, h₂⟩ := Flow.bind_eq_done.mp h
    rw [ih h₂, ← s.gaveByte_gaveBytes]
    congr 1
    unfold outByte at h₁
    split at h₁
    · cases h₁
      rfl
    · cases h₁

theorem forBytes_outCrcByte_inv {bs : List Byte} {s t : State} (h : forBytes outCrcByte bs s = .done () t) :
    t = (s.gaveBytes bs).setCrc (crcBytes s.crc bs) := by
  induction bs generalizing s with
  | nil =>
    cases h
    rw [State.gaveBytes_nil]
    rfl
  | cons b bs ih =>
    obtain ⟨_, u, h₁, h₂⟩ := Flow.bind_eq_done.mp h
    obtain ⟨_, v, h₃, h₄⟩ := Flow.bind_eq_done.mp h₁
    cases h₄
    rw [ih h₂, crcBytes_cons]
    unfold outByte at h₃
    split at h₃
    · cases h₃
      rw [← s.gaveByte_gaveBytes]
      rfl
    · cases h₃

/-- A completed loop over a range of BUF read its bytes, all of them written, in order. -/
theorem forUp_readByte_inv {f : Byte → State → Flow Unit} (hf : ∀ b t u, f b t = .done () u → u.buf = t.buf)
    {a k i : Nat} {s t : State} (h : forUp (fun i t => (readByte (a + i) t).bind f) k i s = .done () t) :
    ∃ bs, Memory.readList s.buf (a + i) k = some bs ∧ forBytes f bs s = .done () t := by
  induction k generalizing i s with
  | zero => exact ⟨[], rfl, h⟩
  | succ k ih =>
    obtain ⟨_, u, h₁, h₂⟩ := Flow.bind_eq_done.mp h
    obtain ⟨b, v, h₃, h₄⟩ := Flow.bind_eq_done.mp h₁
    cases hb : Memory.read s.buf (a + i) with
    | none =>
      rw [readByte_none hb] at h₃
      cases h₃
    | some c =>
      rw [readByte_some hb] at h₃
      cases h₃
      obtain ⟨bs, h₅, h₆⟩ := ih h₂
      rw [hf b s u h₄, ← Nat.add_assoc] at h₅
      refine ⟨b :: bs, ?_, by rw [forBytes_cons, h₄]; exact h₆⟩
      simp only [Memory.readList, hb, h₅]

/-! ### What the output commands' parts leave alone -/

/-- `t` comes after `s` by parts that write OUT and the CRC state. -/
def State.OutStep (s t : State) : Prop :=
  t = { s with
    outBytes := t.outBytes, outCount := t.outCount, crc := t.crc
    fault := t.fault, finfo0 := t.finfo0, finfo1 := t.finfo1 }
  ∧ (∃ more, t.outBytes = s.outBytes ++ more) ∧ (t.fault = s.fault ∧ t.finfo0 = s.finfo0 ∧ t.finfo1 = s.finfo1 ∨ t.Faulted)

theorem State.OutStep.refl (s : State) : s.OutStep s := ⟨rfl, ⟨[], by simp⟩, .inl ⟨rfl, rfl, rfl⟩⟩

theorem State.OutStep.trans {s t u : State} (h : s.OutStep t) (h' : t.OutStep u) : s.OutStep u := by
  obtain ⟨h₁, ⟨x, hx⟩, h₂⟩ := h
  obtain ⟨h₁', ⟨y, hy⟩, h₂'⟩ := h'
  refine ⟨by rw [h₁', h₁], ⟨x ++ y, by rw [hy, hx, List.append_assoc]⟩, ?_⟩
  rcases h₂' with h₂' | h₂'
  · rcases h₂ with h₂ | ⟨c, hc⟩
    · exact .inl (State.SameFault.trans (t := t) h₂ h₂')
    · exact .inr ⟨c, by rw [h₂'.1, hc]⟩
  · exact .inr h₂'

theorem State.OutStep.recordFault (s : State) (c : FaultCode) (x y : Word) : s.OutStep (s.recordFault c x y) :=
  ⟨rfl, ⟨[], by simp⟩, .inr ⟨c, rfl⟩⟩

theorem State.OutStep.setCrc (s : State) (v : Word) : s.OutStep (s.setCrc v) :=
  ⟨rfl, ⟨[], by simp⟩, .inl ⟨rfl, rfl, rfl⟩⟩

theorem State.OutStep.gaveByte (s : State) (b : Byte) : s.OutStep (s.gaveByte b) :=
  ⟨rfl, ⟨[b], rfl⟩, .inl ⟨rfl, rfl, rfl⟩⟩

/-- The outcomes of an output part: it moves along `OutStep`, or stops at an unwritten byte. -/
abbrev Flow.OutAlong {α : Type} (s : State) (x : Flow α) : Prop :=
  x.All (fun _ t => s.OutStep t) s.OutStep (fun f => ∃ a, f = .readUnwritten a)

theorem outByte_step (b : Byte) (s : State) : (outByte b s).OutAlong s :=
  (outByte_all fun x y => .recordFault s _ x y).mono (fun _ _ e => e ▸ .gaveByte s b) (fun _ => id)
    (fun _ h => h)

theorem readByte_step (a : Nat) (s : State) : (readByte a s).OutAlong s :=
  (readByte_all a s (Q := s.OutStep)).mono (fun _ _ h => h.1 ▸ .refl s) (fun _ => id) (fun _ => id)

theorem outCrcByte_step (b : Byte) (s : State) : (outCrcByte b s).OutAlong s :=
  (outByte_step b s).seq .trans fun _ t _ => .setCrc t _

theorem forBytes_step {f : Byte → State → Flow Unit} (hf : ∀ b s, (f b s).OutAlong s) (bs : List Byte) (s : State) :
    (forBytes f bs s).OutAlong s :=
  forBytes_all (P := s.OutStep) (.refl s) fun b t ht =>
    (hf b t).mono (fun _ _ => ht.trans) (fun _ => ht.trans) (fun _ => id)

/-- A loop that feeds a range of BUF to a part that moves along `OutStep`. -/
theorem forUp_step {f : Byte → State → Flow Unit} (hf : ∀ b s, (f b s).OutAlong s) (a k i : Nat) (s : State) :
    (forUp (fun i t => (readByte (a + i) t).bind f) k i s).OutAlong s :=
  forUp_all (P := fun _ t => s.OutStep t) (.refl s) fun j t _ _ ht =>
    ((readByte_step (a + j) t).seq .trans fun b u _ => hf b u).mono (fun _ _ => ht.trans) (fun _ => ht.trans)
      (fun _ => id)

/-! ### A part that ends a command has recorded a listed fault -/

/-- Where a part ends its command, a fault of rule R401 is recorded. -/
abbrev Flow.Faults {α : Type} (x : Flow α) : Prop :=
  x.All (fun _ _ => True) State.Faulted (fun _ => True)

theorem Flow.Faults.bind {α β : Type} {x : Flow α} {k : α → State → Flow β} (h : x.Faults) (hk : ∀ a t, (k a t).Faults) :
    (x.bind k).Faults :=
  Flow.All.bind h fun a t _ => hk a t

theorem rangeCheck_faults (a n : Nat) (s : State) : (rangeCheck a n s).Faults :=
  (rangeCheck_all ⟨_, rfl⟩).mono (fun _ _ _ => trivial) (fun _ => id) (fun _ => id)

theorem outByte_faults (b : Byte) (s : State) : (outByte b s).Faults :=
  (outByte_all fun _ _ => ⟨_, rfl⟩).mono (fun _ _ _ => trivial) (fun _ => id) (fun _ => id)

theorem outCrcByte_faults (b : Byte) (s : State) : (outCrcByte b s).Faults :=
  (outByte_faults b s).bind fun _ _ => trivial

theorem forBytes_faults {f : Byte → State → Flow Unit} (hf : ∀ b s, (f b s).Faults) (bs : List Byte) (s : State) :
    (forBytes f bs s).Faults :=
  forBytes_all (P := fun _ => True) trivial fun b t _ => hf b t

theorem forUp_faults {f : Byte → State → Flow Unit} (hf : ∀ b s, (f b s).Faults) (a k i : Nat) (s : State) :
    (forUp (fun i t => (readByte (a + i) t).bind f) k i s).Faults :=
  forUp_all (P := fun _ _ => True) trivial fun j t _ _ _ =>
    Flow.Faults.bind ((readByte_all (a + j) t).mono (fun _ _ _ => trivial) (fun _ => id) (fun _ _ => trivial)) hf

theorem chunkWrite_faults (s : State) : (chunkWrite s).Faults :=
  (rangeCheck_faults _ _ s).bind fun _ _ => (forBytes_faults outByte_faults _ _).bind fun _ _ =>
    (forBytes_faults outCrcByte_faults _ _).bind fun _ _ => (forUp_faults outCrcByte_faults _ _ _ _).bind fun _ _ =>
      (forBytes_faults outByte_faults _ _).bind fun _ _ => trivial

end Sys2Proof.Machine
end

