-- ==== Sys2Proof/Laws/Commands.lean ====
section
/-! SUPPORT. What each command keeps of the invariants, and how it can end, from a state whose units keep theirs. -/

namespace Sys2Proof.Machine

/-- What a command keeps, whether it succeeds or faults. -/
structure Kept (s t : State) : Prop where
  inv : t.UnitInv
  ctrl : t.ctrl = s.ctrl
  faults : s.SameFault t ∨ t.Faulted
  done : t.lzwState = .done → s.lzwState = .done ∨ t.Faulted

/-- A command that ends in a next state and nothing else. -/
abbrev Flow.Runs (s : State) (x : Flow Unit) : Prop :=
  x.All (fun _ t => Kept s t) (Kept s) (fun _ => False)

/-- A command that ends in a next state, or stops at an unwritten byte. -/
abbrev Flow.RunsOrReads (s : State) (x : Flow Unit) : Prop :=
  x.All (fun _ t => Kept s t) (Kept s) (fun f => ∃ a, f = .readUnwritten a)

theorem Kept.refl {s : State} (h : s.UnitInv) : Kept s s := ⟨h, rfl, .inl (.refl s), .inl⟩

theorem Kept.setRes {s t : State} (h : Kept s t) (v : Word) : Kept s (t.setRes v) :=
  ⟨h.inv.setRes v, h.ctrl, h.faults, h.done⟩

theorem Kept.recordFault {s : State} (h : s.UnitInv) (c : FaultCode) (x y : Word) : Kept s (s.recordFault c x y) :=
  ⟨h.recordFault c x y, rfl, .inr ⟨c, rfl⟩, .inl⟩

theorem RaisePost.kept {s t : State} (h : RaisePost s t) : Kept s t :=
  ⟨h.inv, h.frame.regs.2.2.2.2.1, .inr h.faulted, fun _ => .inr h.faulted⟩

theorem State.CodeFrame.ctrl {s t : State} (h : s.CodeFrame t) : t.ctrl = s.ctrl := by rw [h]

theorem State.DecodeFrame.ctrl {s t : State} (h : s.DecodeFrame t) : t.ctrl = s.ctrl := by rw [h]

theorem CodeRaise.kept {s t : State} (h : CodeRaise s t) : Kept s t :=
  ⟨h.inv, h.frame.ctrl, .inr h.faulted, fun _ => .inr h.faulted⟩

theorem DecodeRaise.kept {lo hi : Nat} {s t : State} (h : DecodeRaise lo hi s t) : Kept s t :=
  ⟨h.inv, h.frame.ctrl, .inr h.faulted, fun _ => .inr h.faulted⟩

/-- A range check, then a command's body on a range inside BUF. -/
theorem runs_range {s : State} (h : s.UnitInv) {a n : Nat} {E : Fault → Prop} {k : Unit → State → Flow Unit}
    (hk : a + n ≤ s.bufBytes → (k () s).All (fun _ t => Kept s t) (Kept s) E) :
    ((rangeCheck a n s).bind k).All (fun _ t => Kept s t) (Kept s) E :=
  (rangeCheck_all (.recordFault h _ _ _)).bind fun _ t ht => by
    obtain ⟨rfl, hr⟩ := ht
    exact hk hr

/-! ### Raw input and the block stream reader -/

theorem inRead_runs {s : State} (h : s.UnitInv) : (inRead s).Runs s := by
  refine runs_range h fun hr => ?_
  refine Flow.All.bind (P := fun _ t => Kept s t ∧ t.bufBytes = s.bufBytes ∧ t.lzwState = s.lzwState)
    (forUp_all (P := fun _ t => Kept s t ∧ t.bufBytes = s.bufBytes ∧ t.lzwState = s.lzwState)
      ⟨.refl h, rfl, rfl⟩ fun j t _ hj ht => ?_) fun _ t ht => ht.1.setRes _
  obtain ⟨ht, hb, hs⟩ := ht
  refine (inByte_all fun _ c x y =>
    ⟨ht.inv.recordFault c x y, ht.ctrl, .inr ⟨c, rfl⟩, fun _ => .inr ⟨c, rfl⟩⟩).bind ?_
  rintro b u ⟨rest, -, rfl⟩
  have ha : s.addr + j < (t.tookByte rest).bufBytes := by
    simp only [State.tookByte_bufBytes]
    omega
  exact ⟨⟨(ht.inv.tookByte rest).writeBuf b ha, ht.ctrl, ht.faults, ht.done⟩, hb, hs⟩

theorem bsrOpen_kept {s : State} (h : s.UnitInv) : Kept s (s.openBsr.setRes 0) :=
  ⟨h.openBsr.setRes 0, rfl, .inl ⟨rfl, rfl, rfl⟩, .inl⟩

theorem bsrCopy_runs {s t : State} (eodok : Bool) {a n : Nat} (ht : Kept s t) (hr : a + n ≤ t.bufBytes) :
    (bsrCopy eodok a n t).Runs s := by
  unfold bsrCopy
  split
  · split
    · exact ht.setRes 0
    · exact ⟨ht.inv.recordFault _ _ _, ht.ctrl, .inr ⟨_, rfl⟩, fun _ => .inr ⟨_, rfl⟩⟩
  · have hb := ht.inv.bsrRange
    have hw : (t.writeBufList a (t.bsrSlice (min n t.bsrLeft))).UnitInv :=
      ht.inv.writeBufList (by simp [State.bsrSlice]; omega)
    refine Kept.setRes (t := t.copyBlock a (min n t.bsrLeft)) ⟨?_, ht.ctrl, ht.faults, ht.done⟩ _
    refine hw.setPos ?_
    simp only [State.bsrLeft, State.writeBufList_bsrLen]
    omega

theorem bsrRead_runs {s : State} (eodok : Bool) (h : s.UnitInv) : (bsrRead eodok s).Runs s := by
  refine runs_range h fun hr => ?_
  split
  · exact (Kept.refl h).setRes 0
  · refine Flow.All.bind (P := fun _ t => Kept s t ∧ t.bufBytes = s.bufBytes) ?_ fun _ t ht =>
      bsrCopy_runs eodok ht.1 (by rw [ht.2]; exact hr)
    split
    · rename_i hp
      refine (bsrFill_all h hp.1).mono (fun _ t ht => ?_) (fun t ht => ht.kept) (fun _ => id)
      exact ⟨⟨ht.inv, ht.frame.regs.2.2.2.2.1, .inl ht.faults, fun hd => .inl (by rw [← ht.frame.sameLzw.st]; exact hd)⟩,
        ht.frame.sameBuf.size⟩
    · exact ⟨.refl h, rfl⟩

theorem DrainPost.kept {s t : State} (h : DrainPost s t) : Kept s t :=
  ⟨h.inv, h.frame.regs.2.2.2.2.1, .inl h.faults, fun hd => .inl (by rw [← h.frame.sameLzw.st]; exact hd)⟩

theorem bsrDrain_runs {s : State} (h : s.UnitInv) :
    ((drain s).bind fun d t => .done () (t.setRes (BitVec.ofNat 32 d))).Runs s :=
  ((drain_all h).mono (fun _ _ => DrainPost.kept) (fun _ => RaisePost.kept) (fun _ => id)).bind
    fun _ _ ht => ht.setRes _

/-! ### The LZW decompressor -/

theorem lzwInit_runs {s : State} (m : Nat) (h : s.UnitInv) : (lzwInit m s).Runs s := by
  unfold lzwInit
  split
  · exact .recordFault h _ _ _
  · have ho : State.OpenInv { s with lzwMin := m }.lzwReset :=
      State.OpenInv.lzwReset (show 2 ≤ m by omega) (show m ≤ 8 by omega)
    show Kept s ((s.openLzw m).setRes 0)
    refine Kept.setRes (s := s) (t := s.openLzw m) ⟨?_, rfl, .inl ⟨rfl, rfl, rfl⟩, fun hd => (by cases hd)⟩ 0
    exact {
      bufSize := h.bufSize
      bufForm := h.bufForm
      bufInside := h.bufInside
      bsrRange := ⟨Nat.le_refl _, Nat.zero_le _⟩
      bsrForm := h.bsrForm
      bsrFilled := fun i hi => absurd hi (Nat.not_lt_zero i)
      prefixForm := h.prefixForm
      suffixForm := h.suffixForm
      lzwSizes := ⟨ho.minRange.2, ho.widthRange.2, ho.nextRange.2, Nat.zero_lt_succ _⟩
      accumulator := ⟨Nat.zero_le _, Nat.one_pos⟩
      pendSize := Nat.zero_le _
      opened := fun _ => ho.of_eq rfl rfl rfl rfl rfl rfl rfl }

theorem lzwDecode_runs {s : State} (h : s.UnitInv) : (lzwDecode s).Runs s := by
  unfold lzwDecode
  split
  · exact .recordFault h _ _ _
  · rename_i hs
    refine runs_range h fun hr => ?_
    refine Flow.All.bind (P := fun _ t => Kept s t) ?_ fun _ t ht => ht.setRes _
    refine (decodeLoop_all h hs hr (by omega) (s.lzwState = .done) .inl).mono (fun _ t ht => ?_)
      (fun t ht => ht.kept) (fun _ => id)
    exact ⟨ht.1.inv, ht.1.frame.ctrl, .inl ht.2.1, fun hd => .inl (ht.2.2 hd)⟩

theorem readTerminator_kept {s : State} (h : s.UnitInv) : (readTerminator s).Runs s := by
  unfold readTerminator
  split
  · exact .refl h
  · refine (inByte_all fun _ c x y => .recordFault h c x y).bind ?_
    rintro l t ⟨rest, -, rfl⟩
    split
    · exact ⟨(h.tookByte rest).recordFault _ _ _, rfl, .inr ⟨_, rfl⟩, .inl⟩
    · exact ⟨(h.tookByte rest).closeBsr, rfl, .inl ⟨rfl, rfl, rfl⟩, .inl⟩

/-- The end check of a strict LZW_FINISH leaves the unit open and without a fault, or raises one. -/
theorem strictFinish_all {s : State} (h : s.UnitInv) (hs : s.lzwState ≠ .idle) :
    (strictFinish s).All (fun _ t => t.UnitInv ∧ t.ctrl = s.ctrl ∧ (s.SameFault t ∨ t.Faulted)) (Kept s)
      (fun _ => False) := by
  unfold strictFinish
  split
  · exact .recordFault h _ _ _
  · refine ((strictLoop_all h hs (by omega)).mono (fun _ _ => id) (fun _ => CodeRaise.kept) (fun _ => id)).bind ?_
    rintro _ t ⟨h₁, h₂, h₃, -, -⟩
    have hk : ∀ u, Kept t.dropBlock u → u.UnitInv ∧ u.ctrl = s.ctrl ∧ (s.SameFault u ∨ u.Faulted) := fun u hu =>
      ⟨hu.inv, hu.ctrl.trans h₂.ctrl, hu.faults.imp_left fun hf => h₃.trans hf⟩
    have hraise : ∀ u, Kept t.dropBlock u → u.Faulted → Kept s u := fun u hu hf =>
      ⟨hu.inv, hu.ctrl.trans h₂.ctrl, .inr hf, fun _ => .inr hf⟩
    unfold readTerminator
    split
    · exact hk _ (.refl h₁.dropBlock)
    · rw [Flow.bind_assoc]
      refine (inByte_all (s := t.dropBlock) fun _ c x y => hraise _ (.recordFault h₁.dropBlock c x y) ⟨c, rfl⟩).bind ?_
      rintro l u ⟨rest, -, rfl⟩
      split
      · exact hraise _ ⟨(h₁.dropBlock.tookByte rest).recordFault _ _ _, rfl, .inr ⟨_, rfl⟩, .inl⟩ ⟨_, rfl⟩
      · exact hk _ ⟨(h₁.dropBlock.tookByte rest).closeBsr, rfl, .inl ⟨rfl, rfl, rfl⟩, .inl⟩

theorem lzwFinish_runs {s : State} (h : s.UnitInv) : (lzwFinish s).Runs s := by
  unfold lzwFinish
  split
  · exact .recordFault h _ _ _
  · rename_i hs
    refine Flow.All.bind (P := fun _ t => t.UnitInv ∧ t.ctrl = s.ctrl ∧ (s.SameFault t ∨ t.Faulted)) ?_ ?_
    · split
      · exact strictFinish_all h hs
      · exact (drain_all h).mono (fun _ t ht => ⟨ht.inv, ht.frame.regs.2.2.2.2.1, .inl ht.faults⟩)
          (fun _ => RaisePost.kept) (fun _ => id)
    · rintro d t ⟨h₁, h₂, h₃⟩
      exact Kept.setRes ⟨h₁.closeLzw, h₂, h₃, fun hd => by cases hd⟩ _

/-! ### The output side -/

/-- What moves along `OutStep` keeps the invariants. -/
theorem State.OutStep.kept {s t : State} (h : s.UnitInv) (ht : s.OutStep t) : Kept s t := by
  obtain ⟨e, -, hf⟩ := ht
  have hl : t.lzwState = s.lzwState := by rw [e]
  refine ⟨h.of_same ⟨by rw [e], by rw [e]⟩ ⟨by rw [e], by rw [e], by rw [e]⟩ ?_, by rw [e], hf, fun hd => .inl (hl ▸ hd)⟩
  constructor <;> rw [e]

theorem Flow.OutAlong.kept {s : State} {x : Flow Unit} (h : s.UnitInv) (hx : x.OutAlong s) : x.RunsOrReads s :=
  Flow.All.mono hx (fun _ _ => State.OutStep.kept h) (fun _ => State.OutStep.kept h) (fun _ => id)

theorem crcUpdate_runs {s : State} (h : s.UnitInv) : (crcUpdate s).RunsOrReads s := by
  refine runs_range h fun _ => Flow.All.bind (P := fun _ t => Kept s t) ?_ fun _ t ht => ht.setRes _
  exact (forUp_step (f := fun b t => .done () (t.setCrc (crcByte t.crc b))) (fun b t => .setCrc t _) _ _ _ s).kept h

theorem outWrite_runs {s : State} (h : s.UnitInv) : (outWrite s).RunsOrReads s := by
  refine runs_range h fun _ => Flow.All.bind (P := fun _ t => Kept s t) ?_ fun _ t ht => ht.setRes _
  exact (forUp_step outByte_step _ _ _ s).kept h

/-- CHUNK_WRITE after its range check. -/
theorem chunkBody_step (a n : Nat) (len typ : Word) (v : Word) (s : State) :
    Flow.OutAlong s
      ((forBytes outByte (be32 len) s).bind fun _ s₂ =>
        (forBytes outCrcByte (be32 typ) (s₂.setCrc v)).bind fun _ s₃ =>
        (forUp (fun i t => (readByte (a + i) t).bind outCrcByte) n 0 s₃).bind fun _ s₄ =>
          forBytes outByte (be32 (s₄.crc ^^^ v)) s₄) := by
  refine (forBytes_step outByte_step _ s).seq .trans fun _ s₂ _ => ?_
  refine Flow.All.seq .trans ((forBytes_step outCrcByte_step _ (s₂.setCrc v)).mono
    (fun _ _ => (State.OutStep.setCrc s₂ v).trans) (fun _ => (State.OutStep.setCrc s₂ v).trans) (fun _ => id)) ?_
  intro _ s₃ _
  exact (forUp_step outCrcByte_step _ _ _ s₃).seq .trans fun _ s₄ _ => forBytes_step outByte_step _ s₄

theorem chunkWrite_runs {s : State} (h : s.UnitInv) : (chunkWrite s).RunsOrReads s := by
  refine runs_range h fun _ => ?_
  have := Flow.All.bind ((chunkBody_step s.addr s.count s.a1 s.chunkType 0xFFFFFFFF s).kept h)
    (k := fun _ t => .done () (t.setRes (BitVec.ofNat 32 (s.count + 12))))
    (R := fun _ t => Kept s t) fun _ t ht => ht.setRes _
  simpa only [Flow.bind_assoc] using this

theorem zlibCompress_runs {s : State} (h : s.UnitInv) : (zlibCompress s).RunsOrReads s := by
  refine runs_range h fun _ => ?_
  refine (readBytes_all s.addr s.count s).bind fun x t ht => ?_
  obtain ⟨rfl, -⟩ := ht
  simp only
  split
  · exact .recordFault h _ _ _
  · show Kept t ((t.putZlib x (zlibStream t.deflateChoice x)).setRes _)
    refine Kept.setRes (s := t) (t := t.putZlib x (zlibStream t.deflateChoice x)) ⟨?_, rfl, .inl ⟨rfl, rfl, rfl⟩, .inl⟩ _
    refine (h.writeBufList (a := t.dest) (bs := zlibStream t.deflateChoice x) (fun _ => by omega)).of_same
      ⟨rfl, rfl⟩ ⟨rfl, rfl, rfl⟩ ⟨rfl, rfl, rfl, rfl, rfl, rfl, rfl, rfl, rfl, rfl, rfl⟩

end Sys2Proof.Machine
end

