-- ==== Sys2Proof/Laws/Decode.lean ====
section
/-! SUPPORT. The loops of LZW_DECODE and LZW_FINISH pass by pass: what one code read from the accumulator does, that a loop's bound
does not matter once it is large enough, that states that read alike decode and finish alike, and that a decode can be cut in two. -/

namespace Sys2Proof.Machine

/-! ### One code from the accumulator -/

/-- The code in the accumulator is its low `lzw_width` bits (rule R206). -/
theorem State.nextCode_eq {s : State} (h : s.lzwWidth ≤ 12) : s.nextCode = s.lzwBitbuf.toNat % 2 ^ s.lzwWidth := by
  have hw : 2 ^ s.lzwWidth ≤ 2 ^ 12 := Nat.pow_le_pow_right (by omega) h
  have hp : 1 ≤ 2 ^ s.lzwWidth := Nat.one_le_two_pow
  have hm : ((1 : Word) <<< s.lzwWidth - 1).toNat = 2 ^ s.lzwWidth - 1 := by
    rw [BitVec.toNat_sub_of_le, BitVec.toNat_shiftLeft, show (1 : Word).toNat = 1 from rfl, Nat.one_shiftLeft,
      Nat.mod_eq_of_lt (by omega)]
    rw [BitVec.le_def, BitVec.toNat_shiftLeft, show (1 : Word).toNat = 1 from rfl, Nat.one_shiftLeft,
      Nat.mod_eq_of_lt (by omega)]
    exact hp
  rw [State.nextCode, BitVec.toNat_and, hm, Nat.and_two_pow_sub_one_eq_mod]

theorem bsrNextByte_held {s : State} (h : s.bsrPos ≠ s.bsrLen) : bsrNextByte s = serveByte s := by
  rw [bsrNextByte, if_pos h]

theorem bsrNextByte_eod {s : State} (h : s.bsrPos = s.bsrLen) (ht : s.bsrTerm = true) :
    bsrNextByte s = .done none s := by
  rw [bsrNextByte, if_neg (by omega), if_pos ht]

theorem bsrNextByte_fill {s : State} (h : s.bsrPos = s.bsrLen) (ht : s.bsrTerm = false) :
    bsrNextByte s = (bsrFill s).bind fun _ t => if t.bsrPos ≠ t.bsrLen then serveByte t else .done none t := by
  rw [bsrNextByte, if_neg (by omega), if_neg (by simp [ht])]

theorem fetchBits_ready {k : Nat} {s : State} (h : s.lzwWidth ≤ s.lzwNbits) : fetchBits k s = .done true s := by
  cases k with
  | zero => rfl
  | succ k => rw [fetchBits, if_neg (by omega)]

theorem fetchBits_more {k : Nat} {s : State} (h : s.lzwNbits < s.lzwWidth) :
    fetchBits (k + 1) s = (bsrNextByte s).bind fun b t =>
      match b with
      | none => .done false t
      | some b => fetchBits k (t.pushBits b) := by
  rw [fetchBits, if_pos h] <;> rfl

/-- A bound that is enough for a code is as good as any larger one. -/
theorem fetchBits_bound {k l : Nat} {s : State} (h : s.lzwWidth ≤ s.lzwNbits + 8 * k) (hl : k ≤ l) :
    fetchBits l s = fetchBits k s := by
  induction k generalizing l s with
  | zero => rw [fetchBits_ready (by omega), fetchBits_ready (by omega)]
  | succ k ih =>
    by_cases hn : s.lzwNbits < s.lzwWidth
    · obtain ⟨l, rfl⟩ : ∃ j, l = j + 1 := ⟨l - 1, by omega⟩
      rw [fetchBits_more hn, fetchBits_more hn]
      cases hb : bsrNextByte s with
      | raised t => rfl
      | stop f => rfl
      | done b t =>
        cases b with
        | none => rfl
        | some b =>
          have hf := bsrNextByte_step s
          rw [hb] at hf
          have hlz := hf.1.sameLzw
          refine ih ?_ (by omega)
          simp only [State.pushBits_lzwWidth, State.pushBits_lzwNbits, hlz.nbits, hlz.width]
          omega
    · rw [fetchBits_ready (by omega), fetchBits_ready (by omega)]

/-- With too few bits for a code and a byte held in the BSR, the reading of a code takes that byte first. -/
theorem readCode_held {s : State} (hn : s.lzwNbits < s.lzwWidth) (hp : s.bsrPos ≠ s.bsrLen) :
    readCode s = readCode (State.pushBits { s with bsrPos := s.bsrPos + 1 } (s.bsrByte s.bsrPos)) := by
  obtain ⟨k, hk⟩ : ∃ k, s.lzwWidth = k + 1 := ⟨s.lzwWidth - 1, by omega⟩
  have h₁ : fetchBits s.lzwWidth s
      = fetchBits k (State.pushBits { s with bsrPos := s.bsrPos + 1 } (s.bsrByte s.bsrPos)) := by
    rw [show fetchBits s.lzwWidth s = fetchBits (k + 1) s by rw [hk], fetchBits_more hn, bsrNextByte_held hp]
    rfl
  have h₂ : fetchBits s.lzwWidth (State.pushBits { s with bsrPos := s.bsrPos + 1 } (s.bsrByte s.bsrPos))
      = fetchBits k (State.pushBits { s with bsrPos := s.bsrPos + 1 } (s.bsrByte s.bsrPos)) :=
    fetchBits_bound (by simp only [State.pushBits_lzwWidth, State.pushBits_lzwNbits]; omega) (by omega)
  rw [readCode, readCode, h₁]
  simp only [State.pushBits_lzwWidth, h₂]

/-- With too few bits for a code and the BSR exhausted, the reading of a code loads the next sub-block first. -/
theorem readCode_fill {s t : State} (hn : s.lzwNbits < s.lzwWidth) (hp : s.bsrPos = s.bsrLen) (ht : s.bsrTerm = false)
    (hf : bsrFill s = .done () t) (hq : t.bsrPos ≠ t.bsrLen) : readCode s = readCode t := by
  have hfr := bsrFill_step s
  rw [hf] at hfr
  have hlz := hfr.1.sameLzw
  obtain ⟨k, hk⟩ : ∃ k, s.lzwWidth = k + 1 := ⟨s.lzwWidth - 1, by omega⟩
  rw [readCode, readCode, hlz.width, hk, fetchBits_more hn, fetchBits_more (by rw [hlz.nbits, hlz.width]; exact hn),
    bsrNextByte_fill hp ht, bsrNextByte_held hq, hf, Flow.bind_done, if_pos hq]

/-- With a whole code in the accumulator, the reading of a code takes it and nothing from the BSR. -/
theorem readCode_full {s : State} (hw : s.lzwWidth ≤ s.lzwNbits) :
    readCode s = .done (some s.nextCode) s.dropCode := by
  rw [readCode, fetchBits_ready hw]
  rfl

/-- With EOD met inside a code, the reading of a code answers EOD and changes nothing. -/
theorem readCode_eod {s : State} (hw : s.lzwNbits < s.lzwWidth) (hp : s.bsrPos = s.bsrLen) (ht : s.bsrTerm = true) :
    readCode s = .done none s := by
  obtain ⟨k, hk⟩ : ∃ k, s.lzwWidth = k + 1 := ⟨s.lzwWidth - 1, by omega⟩
  rw [readCode, hk, fetchBits_more (by omega), bsrNextByte_eod hp ht]
  rfl

/-- With the terminator next on IN, the reading of a code takes it, closes the BSR and keeps its bits (rules R161 and R206). -/
theorem readCode_terminator {s : State} {rest : List Byte} (hw : s.lzwNbits < s.lzwWidth) (hp : s.bsrPos = s.bsrLen)
    (ht : s.bsrTerm = false) (hin : s.inBytes = 0 :: rest) :
    readCode s = .done none (s.tookByte rest).closeBsr := by
  obtain ⟨k, hk⟩ : ∃ k, s.lzwWidth = k + 1 := ⟨s.lzwWidth - 1, by omega⟩
  rw [readCode, hk, fetchBits_more hw, bsrNextByte_fill hp ht, bsrFill_terminator hin, Flow.bind_done,
    if_neg (not_not_intro (by exact hp))]
  rfl

/-- A fill that fails inside a code ends the reading of it, the bits kept. -/
theorem readCode_fails {s t : State} (hw : s.lzwNbits < s.lzwWidth) (hp : s.bsrPos = s.bsrLen) (ht : s.bsrTerm = false)
    (hf : bsrFill s = .raised t) : readCode s = .raised t := by
  obtain ⟨k, hk⟩ : ∃ k, s.lzwWidth = k + 1 := ⟨s.lzwWidth - 1, by omega⟩
  rw [readCode, hk, fetchBits_more hw, bsrNextByte_fill hp ht, hf]
  rfl

/-- The string of a code and its entry are not the accumulator's. -/
theorem stringTo_dropCode (s : State) (k c : Nat) : stringTo s.dropCode k c = stringTo s k c := by
  induction k generalizing c with
  | zero => rfl
  | succ k ih =>
    simp only [stringTo, ih]
    rfl

theorem State.codeString_dropCode (s : State) (c : Nat) : s.dropCode.codeString c = s.codeString c := by
  simp only [State.codeString, State.stringOf, stringTo_dropCode]
  rfl

theorem stepCode_clear {c : Nat} {s : State} (h : c = s.clearCode) : stepCode c s = .done (some []) s.lzwReset := by
  rw [stepCode, if_pos h]

theorem stepCode_end {c : Nat} {s : State} (h : c = s.eoiCode) : stepCode c s = .done none s.finishLzw := by
  have hne : c ≠ s.clearCode := by rw [h, State.eoiCode]; omega
  rw [stepCode, if_neg hne, if_pos h]

theorem stepCode_string {c : Nat} {s : State} {bs : List Byte} (h₁ : c ≠ s.clearCode) (h₂ : c ≠ s.eoiCode)
    (h : s.codeString c = some bs) : stepCode c s = .done (some bs) ((s.addEntry (firstByte bs)).setPrev c) := by
  rw [stepCode, if_neg h₁, if_neg h₂, h]

theorem stepCode_invalid {c : Nat} {s : State} (h₁ : c ≠ s.clearCode) (h₂ : c ≠ s.eoiCode)
    (h : s.codeString c = none) : stepCode c s = raise .lzwInvalidCode c s.lzwNext s := by
  rw [stepCode, if_neg h₁, if_neg h₂, h]

/-! ### The loop of LZW_DECODE, pass by pass -/

theorem decodeLoop_end {dst n k i : Nat} {s : State} (h : n ≤ i) : decodeLoop dst n (k + 1) i s = .done () s := by
  rw [decodeLoop, if_neg (by omega)]

theorem decodeLoop_pend {dst n k i : Nat} {s : State} {b : Byte} {rest : List Byte} (hi : i < n)
    (hb : s.lzwPend = b :: rest) :
    decodeLoop dst n (k + 1) i s = decodeLoop dst n k (i + 1) ((s.writeBuf (dst + i) b).setPend rest) := by
  rw [decodeLoop, if_pos hi, hb]

theorem decodeLoop_done {dst n k i : Nat} {s : State} (hi : i < n) (hb : s.lzwPend = []) (hd : s.lzwState = .done) :
    decodeLoop dst n (k + 1) i s = raise .lzwEarlyEoi n i s := by
  rw [decodeLoop, if_pos hi, hb]
  simp only [hd, if_true]

theorem decodeLoop_read {dst n k i : Nat} {s : State} (hi : i < n) (hb : s.lzwPend = []) (hd : s.lzwState ≠ .done) :
    decodeLoop dst n (k + 1) i s = (readCode s).bind fun oc s₁ =>
      match oc with
      | none => raise .unexpectedEnd n i s₁
      | some c => (stepCode c s₁).bind fun r s₂ => decodeLoop dst n k i (s₂.takeString r) := by
  rw [decodeLoop, if_pos hi, hb]
  simp only [hd, if_false] <;> rfl

/-- Pending bytes are delivered before a code is read (rule R218): `j` of them, at `dst + i` up. -/
theorem decodeLoop_pending {dst n k i j : Nat} {s : State} (hn : i + j ≤ n) (hj : j ≤ s.lzwPend.length) :
    decodeLoop dst n (k + j) i s
      = decodeLoop dst n k (i + j) ((s.writeBufList (dst + i) (s.lzwPend.take j)).setPend (s.lzwPend.drop j)) := by
  induction j generalizing i s with
  | zero => rfl
  | succ j ih =>
    cases hb : s.lzwPend with
    | nil => simp [hb] at hj
    | cons b rest =>
      rw [← Nat.add_assoc, decodeLoop_pend (by omega) hb,
        ih (by omega) (by simp [hb] at hj ⊢; omega), show i + 1 + j = i + (j + 1) by omega]
      simp only [State.setPend_lzwPend, List.take_succ_cons, List.drop_succ_cons]
      rfl

/-- A bound large enough does not matter: where the loop is not cut short, a larger bound changes nothing. -/
theorem decodeLoop_mono {dst n k l i : Nat} {s : State} (h : decodeLoop dst n k i s ≠ .stop .loopBound) (hl : k ≤ l) :
    decodeLoop dst n l i s = decodeLoop dst n k i s := by
  induction k generalizing l i s with
  | zero => exact absurd rfl h
  | succ k ih =>
    obtain ⟨l, rfl⟩ : ∃ j, l = j + 1 := ⟨l - 1, by omega⟩
    by_cases hi : i < n
    · cases hb : s.lzwPend with
      | cons b rest =>
        rw [decodeLoop_pend hi hb] at h ⊢
        rw [decodeLoop_pend hi hb]
        exact ih h (by omega)
      | nil =>
        by_cases hd : s.lzwState = .done
        · rw [decodeLoop_done hi hb hd, decodeLoop_done hi hb hd]
        · rw [decodeLoop_read hi hb hd] at h ⊢
          rw [decodeLoop_read hi hb hd]
          cases hr : readCode s with
          | raised t => rfl
          | stop f => rfl
          | done oc t =>
            rw [hr] at h
            cases oc with
            | none => rfl
            | some c =>
              simp only [Flow.bind_done] at h ⊢
              cases hc : stepCode c t with
              | raised u => rfl
              | stop f => rfl
              | done r u =>
                rw [hc] at h
                exact ih h (by omega)
    · rw [decodeLoop_end (by omega), decodeLoop_end (by omega)]

/-- The end of a decode, seen as a decode of its own: where it completes, it does so with the same state. -/
theorem decodeLoop_shift {dst n m k i : Nat} {s t : State} (h : decodeLoop dst (n + m) k (n + i) s = .done () t) :
    decodeLoop (dst + n) m k i s = .done () t := by
  induction k generalizing i s with
  | zero => cases h
  | succ k ih =>
    by_cases hi : i < m
    · cases hb : s.lzwPend with
      | cons b rest =>
        rw [decodeLoop_pend (by omega) hb] at h
        rw [decodeLoop_pend hi hb, Nat.add_assoc]
        exact ih h
      | nil =>
        by_cases hd : s.lzwState = .done
        · rw [decodeLoop_done (by omega) hb hd] at h
          cases h
        · rw [decodeLoop_read (by omega) hb hd] at h
          rw [decodeLoop_read hi hb hd]
          cases hr : readCode s with
          | raised u => rw [hr] at h; cases h
          | stop f => rw [hr] at h; cases h
          | done oc v =>
            rw [hr] at h
            cases oc with
            | none => cases h
            | some c =>
              simp only [Flow.bind_done] at h ⊢
              cases hc : stepCode c v with
              | raised u => rw [hc] at h; cases h
              | stop f => rw [hc] at h; cases h
              | done r u =>
                rw [hc] at h
                exact ih h
    · rw [decodeLoop_end (by omega)] at h ⊢
      exact h

/-- A decode that delivers `n + m` bytes delivers `n` of them first, and the loop for the other `m` goes on from there. -/
theorem decodeLoop_split {dst n m k i : Nat} {s t : State} (hi : i ≤ n)
    (h : decodeLoop dst (n + m) k i s = .done () t) :
    ∃ u, decodeLoop dst n k i s = .done () u ∧ decodeLoop (dst + n) m k 0 u = .done () t := by
  induction k generalizing i s with
  | zero => cases h
  | succ k ih =>
    by_cases hin : i < n
    · cases hb : s.lzwPend with
      | cons b rest =>
        rw [decodeLoop_pend (by omega) hb] at h
        obtain ⟨u, h₁, h₂⟩ := ih (by omega) h
        refine ⟨u, by rw [decodeLoop_pend hin hb]; exact h₁, ?_⟩
        rw [decodeLoop_mono (k := k) (by rw [h₂]; simp) (by omega), h₂]
      | nil =>
        by_cases hd : s.lzwState = .done
        · rw [decodeLoop_done (by omega) hb hd] at h
          cases h
        · rw [decodeLoop_read (by omega) hb hd] at h
          rw [decodeLoop_read hin hb hd]
          cases hr : readCode s with
          | raised t => rw [hr] at h; cases h
          | stop f => rw [hr] at h; cases h
          | done oc v =>
            rw [hr] at h
            cases oc with
            | none => cases h
            | some c =>
              simp only [Flow.bind_done] at h ⊢
              cases hc : stepCode c v with
              | raised u => rw [hc] at h; cases h
              | stop f => rw [hc] at h; cases h
              | done r u =>
                rw [hc] at h
                obtain ⟨w, h₁, h₂⟩ := ih hi h
                refine ⟨w, h₁, ?_⟩
                rw [decodeLoop_mono (k := k) (by rw [h₂]; simp) (by omega), h₂]
    · obtain rfl : i = n := by omega
      refine ⟨s, decodeLoop_end (Nat.le_refl _), ?_⟩
      exact decodeLoop_shift h

/-- The state with the pending bytes delivered to LZW_DECODE's destination (rule R218). -/
def State.served (s : State) : State :=
  (s.writeBufList s.addr s.lzwPend).setPend []

/-- LZW_DECODE with fewer bytes pending than wanted delivers them all, then reads a code (rule R218). -/
theorem lzwDecode_served {s : State} (hs : s.lzwState = .active) (hr : s.addr + s.count ≤ s.bufBytes)
    (hn : s.lzwPend.length < s.count) :
    lzwDecode s = ((readCode s.served).bind fun oc s₁ =>
      match oc with
      | none => raise .unexpectedEnd s.count s.lzwPend.length s₁
      | some c => (stepCode c s₁).bind fun r s₂ =>
        decodeLoop s.addr s.count (s.count - s.lzwPend.length + s.bitsLeft) s.lzwPend.length (s₂.takeString r)).bind
          fun _ s₂ => .done () (s₂.setRes s.a1) := by
  rw [lzwDecode, if_neg (by simp [hs]), rangeCheck_pass hr, Flow.bind_done,
    show s.count + s.bitsLeft + 1 = (s.count - s.lzwPend.length + s.bitsLeft + 1) + s.lzwPend.length by omega,
    decodeLoop_pending (by omega) (Nat.le_refl _), List.take_length, List.drop_length, Nat.zero_add]
  have hd := decodeLoop_read (dst := s.addr) (n := s.count) (k := s.count - s.lzwPend.length + s.bitsLeft)
    (i := s.lzwPend.length) (s := s.served) hn rfl (by show s.lzwState ≠ .done; simp [hs])
  rw [show (s.writeBufList (s.addr + 0) s.lzwPend).setPend [] = s.served from rfl, hd]

/-! ### LZW_DECODE with a whole code in the accumulator -/

section
variable {s : State} (hs : s.lzwState = .active) (hb : s.lzwPend = []) (hr : s.addr + s.count ≤ s.bufBytes)
  (hn : 1 ≤ s.count) (hw : s.lzwWidth ≤ s.lzwNbits)

include hs hb hr hn hw in
/-- LZW_DECODE reads the code and runs it. -/
theorem lzwDecode_read :
    lzwDecode s = ((stepCode s.nextCode s.dropCode).bind fun r s₂ =>
      decodeLoop s.addr s.count (s.count + s.bitsLeft) 0 (s₂.takeString r)).bind fun _ s₂ =>
        .done () (s₂.setRes s.a1) := by
  rw [lzwDecode, if_neg (by simp [hs]), rangeCheck_pass hr, Flow.bind_done, decodeLoop_read hn hb (by simp [hs]),
    readCode_full hw]
  rfl

include hs hb hr hn hw in
/-- A code whose string has all the bytes wanted ends the command. -/
theorem lzwDecode_string {u : State} {bs : List Byte} (h₁ : 1 ≤ s.lzwWidth)
    (hc : stepCode s.nextCode s.dropCode = .done (some bs) u) (hl : s.count ≤ bs.length) :
    lzwDecode s
      = .done () (((u.writeBufList s.addr (bs.take s.count)).setPend (bs.drop s.count)).setRes s.a1) := by
  rw [lzwDecode_read hs hb hr hn hw, hc, Flow.bind_done]
  obtain ⟨k, hk⟩ : ∃ k, s.bitsLeft = k + 1 := ⟨s.bitsLeft - 1, by unfold State.bitsLeft; omega⟩
  rw [hk, Nat.add_comm s.count, decodeLoop_pending (by omega) hl, decodeLoop_end (by omega)]
  rfl

end

/-- LZW_DECODE with nothing pending depends on the code it reads first: two states that read alike decode alike. -/
theorem lzwDecode_congr {s t : State} (ht : t.UnitInv) (hs : s.lzwState = .active) (hb : s.lzwPend = [])
    (hr : s.addr + s.count ≤ s.bufBytes) (hn : 1 ≤ s.count) (h₁ : t.lzwState = s.lzwState) (h₂ : t.lzwPend = s.lzwPend)
    (h₃ : t.a0 = s.a0) (h₄ : t.a1 = s.a1) (h₅ : t.bufBytes = s.bufBytes) (h₆ : t.bitsLeft ≤ s.bitsLeft)
    (h : readCode s = readCode t) : lzwDecode s = lzwDecode t := by
  have ha : t.addr = s.addr := by rw [State.addr, h₃, State.addr]
  have hc : t.count = s.count := by rw [State.count, h₄, State.count]
  have hst : t.lzwState = .active := h₁.trans hs
  have hl : decodeLoop s.addr s.count (s.count + s.bitsLeft + 1) 0 s
      = decodeLoop s.addr s.count (s.count + s.bitsLeft + 1) 0 t := by
    rw [decodeLoop_read hn hb (by simp [hs]), decodeLoop_read hn (h₂.trans hb) (by simp [hst]), h]
  have hall := decodeLoop_all (dst := s.addr) (n := s.count) (k := s.count + t.bitsLeft + 1) (i := 0) ht (by simp [hst])
    (by rw [h₅]; exact hr) (by omega) True fun _ => .inl trivial
  rw [lzwDecode, lzwDecode, if_neg (by simp [hs]), if_neg (by simp [hst]), ha, hc, rangeCheck_pass hr,
    rangeCheck_pass (by rw [h₅]; exact hr), Flow.bind_done, Flow.bind_done, hl, h₄,
    decodeLoop_mono (k := s.count + t.bitsLeft + 1) (fun e => hall.of_stop e) (by omega)]

/-! ### LZW_FINISH in strict mode -/

theorem strictLoop_read {k : Nat} {s : State} (hs : s.lzwState = .active) :
    strictLoop (k + 1) s = (readCode s).bind fun oc s₁ =>
      match oc with
      | none => .done () s₁
      | some c => (stepCode c s₁).bind fun r s₂ =>
        match r with
        | some (b :: bs) => raise .lzwTooMuchData (b :: bs).length c s₂
        | _ => strictLoop k s₂ := by
  rw [strictLoop, if_pos hs] <;> rfl

/-- A bound large enough does not matter: where the loop is not cut short, a larger bound changes nothing. -/
theorem strictLoop_mono {k l : Nat} {s : State} (h : strictLoop k s ≠ .stop .loopBound) (hl : k ≤ l) :
    strictLoop l s = strictLoop k s := by
  induction k generalizing l s with
  | zero => exact absurd rfl h
  | succ k ih =>
    obtain ⟨l, rfl⟩ : ∃ j, l = j + 1 := ⟨l - 1, by omega⟩
    by_cases hs : s.lzwState = .active
    · rw [strictLoop_read hs] at h ⊢
      rw [strictLoop_read hs]
      cases hr : readCode s with
      | raised t => rfl
      | stop f => rfl
      | done oc t =>
        rw [hr] at h
        cases oc with
        | none => rfl
        | some c =>
          simp only [Flow.bind_done] at h ⊢
          cases hc : stepCode c t with
          | raised u => rfl
          | stop f => rfl
          | done r u =>
            rw [hc] at h
            match r, h with
            | none, h => exact ih h (by omega)
            | some [], h => exact ih h (by omega)
            | some (b :: bs), _ => rfl
    · rw [strictLoop, strictLoop, if_neg hs, if_neg hs]

/-- LZW_FINISH in strict mode with nothing pending: the codes, then the terminator, then the unit closed (rules R222 and R223). -/
theorem lzwFinish_strict {s : State} (hs : s.lzwState = .active) (hc : s.strictEnd = true) (hp : s.lzwPend = []) :
    lzwFinish s = (strictLoop (s.bitsLeft + 1) s).bind fun _ s₁ => (readTerminator s₁.dropBlock).bind fun _ s₂ =>
      .done () (s₂.closeLzw.setRes (BitVec.ofNat 32 s₁.bsrLeft)) := by
  rw [lzwFinish, if_neg (by simp [hs]), if_pos hc, strictFinish, if_neg (by simp [hp]), Flow.bind_assoc]
  congr 1
  funext _ t
  rw [Flow.bind_assoc]
  rfl

/-- A strict LZW_FINISH with nothing pending depends on what its loop of codes does: two states whose loops, each with a bound of
its own large enough, answer alike finish alike. -/
theorem lzwFinish_congr {s t : State} {k : Nat} (ht : t.UnitInv) (hs : s.lzwState = .active) (hc : s.strictEnd = true)
    (hp : s.lzwPend = []) (h₁ : t.lzwState = s.lzwState) (h₂ : t.lzwPend = s.lzwPend) (h₃ : t.ctrl = s.ctrl)
    (h₄ : t.bitsLeft < k) (h : strictLoop (s.bitsLeft + 1) s = strictLoop k t) : lzwFinish s = lzwFinish t := by
  have hst : t.lzwState = .active := h₁.trans hs
  have hct : t.strictEnd = true := by rw [State.strictEnd, h₃]; exact hc
  have hall := strictLoop_all (k := t.bitsLeft + 1) ht (by simp [hst]) (by omega)
  rw [lzwFinish_strict hs hc hp, lzwFinish_strict hst hct (h₂.trans hp), h,
    strictLoop_mono (k := t.bitsLeft + 1) (fun e => hall.of_stop e) (by omega)]

/-- Two states that read alike finish alike. -/
theorem lzwFinish_read_congr {s t : State} (ht : t.UnitInv) (hs : s.lzwState = .active) (hc : s.strictEnd = true)
    (hp : s.lzwPend = []) (h₁ : t.lzwState = s.lzwState) (h₂ : t.lzwPend = s.lzwPend) (h₃ : t.ctrl = s.ctrl)
    (h₄ : t.bitsLeft ≤ s.bitsLeft) (h : readCode s = readCode t) : lzwFinish s = lzwFinish t := by
  refine lzwFinish_congr (k := s.bitsLeft + 1) ht hs hc hp h₁ h₂ h₃ (by omega) ?_
  rw [strictLoop_read hs, strictLoop_read (h₁.trans hs), h]

/-- The loop of a strict LZW_FINISH with a whole code in the accumulator. -/
theorem strictLoop_full {k : Nat} {s : State} (hs : s.lzwState = .active) (hw : s.lzwWidth ≤ s.lzwNbits) :
    strictLoop (k + 1) s = (stepCode s.nextCode s.dropCode).bind fun r s₂ =>
      match r with
      | some (b :: bs) => raise .lzwTooMuchData (b :: bs).length s.nextCode s₂
      | _ => strictLoop k s₂ := by
  rw [strictLoop_read hs, readCode_full hw] <;> rfl

/-- The end code ends the loop of codes (rules R213 and R223). -/
theorem strictLoop_end {k : Nat} {s : State} (hs : s.lzwState = .active) (hw : s.lzwWidth ≤ s.lzwNbits)
    (hc : s.nextCode = s.eoiCode) : strictLoop (k + 2) s = .done () s.dropCode.finishLzw := by
  rw [strictLoop_full hs hw, stepCode_end (s := s.dropCode) hc, Flow.bind_done, strictLoop, if_neg (by simp)]

/-- The end of data inside a code ends the loop of codes (rule R223). -/
theorem strictLoop_eod {k : Nat} {s t : State} (hs : s.lzwState = .active) (hr : readCode s = .done none t) :
    strictLoop (k + 1) s = .done () t := by
  rw [strictLoop_read hs, hr]
  rfl

/-! ### The decoder does not see the registers A0, A1 and RES -/

/-- A state with other values in A0, A1 and RES. -/
def State.withArgs (s : State) (x y r : Word) : State :=
  { s with a0 := x, a1 := y, res := r }

/-- An outcome with other values in A0, A1 and RES. -/
def Flow.withArgs {α : Type} (f : Flow α) (x y r : Word) : Flow α :=
  match f with
  | .done a s => .done a (s.withArgs x y r)
  | .raised s => .raised (s.withArgs x y r)
  | .stop e => .stop e

section
variable (x y r : Word)

theorem bind_withArgs {α β : Type} {f g : Flow α} {k : α → State → Flow β} (h : f = g.withArgs x y r)
    (hk : ∀ a t, k a (t.withArgs x y r) = (k a t).withArgs x y r) : f.bind k = (g.bind k).withArgs x y r := by
  rw [h]
  cases g with
  | done a s => exact hk a s
  | raised s => rfl
  | stop e => rfl

theorem forUp_withArgs {body : Nat → State → Flow Unit}
    (hb : ∀ i t, body i (t.withArgs x y r) = (body i t).withArgs x y r) (k i : Nat) (s : State) :
    forUp body k i (s.withArgs x y r) = (forUp body k i s).withArgs x y r := by
  induction k generalizing i s with
  | zero => rfl
  | succ k ih => exact bind_withArgs x y r (hb i s) fun _ t => ih (i + 1) t

theorem inByte_withArgs (exp got : Nat) (s : State) :
    inByte exp got (s.withArgs x y r) = (inByte exp got s).withArgs x y r := by
  cases hb : s.inBytes with
  | cons b rest => rw [inByte_cons hb, inByte_cons (s := s.withArgs x y r) hb]; rfl
  | nil =>
    cases he : s.inEnd with
    | eof => rw [inByte_eof hb he, inByte_eof (s := s.withArgs x y r) hb he]; rfl
    | err e => rw [inByte_err hb he, inByte_err (s := s.withArgs x y r) hb he]; rfl

theorem bsrFill_withArgs (s : State) : bsrFill (s.withArgs x y r) = (bsrFill s).withArgs x y r := by
  refine bind_withArgs x y r (inByte_withArgs x y r 1 0 s) fun l t => ?_
  split
  · rfl
  · refine bind_withArgs x y r (forUp_withArgs x y r (fun i u => ?_) _ _ t) fun _ u => rfl
    exact bind_withArgs x y r (inByte_withArgs x y r _ _ u) fun _ v => rfl

theorem bsrNextByte_withArgs (s : State) : bsrNextByte (s.withArgs x y r) = (bsrNextByte s).withArgs x y r := by
  by_cases hp : s.bsrPos = s.bsrLen
  · cases ht : s.bsrTerm with
    | true =>
      rw [bsrNextByte_eod hp ht, bsrNextByte_eod (s := s.withArgs x y r) hp ht]
      rfl
    | false =>
      rw [bsrNextByte_fill hp ht, bsrNextByte_fill (s := s.withArgs x y r) hp ht]
      refine bind_withArgs x y r (bsrFill_withArgs x y r s) fun _ t => ?_
      by_cases hq : t.bsrPos = t.bsrLen
      · rw [if_neg (not_not_intro hq)]
        exact if_neg (not_not_intro hq)
      · rw [if_pos hq]
        exact if_pos hq
  · rw [bsrNextByte_held hp, bsrNextByte_held (s := s.withArgs x y r) hp]
    rfl

theorem fetchBits_withArgs (k : Nat) (s : State) : fetchBits k (s.withArgs x y r) = (fetchBits k s).withArgs x y r := by
  induction k generalizing s with
  | zero => rfl
  | succ k ih =>
    by_cases hn : s.lzwNbits < s.lzwWidth
    · rw [fetchBits_more hn, fetchBits_more (s := s.withArgs x y r) hn]
      refine bind_withArgs x y r (bsrNextByte_withArgs x y r s) fun b t => ?_
      cases b with
      | none => rfl
      | some b => exact ih (t.pushBits b)
    · rw [fetchBits_ready (s := s) (by omega), fetchBits_ready (s := s.withArgs x y r) (Nat.le_of_not_lt hn)]
      rfl

theorem readCode_withArgs (s : State) : readCode (s.withArgs x y r) = (readCode s).withArgs x y r := by
  refine bind_withArgs x y r (fetchBits_withArgs x y r _ s) fun ready t => ?_
  cases ready <;> rfl

theorem stringTo_withArgs (k c : Nat) (s : State) : stringTo (s.withArgs x y r) k c = stringTo s k c := by
  induction k generalizing c with
  | zero => rfl
  | succ k ih =>
    simp only [stringTo, ih]
    rfl

theorem codeString_withArgs (c : Nat) (s : State) : (s.withArgs x y r).codeString c = s.codeString c := by
  simp only [State.codeString, State.stringOf, stringTo_withArgs]
  rfl

theorem addEntry_withArgs (b : Byte) (s : State) : (s.withArgs x y r).addEntry b = (s.addEntry b).withArgs x y r := by
  by_cases h : s.lzwPrevValid = true ∧ s.lzwNext < Config.dictSize
  · rw [State.addEntry, if_pos (by exact h), State.addEntry, if_pos h]
    rfl
  · rw [State.addEntry, if_neg (by exact h), State.addEntry, if_neg h]

theorem stepCode_withArgs (c : Nat) (s : State) : stepCode c (s.withArgs x y r) = (stepCode c s).withArgs x y r := by
  by_cases h₁ : c = s.clearCode
  · rw [stepCode_clear h₁, stepCode_clear (s := s.withArgs x y r) h₁]
    rfl
  · by_cases h₂ : c = s.eoiCode
    · rw [stepCode_end h₂, stepCode_end (s := s.withArgs x y r) h₂]
      rfl
    · cases h : s.codeString c with
      | none =>
        rw [stepCode_invalid h₁ h₂ h, stepCode_invalid (s := s.withArgs x y r) h₁ h₂ (by rw [codeString_withArgs, h])]
        rfl
      | some bs =>
        rw [stepCode_string h₁ h₂ h, stepCode_string (s := s.withArgs x y r) h₁ h₂ (by rw [codeString_withArgs, h]),
          addEntry_withArgs]
        rfl

/-- What the loop of LZW_DECODE does depends on the addresses it is given, not on A0, A1 or RES. -/
theorem decodeLoop_withArgs (dst n k i : Nat) (s : State) :
    decodeLoop dst n k i (s.withArgs x y r) = (decodeLoop dst n k i s).withArgs x y r := by
  induction k generalizing i s with
  | zero => rfl
  | succ k ih =>
    by_cases hi : i < n
    · cases hb : s.lzwPend with
      | cons b rest =>
        rw [decodeLoop_pend hi hb, decodeLoop_pend (s := s.withArgs x y r) hi hb]
        exact ih (i + 1) ((s.writeBuf (dst + i) b).setPend rest)
      | nil =>
        by_cases hd : s.lzwState = .done
        · rw [decodeLoop_done hi hb hd, decodeLoop_done (s := s.withArgs x y r) hi hb hd]
          rfl
        · rw [decodeLoop_read hi hb hd, decodeLoop_read (s := s.withArgs x y r) hi hb hd]
          refine bind_withArgs x y r (readCode_withArgs x y r s) fun oc t => ?_
          cases oc with
          | none => rfl
          | some c =>
            refine bind_withArgs x y r (stepCode_withArgs x y r c t) fun o u => ?_
            cases o with
            | none => exact ih i u
            | some bs => exact ih i (u.setPend bs)
    · rw [decodeLoop_end (by omega), decodeLoop_end (by omega)]
      rfl

end

end Sys2Proof.Machine
end

