-- ==== Sys2Proof/Laws/Execute.lean ====
section
/-! SUPPORT. The command cycle and the host's accesses, case by case: what each answers, and which word each register read gives. -/

namespace Sys2Proof.Machine

theorem State.locked_iff (s : State) : s.locked = true ↔ s.fault ≠ 0 := by
  simp [State.locked]

/-- A locked block ignores a word other than SRESET's (rule R143). -/
theorem execute_locked {w : Word} {s : State} (hf : s.fault ≠ 0) (hw : w ≠ sresetWord) : execute w s = .next s := by
  rw [execute, if_pos ⟨s.locked_iff.mpr hf, hw⟩]

/-- What the lock lets through. -/
theorem execute_open {w : Word} {s : State} (h : s.fault = 0 ∨ w = sresetWord) :
    execute w s = match decode w with
      | .illegal _ => (raise (α := Unit) .illegalCommand w.toNat 0 s).outcome
      | .command i => exec i s := by
  have hn : ¬(s.locked = true ∧ w ≠ sresetWord) := fun hl => h.elim (fun h => s.locked_iff.mp hl.1 h) hl.2
  rw [execute, if_neg hn] <;> (split <;> simp_all)

theorem execute_command {w : Word} {s : State} {i : Instr} (hd : decode w = .command i)
    (h : s.fault = 0 ∨ w = sresetWord) : execute w s = exec i s := by
  rw [execute_open h, hd]

theorem execute_illegal {w : Word} {s : State} {e : DecodeError} (hd : decode w = .illegal e)
    (h : s.fault = 0 ∨ w = sresetWord) : execute w s = .next (s.recordFault .illegalCommand w 0) := by
  rw [execute_open h, hd]
  simp

/-- A write of CMD stores its word and runs it (rule R143). -/
theorem hostStep_command (w : Word) (s : State) : hostStep (.regWrite 0x00 32 w) s = execute w { s with cmd := w } := rfl

theorem regAt_cmd {off : Nat} (h : regAt off = some .cmd) : off = 0x00 := by
  unfold regAt at h
  split at h <;> simp_all

theorem regAt_reserved {off : Nat} (h : 0x58 ≤ off) : regAt off = none := by
  unfold regAt
  split <;> first | omega | rfl

theorem regAccess_ok {off : Nat} {k : Host.Outcome State Fault Refusal} (h₁ : off % 4 = 0) (h₂ : off < 0x100) :
    regAccess off 32 k = k := by
  rw [regAccess, if_neg (by omega), if_neg (by decide)]

theorem bufAccess_ok {a : Nat} {s : State} {k : Host.Outcome State Fault Refusal} (h : a < s.bufBytes) :
    bufAccess a 8 s k = k := by
  rw [bufAccess, if_neg (by omega), if_neg (by decide)]

/-- The next state of a host operation comes of the one case rule R470 gives it. -/
theorem hostStep_next {op : HostOp} {s t : State} (h : hostStep op s = .next t) :
    op = .hardReset ∧ t = s.resetBlock
      ∨ (∃ w, op = .regWrite 0x00 32 w ∧ execute w { s with cmd := w } = .next t)
      ∨ (∃ r v, t = s.setReg r v)
      ∨ (∃ r, t = s.reply r)
      ∨ ∃ a b, a < s.bufBytes ∧ t = s.writeBuf a b := by
  cases op with
  | hardReset =>
    cases h
    exact .inl ⟨rfl, rfl⟩
  | regRead off bits =>
    simp only [hostStep, regAccess] at h
    split at h
    · cases h
    · split at h
      · cases h
      · cases h
        exact .inr (.inr (.inr (.inl ⟨_, rfl⟩)))
  | bufRead a bits =>
    simp only [hostStep, bufAccess] at h
    split at h
    · cases h
    · split at h
      · cases h
      · cases h
        exact .inr (.inr (.inr (.inl ⟨_, rfl⟩)))
  | bufWrite a bits b =>
    simp only [hostStep, bufAccess] at h
    split at h
    · cases h
    · split at h
      · cases h
      · cases h
        exact .inr (.inr (.inr (.inr ⟨a, b, by omega, rfl⟩)))
  | regWrite off bits v =>
    simp only [hostStep, regAccess] at h
    split at h
    · cases h
    · split at h
      · cases h
      · rename_i hb
        have hb : bits = 32 := by simpa using hb
        subst hb
        unfold writeOffset at h
        split at h
        · rename_i hr
          rw [regAt_cmd hr]
          exact .inr (.inl ⟨v, rfl, h⟩)
        · cases h
          exact .inr (.inr (.inl ⟨_, _, rfl⟩))
        · cases h
          exact .inr (.inr (.inl ⟨.res, 0, rfl⟩))

/-- CTRL keeps bit 0 alone (rule R40). -/
theorem word_and_one (v : Word) : v &&& 1 = if v.getLsbD 0 then 1 else 0 := by
  apply BitVec.eq_of_toNat_eq
  rw [BitVec.toNat_and, show (1 : Word).toNat = 1 from rfl, Nat.and_one_is_mod, BitVec.getLsbD, Nat.testBit_zero]
  rcases Nat.mod_two_eq_zero_or_one v.toNat with h | h <;> simp [h]

/-! ### The views -/

@[simp] theorem State.readOffset_status (s : State) : s.readOffset 0x14 = s.statusView := rfl

@[simp] theorem State.readOffset_crcOut (s : State) : s.readOffset 0x2C = s.crcOutView := rfl

@[simp] theorem State.readOffset_lzwStat (s : State) : s.readOffset 0x34 = s.lzwStatView := rfl

@[simp] theorem State.readOffset_lzwAux (s : State) : s.readOffset 0x38 = s.lzwAuxView := rfl

@[simp] theorem State.readOffset_lzwBits (s : State) : s.readOffset 0x3C = s.lzwBitbuf := rfl

@[simp] theorem State.readOffset_lzwPend (s : State) : s.readOffset 0x40 = s.lzwPendView := rfl

@[simp] theorem State.readOffset_bsrStat (s : State) : s.readOffset 0x44 = s.bsrStatView := rfl

theorem packField_eq (v w lo : Nat) : packField v w lo = v % 2 ^ w * 2 ^ lo := by
  rw [packField, Nat.shiftLeft_eq]

/-- The three fields of a command word make it up (rule R110). -/
theorem word_eq_fields (w : Word) : w.toNat = field w 7 0 + 256 * field w 15 8 + 65536 * field w 31 16 := by
  have := w.isLt
  simp only [field, Nat.shiftRight_eq_div_pow]
  omega

theorem field_eq (w : Word) (hi lo : Nat) : field w hi lo = w.toNat / 2 ^ lo % 2 ^ (hi + 1 - lo) := by
  rw [field, Nat.shiftRight_eq_div_pow]

end Sys2Proof.Machine
end

