-- ==== Sys2Proof/Laws/Inflate.lean ====
section
/-! SUPPORT. The reference inflater on a stream with more bytes behind it, and on the stored blocks of DEFLATE_STORED: what the laws
of rule R302 and the acceptance test of rule R305 rest on. -/

namespace Sys2Proof.Machine

/-! ### Bytes as bits -/

theorem byteBits_length (b : Byte) : (byteBits b).length = 8 := by
  simp [byteBits]

@[simp] theorem bitsOf_nil : bitsOf [] = [] := rfl

@[simp] theorem bitsOf_cons (b : Byte) (d : List Byte) : bitsOf (b :: d) = byteBits b ++ bitsOf d := rfl

theorem bitsOf_append (d e : List Byte) : bitsOf (d ++ e) = bitsOf d ++ bitsOf e := by
  simp [bitsOf]

theorem bitsOf_length (d : List Byte) : (bitsOf d).length = 8 * d.length := by
  induction d with
  | nil => rfl
  | cons b d ih => rw [bitsOf_cons, List.length_append, byteBits_length, ih, List.length_cons]; omega

/-! ### A stream with more bits behind it -/

theorem getBits_append {m v : Nat} {bits rest : Bits} (h : getBits m bits = some (v, rest)) (t : Bits) :
    getBits m (bits ++ t) = some (v, rest ++ t) := by
  induction m generalizing bits v with
  | zero =>
    cases h
    rfl
  | succ m ih =>
    cases bits with
    | nil => cases h
    | cons b bits =>
      simp only [getBits, Option.map_eq_some_iff, Prod.mk.injEq] at h
      obtain ⟨⟨w, r⟩, h₁, h₂, h₃⟩ := h
      subst h₂ h₃
      rw [List.cons_append, getBits, ih h₁]
      rfl

theorem getBits_length {m v : Nat} {bits rest : Bits} (h : getBits m bits = some (v, rest)) :
    bits.length = rest.length + m := by
  induction m generalizing bits v with
  | zero =>
    cases h
    rfl
  | succ m ih =>
    cases bits with
    | nil => cases h
    | cons b bits =>
      simp only [getBits, Option.map_eq_some_iff, Prod.mk.injEq] at h
      obtain ⟨⟨w, r⟩, h₁, h₂, h₃⟩ := h
      subst h₂ h₃
      rw [List.length_cons, ih h₁]
      omega

/-- Two fields in a row are one field (rule R310). -/
theorem getBits_add (m n : Nat) (bits : Bits) :
    getBits (m + n) bits
      = (getBits m bits).bind fun r => (getBits n r.2).map fun q => (r.1 + 2 ^ m * q.1, q.2) := by
  induction m generalizing bits with
  | zero =>
    rw [Nat.zero_add]
    cases h : getBits n bits <;> simp [getBits, h]
  | succ m ih =>
    cases bits with
    | nil => rw [show m + 1 + n = (m + n) + 1 by omega]; rfl
    | cons b bits =>
      rw [show m + 1 + n = (m + n) + 1 by omega, getBits, getBits, ih]
      cases getBits m bits with
      | none => rfl
      | some r =>
        simp only [Option.bind_some, Option.map_some, Option.map_map]
        cases getBits n r.2 with
        | none => rfl
        | some q =>
          simp only [Option.map_some, Function.comp, Option.some.injEq, Prod.mk.injEq, and_true, Nat.pow_succ]
          ring

theorem alignBits_append (bits t : Bits) (ht : t.length % 8 = 0) : alignBits (bits ++ t) = alignBits bits ++ t := by
  rw [alignBits, alignBits, List.length_append, Nat.add_mod, ht, Nat.add_zero, Nat.mod_mod, List.drop_append_of_le_length]
  exact Nat.mod_le _ _

theorem getBytes_append {n : Nat} {bs : List Byte} {bits rest : Bits} (h : getBytes n bits = some (bs, rest)) (t : Bits) :
    getBytes n (bits ++ t) = some (bs, rest ++ t) := by
  induction n generalizing bits bs with
  | zero =>
    cases h
    rfl
  | succ n ih =>
    simp only [getBytes] at h
    split at h
    · cases h
    · rename_i v r hv
      simp only [Option.map_eq_some_iff, Prod.mk.injEq] at h
      obtain ⟨⟨cs, r'⟩, h₁, h₂, h₃⟩ := h
      subst h₂ h₃
      simp only [getBytes, getBits_append hv t, ih h₁]
      rfl

theorem decodeSymTo_append {hf : Huffman} {k len code s : Nat} {bits rest : Bits}
    (h : decodeSymTo hf k len code bits = some (s, rest)) (t : Bits) :
    decodeSymTo hf k len code (bits ++ t) = some (s, rest ++ t) := by
  induction k generalizing len code bits with
  | zero => cases h
  | succ k ih =>
    cases bits with
    | nil => cases h
    | cons b bits =>
      simp only [decodeSymTo, List.cons_append] at h ⊢
      split at h
      · cases h
        rfl
      · exact ih h

theorem decodeSym_append {hf : Huffman} {s : Nat} {bits rest : Bits} (h : decodeSym hf bits = some (s, rest)) (t : Bits) :
    decodeSym hf (bits ++ t) = some (s, rest ++ t) :=
  decodeSymTo_append h t

theorem copyMatch_append {dist : Huffman} {s : Nat} {bits rest : Bits} {out out' : List Byte}
    (h : copyMatch dist s bits out = some (rest, out')) (t : Bits) :
    copyMatch dist s (bits ++ t) out = some (rest ++ t, out') := by
  unfold copyMatch at h ⊢
  split at h
  · cases h
  · rename_i le r hle
    split at h
    · cases h
    · rename_i d r' hd
      split at h
      · cases h
      · rename_i hlt
        split at h
        · cases h
        · rename_i de r'' hde
          simp only [getBits_append hle t, decodeSym_append hd t, getBits_append hde t, hlt, if_false]
          simp only at h
          split at h
          · cases h
          · rename_i hdist
            cases h
            rw [if_neg hdist]

theorem blockStep_append {lit dist : Huffman} {bits rest : Bits} {out out' : List Byte} {last : Bool}
    (h : blockStep lit dist bits out = some (last, (rest, out'))) (t : Bits) :
    blockStep lit dist (bits ++ t) out = some (last, (rest ++ t, out')) := by
  unfold blockStep at h ⊢
  split at h
  · cases h
  · rename_i s r hs
    simp only [decodeSym_append hs t]
    split at h
    · rename_i h₁
      cases h
      rw [if_pos h₁]
    · rename_i h₁
      rw [if_neg h₁]
      split at h
      · rename_i h₂
        cases h
        rw [if_pos h₂]
      · rename_i h₂
        rw [if_neg h₂]
        split at h
        · rename_i h₃
          rw [if_pos h₃]
          simp only [Option.map_eq_some_iff, Prod.mk.injEq] at h
          obtain ⟨⟨r', o⟩, h₄, rfl, rfl, rfl⟩ := h
          simp only [copyMatch_append h₄ t, Option.map_some]
        · cases h

/-- More bits behind a block and a larger bound change nothing a block answers. -/
theorem inflateBlock_append {lit dist : Huffman} {k l : Nat} {bits rest : Bits} {out out' : List Byte} (hl : k ≤ l)
    (h : inflateBlock lit dist k bits out = some (rest, out')) (t : Bits) :
    inflateBlock lit dist l (bits ++ t) out = some (rest ++ t, out') := by
  induction k generalizing l bits out with
  | zero => cases h
  | succ k ih =>
    obtain ⟨l, rfl⟩ : ∃ j, l = j + 1 := ⟨l - 1, by omega⟩
    simp only [inflateBlock] at h ⊢
    split at h
    · cases h
    · rename_i r hr
      obtain rfl := Option.some.inj h
      simp only [blockStep_append hr t]
    · rename_i r hr
      simp only [blockStep_append (rest := r.1) (out' := r.2) hr t]
      exact ih (by omega) h

theorem readCodeLens_append {order cl cl' : List Nat} {bits rest : Bits} (h : readCodeLens order cl bits = some (cl', rest))
    (t : Bits) : readCodeLens order cl (bits ++ t) = some (cl', rest ++ t) := by
  induction order generalizing cl bits with
  | nil =>
    cases h
    rfl
  | cons o order ih =>
    simp only [readCodeLens] at h ⊢
    split at h
    · cases h
    · rename_i hv
      simp only [getBits_append hv t]
      exact ih h

theorem codeLenRun_append {s : Nat} {lens lens' : List Nat} {bits rest : Bits}
    (h : codeLenRun s lens bits = some (lens', rest)) (t : Bits) :
    codeLenRun s lens (bits ++ t) = some (lens', rest ++ t) := by
  unfold codeLenRun at h ⊢
  split at h
  · rename_i h₁
    cases h
    rw [if_pos h₁]
  · rename_i h₁
    rw [if_neg h₁]
    split at h
    · rename_i h₂
      rw [if_pos h₂]
      split at h
      · cases h
      · simp only [Option.map_eq_some_iff, Prod.mk.injEq] at h
        obtain ⟨⟨v, r⟩, h₃, rfl, rfl⟩ := h
        rename_i hlast
        simp only [getBits_append h₃ t, Option.map_some]
    · rename_i h₂
      rw [if_neg h₂]
      split at h
      · rename_i h₄
        rw [if_pos h₄]
        simp only [Option.map_eq_some_iff, Prod.mk.injEq] at h
        obtain ⟨⟨v, r⟩, h₃, rfl, rfl⟩ := h
        simp only [getBits_append h₃ t, Option.map_some]
      · rename_i h₄
        rw [if_neg h₄]
        simp only [Option.map_eq_some_iff, Prod.mk.injEq] at h
        obtain ⟨⟨v, r⟩, h₃, rfl, rfl⟩ := h
        simp only [getBits_append h₃ t, Option.map_some]

theorem readLens_append {c : Huffman} {total k : Nat} {lens lens' : List Nat} {bits rest : Bits}
    (h : readLens c total k lens bits = some (lens', rest)) (t : Bits) :
    readLens c total k lens (bits ++ t) = some (lens', rest ++ t) := by
  induction k generalizing lens bits with
  | zero => cases h
  | succ k ih =>
    simp only [readLens] at h ⊢
    split at h
    · rename_i h₁
      rw [if_pos h₁]
      split at h
      · cases h
      · rename_i hs
        simp only [decodeSym_append hs t]
        split at h
        · cases h
        · rename_i hr
          simp only [codeLenRun_append hr t]
          split at h
          · cases h
          · rename_i h₂
            rw [if_neg h₂]
            exact ih h
    · rename_i h₁
      rw [if_neg h₁]
      cases h
      rfl

theorem readDynamic_append {ll dl : List Nat} {bits rest : Bits} (h : readDynamic bits = some ((ll, dl), rest))
    (t : Bits) : readDynamic (bits ++ t) = some ((ll, dl), rest ++ t) := by
  unfold readDynamic at h ⊢
  split at h
  · cases h
  · rename_i ha
    simp only [getBits_append ha t]
    split at h
    · cases h
    · rename_i hb
      simp only [getBits_append hb t]
      split at h
      · cases h
      · rename_i hc
        simp only [getBits_append hc t]
        simp only at h
        split at h
        · cases h
        · rename_i hr
          rw [if_neg hr]
          split at h
          · cases h
          · rename_i hcl
            simp only [readCodeLens_append hcl t]
            split at h
            · cases h
            · split at h
              · cases h
              · rename_i hl
                simp only [readLens_append hl t]
                split at h
                · cases h
                · rename_i h₀
                  rw [if_neg h₀]
                  cases h
                  rfl

theorem inflateCoded_append {ll dl : List Nat} {bits rest : Bits} {out out' : List Byte}
    (h : inflateCoded ll dl bits out = some (rest, out')) (t : Bits) :
    inflateCoded ll dl (bits ++ t) out = some (rest ++ t, out') := by
  unfold inflateCoded at h ⊢
  split at h
  · exact inflateBlock_append (by simp) h t
  · cases h

theorem inflateStored_append {bits rest : Bits} {out out' : List Byte} (h : inflateStored bits out = some (rest, out'))
    (t : Bits) (ht : t.length % 8 = 0) : inflateStored (bits ++ t) out = some (rest ++ t, out') := by
  unfold inflateStored at h ⊢
  rw [alignBits_append _ _ ht]
  split at h
  · cases h
  · rename_i hl
    simp only [getBits_append hl t]
    split at h
    · cases h
    · rename_i hn
      simp only [getBits_append hn t]
      split at h
      · cases h
      · rename_i hx
        rw [if_neg hx]
        simp only [Option.map_eq_some_iff, Prod.mk.injEq] at h
        obtain ⟨⟨bs, r⟩, h₃, rfl, rfl⟩ := h
        simp only [getBytes_append h₃ t, Option.map_some]

theorem inflateBody_append {btype : Nat} {bits rest : Bits} {out out' : List Byte}
    (h : inflateBody btype bits out = some (rest, out')) (t : Bits) (ht : t.length % 8 = 0) :
    inflateBody btype (bits ++ t) out = some (rest ++ t, out') := by
  unfold inflateBody at h ⊢
  split at h
  · exact inflateStored_append h t ht
  · exact inflateCoded_append h t
  · split at h
    · cases h
    · rename_i hd
      simp only [readDynamic_append hd t]
      exact inflateCoded_append h t
  · cases h

/-- More bytes behind a stream and a larger bound change nothing its blocks give. -/
theorem inflateBlocks_append {k l : Nat} {bits rest : Bits} {out out' : List Byte} (hl : k ≤ l)
    (h : inflateBlocks k bits out = some (rest, out')) (t : Bits) (ht : t.length % 8 = 0) :
    inflateBlocks l (bits ++ t) out = some (rest ++ t, out') := by
  induction k generalizing l bits out with
  | zero => cases h
  | succ k ih =>
    obtain ⟨l, rfl⟩ : ∃ j, l = j + 1 := ⟨l - 1, by omega⟩
    simp only [inflateBlocks] at h ⊢
    split at h
    · cases h
    · rename_i h₁
      simp only [getBits_append h₁ t]
      split at h
      · cases h
      · rename_i h₂
        simp only [getBits_append h₂ t]
        split at h
        · cases h
        · rename_i h₃
          simp only [inflateBody_append h₃ t ht]
          split at h
          · rename_i h₄
            rw [if_pos h₄]
            cases h
            rfl
          · rename_i h₄
            rw [if_neg h₄]
            exact ih (by omega) h

/-- The inflater stops at the end of its stream, whatever bytes follow (rules R305 and R319). -/
theorem inflate_append {d x : List Byte} {n : Nat} (h : inflate d = some (x, n)) (e : List Byte) :
    inflate (d ++ e) = some (x, n) := by
  simp only [inflate, Option.map_eq_some_iff, Prod.mk.injEq] at h
  obtain ⟨⟨rest, out⟩, h₁, rfl, rfl⟩ := h
  have hk : 8 * d.length + 1 ≤ 8 * (d ++ e).length + 1 := by
    rw [List.length_append]
    omega
  have ht : (bitsOf e).length % 8 = 0 := by
    rw [bitsOf_length]
    omega
  rw [inflate, bitsOf_append, inflateBlocks_append hk h₁ _ ht]
  simp only [Option.map_some, Option.some.injEq, Prod.mk.injEq, true_and, List.length_append, bitsOf_length]
  omega

/-! ### Stored blocks -/

theorem getBits_byte (b : Byte) (rest : Bits) : getBits 8 (byteBits b ++ rest) = some (b.toNat, rest) := by
  have h : getBits 8 (byteBits b) = some (b.toNat, []) := by
    revert b
    decide +kernel
  exact getBits_append h rest

theorem getBits_le16 {v : Nat} (hv : v < 65536) (rest : Bits) :
    getBits 16 (bitsOf (le16 v) ++ rest) = some (v, rest) := by
  rw [show 16 = 8 + 8 from rfl, getBits_add, le16, bitsOf_cons, bitsOf_cons, bitsOf_nil, List.append_nil,
    List.append_assoc, getBits_byte, Option.bind_some, getBits_byte]
  simp only [Option.map_some, Option.some.injEq, Prod.mk.injEq, and_true, BitVec.toNat_ofNat,
    Nat.shiftRight_eq_div_pow]
  omega

theorem getBytes_bitsOf (p : List Byte) (rest : Bits) : getBytes p.length (bitsOf p ++ rest) = some (p, rest) := by
  induction p with
  | nil => rfl
  | cons b p ih =>
    simp only [List.length_cons, getBytes, bitsOf_cons, List.append_assoc, getBits_byte, ih]
    simp

theorem xor_mask_lt {n : Nat} (h : n < 65536) : n ^^^ 0xFFFF < 65536 :=
  Nat.xor_lt_two_pow (n := 16) h (by decide)

/-- The 3 header bits of a stored block, and the 5 bits skipped after them (rules R311 and R312). -/
theorem header_bits (final : Bool) :
    byteBits (BitVec.ofNat 8 final.toNat) = [final, false, false] ++ [false, false, false, false, false] := by
  cases final <;> decide

/-- A stored block at a byte boundary gives its bytes (rules R311, R312 and R340). -/
theorem inflateBlocks_stored {k : Nat} {final : Bool} {p d : List Byte} {out : List Byte} (hp : p.length < 65536) :
    inflateBlocks (k + 1) (bitsOf (storedBlock final p ++ d)) out
      = if final then some (bitsOf d, out ++ p) else inflateBlocks k (bitsOf d) (out ++ p) := by
  have hbits : bitsOf (storedBlock final p ++ d)
      = final :: false :: false :: ([false, false, false, false, false]
        ++ (bitsOf (le16 p.length) ++ (bitsOf (le16 (p.length ^^^ 0xFFFF)) ++ (bitsOf p ++ bitsOf d)))) := by
    simp only [storedBlock, List.cons_append, bitsOf_cons, header_bits, bitsOf_append, List.append_assoc,
      List.nil_append]
  have halign : ∀ e : List Byte, alignBits ([false, false, false, false, false] ++ bitsOf e) = bitsOf e := by
    intro e
    rw [alignBits_append _ _ (by rw [bitsOf_length]; omega)]
    rfl
  have hbody : inflateBody 0 ([false, false, false, false, false]
      ++ (bitsOf (le16 p.length) ++ (bitsOf (le16 (p.length ^^^ 0xFFFF)) ++ (bitsOf p ++ bitsOf d)))) out
      = some (bitsOf d, out ++ p) := by
    have h := halign (le16 p.length ++ (le16 (p.length ^^^ 0xFFFF) ++ (p ++ d)))
    simp only [bitsOf_append] at h
    simp only [inflateBody, inflateStored, h, getBits_le16 hp, getBits_le16 (xor_mask_lt hp), getBytes_bitsOf,
      ne_eq, not_true, if_false, Option.map_some]
  have h₁ : ∀ b (r : Bits), getBits 1 (b :: r) = some (b.toNat, r) := fun _ _ => rfl
  have h₂ : ∀ (r : Bits), getBits 2 (false :: false :: r) = some (0, r) := fun _ => rfl
  rw [hbits]
  simp only [inflateBlocks, h₁, h₂, hbody]
  cases final <;> rfl

/-- The stored blocks of `x` decode to `x` and leave what follows them (rules R302 and R340). -/
theorem inflateBlocks_storedBlocks {k l : Nat} {x d out : List Byte} (hk : x.length < k) (hl : x.length < l) :
    inflateBlocks l (bitsOf (storedBlocks k x ++ d)) out = some (bitsOf d, out ++ x) := by
  induction k generalizing x l out with
  | zero => omega
  | succ k ih =>
    obtain ⟨l, rfl⟩ : ∃ j, l = j + 1 := ⟨l - 1, by omega⟩
    rw [storedBlocks]
    split
    · rename_i hs
      rw [storedMax] at hs
      rw [inflateBlocks_stored (by omega)]
      rfl
    · rename_i hs
      rw [storedMax] at hs ⊢
      have ht : (x.take 65535).length = 65535 := by
        rw [List.length_take]
        omega
      have hd : (x.drop 65535).length + 65535 = x.length := by
        rw [List.length_drop]
        omega
      rw [List.append_assoc, inflateBlocks_stored (by omega), ih (by omega) (by omega)]
      simp [List.append_assoc, List.take_append_drop]

/-- DEFLATE_STORED is lawful (rules R302 and R340). -/
theorem inflate_deflateStored (x : List Byte) : inflate (deflateStored x) = some (x, (deflateStored x).length) := by
  have hlen : ∀ k (y : List Byte), y.length < k → y.length ≤ (storedBlocks k y).length := by
    intro k
    induction k with
    | zero => intro y h; omega
    | succ k ih =>
      intro y h
      rw [storedBlocks]
      split
      · simp [storedBlock]
        omega
      · rename_i hs
        rw [storedMax] at hs ⊢
        have := ih (y.drop 65535) (by rw [List.length_drop]; omega)
        rw [List.length_drop] at this
        simp only [storedBlock, List.length_append, List.length_cons, List.length_take]
        omega
  have hx := hlen (x.length + 1) x (Nat.lt_succ_self _)
  have h := inflateBlocks_storedBlocks (k := x.length + 1) (l := 8 * (deflateStored x).length + 1) (x := x) (d := [])
    (out := []) (Nat.lt_succ_self _) (by rw [deflateStored]; omega)
  rw [List.append_nil] at h
  change inflateBlocks _ (bitsOf (deflateStored x)) [] = _ at h
  rw [inflate, h]
  simp

end Sys2Proof.Machine
end

