-- ==== Sys2Proof/Laws/PerInstr.lean ====
section
/-! SUPPORT. The statements made of every command, one lemma a constructor. -/

namespace Sys2Proof.Laws.Encoding

/-- Decoding the word of a well-formed command gives the command back (rules R110 to R115). -/
def Statement (i : Instr) : Prop :=
  i.wf = true → decode (encode i) = .command i

theorem nop : Statement .nop := fun _ => by decide
theorem sreset : Statement .sreset := fun _ => by decide
theorem inRead : Statement .inRead := fun _ => by decide
theorem bsrOpen : Statement .bsrOpen := fun _ => by decide
theorem bsrRead (eodok : Bool) : Statement (.bsrRead eodok) := fun _ => by cases eodok <;> decide
theorem bsrDrain : Statement .bsrDrain := fun _ => by decide
theorem lzwInit (m : Nat) : Statement (.lzwInit m) := fun h => by
  have hm : m < 256 := of_decide_eq_true h
  have hw : (encode (.lzwInit m)).toNat = 32 + 256 * m := by
    simp only [encode, Instr.op, Instr.imm, BitVec.toNat_ofNat]
    omega
  have hr : field (encode (.lzwInit m)) 31 16 = 0 := by
    simp only [field, hw, Nat.shiftRight_eq_div_pow]
    omega
  have ho : field (encode (.lzwInit m)) 7 0 = 32 := by
    simp only [field, hw, Nat.shiftRight_zero]
    omega
  have hi : field (encode (.lzwInit m)) 15 8 = m := by
    simp only [field, hw, Nat.shiftRight_eq_div_pow]
    omega
  simp only [decode, hr, ho, hi, decodeOp, if_true]
theorem lzwDecode : Statement .lzwDecode := fun _ => by decide
theorem lzwFinish : Statement .lzwFinish := fun _ => by decide
theorem crcInit : Statement .crcInit := fun _ => by decide
theorem crcUpdate : Statement .crcUpdate := fun _ => by decide
theorem zlibCompress : Statement .zlibCompress := fun _ => by decide
theorem chunkWrite : Statement .chunkWrite := fun _ => by decide
theorem outWrite : Statement .outWrite := fun _ => by decide

end Sys2Proof.Laws.Encoding
end

