-- ==== Sys2Proof/Machine/Asm.lean ====
section
/-! DEFINITION. The host's statements and pseudo-instructions (rules R118 and R119), as the host operations they stand for. Host
variables, expressions and control flow are host state, which the block never sees (rule R118). -/

namespace Sys2Proof.Machine

/-- A primitive statement (rule R118). -/
inductive Stmt where
  /-- `WR <reg>, <value>`. -/
  | wr (r : Reg) (v : Word)
  /-- `RD <reg>`. -/
  | rd (r : Reg)
  /-- `BW <addr>, <byte>, …`. -/
  | bw (a : Nat) (bs : List Byte)
  /-- `BR <addr>`. -/
  | br (a : Nat)
  /-- `CMD <MNEMONIC>`. -/
  | cmd (i : Instr)
  deriving DecidableEq, Repr

/-- `BufWrite` of consecutive bytes (rule R118). -/
def bufWrites : Nat → List Byte → List HostOp
  | _, [] => []
  | a, b :: bs => .bufWrite a 8 b :: bufWrites (a + 1) bs

/-- The host operations of a statement (rule R118). -/
def Stmt.ops : Stmt → List HostOp
  | .wr r v => [.regWrite r.offset 32 v]
  | .rd r => [.regRead r.offset 32]
  | .bw a bs => bufWrites a bs
  | .br a => [.bufRead a 8]
  | .cmd i => [.regWrite Reg.cmd.offset 32 (encode i)]

/-- A pseudo-instruction (rule R119). -/
inductive Pseudo where
  | nop
  | sreset
  | inRead (dst n : Word)
  | bsrOpen
  | bsrRead (dst n : Word) (eodok : Bool)
  | bsrDrain
  | lzwInit (m : Nat)
  | lzwDecode (dst n : Word)
  | lzwFinish
  | crcInit
  | crcUpdate (src n : Word)
  | zlibCompress (src n dst : Word)
  | chunkWrite (t src n : Word)
  | outWrite (src n : Word)
  | strict (on : Bool)
  deriving DecidableEq, Repr

/-- The expansion of a pseudo-instruction, in the order rule R119 shows. An A-register is written only where the command reads it. -/
def Pseudo.expand : Pseudo → List Stmt
  | .nop => [.cmd .nop]
  | .sreset => [.cmd .sreset]
  | .inRead dst n => [.wr .a0 dst, .wr .a1 n, .cmd .inRead]
  | .bsrOpen => [.cmd .bsrOpen]
  | .bsrRead dst n eodok => [.wr .a0 dst, .wr .a1 n, .cmd (.bsrRead eodok)]
  | .bsrDrain => [.cmd .bsrDrain]
  | .lzwInit m => [.cmd (.lzwInit m)]
  | .lzwDecode dst n => [.wr .a0 dst, .wr .a1 n, .cmd .lzwDecode]
  | .lzwFinish => [.cmd .lzwFinish]
  | .crcInit => [.cmd .crcInit]
  | .crcUpdate src n => [.wr .a0 src, .wr .a1 n, .cmd .crcUpdate]
  | .zlibCompress src n dst => [.wr .a0 src, .wr .a1 n, .wr .a2 dst, .cmd .zlibCompress]
  | .chunkWrite t src n => [.wr .a0 src, .wr .a1 n, .wr .a2 t, .cmd .chunkWrite]
  | .outWrite src n => [.wr .a0 src, .wr .a1 n, .cmd .outWrite]
  | .strict on => [.wr .ctrl (BitVec.ofNat 32 on.toNat)]

/-- The host operations of a pseudo-instruction (rules R118 and R119). -/
def Pseudo.ops (p : Pseudo) : List HostOp :=
  p.expand.flatMap Stmt.ops

/-- A 4-character string as a word, its first character in bits 31:24 (rules R118 and R266). -/
def typeWord (c0 c1 c2 c3 : Char) : Word :=
  BitVec.ofNat 32 (c0.toNat <<< 24 + c1.toNat <<< 16 + c2.toNat <<< 8 + c3.toNat)

end Sys2Proof.Machine
end

