-- ==== Sys2Proof/Tests/Slice0.lean ====
section
/-! SUPPORT. Tests of the model against the spec's own words and vectors (30_encoding.md, 95_test_vectors.md), and for each statement
with hypotheses a state that meets them. -/

namespace Sys2Proof.Tests

open Sys2Proof.Machine

/-- What `f` shows of the next state, where there is one. -/
def got {α : Type} (o : Host.Outcome State Fault Refusal) (f : State → α) : Option α :=
  match o with
  | .next t => some (f t)
  | .fault _ | .refused _ => none

/-- The run ended at an unwritten byte, and where. -/
def endedAt (o : Host.Outcome State Fault Refusal) : Option Nat :=
  match o with
  | .fault (.readUnwritten a) => some a
  | _ => none

theorem next_of_got {α : Type} {o : Host.Outcome State Fault Refusal} {f : State → α} {v : α}
    (h : got o f = some v) : ∃ t, o = .next t ∧ f t = v := by
  cases o with
  | next t => exact ⟨t, rfl, by simpa [got] using h⟩
  | fault _ => cases h
  | refused _ => cases h

theorem fault_of_endedAt {o : Host.Outcome State Fault Refusal} {a : Nat} (h : endedAt o = some a) :
    o = .fault (.readUnwritten a) := by
  unfold endedAt at h
  split at h
  · simp only [Option.some.injEq] at h; rw [h]
  · cases h

/-- The block just after reset, with a BUF of 16 bytes and the operands given. -/
def small (a n : Word) : State :=
  { State.reset with bufBytes := 16, a0 := a, a1 := n }

/-- `s` with `bs` on IN. -/
def feed (s : State) (bs : List Byte) : State :=
  { s with inBytes := bs }

/-- `s` with the host having written `bs` from address 0 of BUF up. -/
def loaded (s : State) (bs : List Byte) : State :=
  s.writeBufList 0 bs

/-- `s` with one host operation waiting. -/
def queued (s : State) (op : HostOp) : State :=
  { s with hostOps := [op] }

/-! ### Encodings, written out from rules R110, R113 and R114 -/

theorem test_wf_refuses_wide_imm : (Instr.lzwInit 256).wf = false := by decide

/-- Bits 31:16 are RSV, 15:8 IMM, 7:0 OP. -/
theorem test_decode_control :
    decode 0b0000000000000000_00000000_00000000#32 = .command .nop
      ∧ decode 0b0000000000000000_00000000_00000001#32 = .command .sreset := by decide

theorem test_decode_stream :
    decode 0b0000000000000000_00000000_00010000#32 = .command .inRead
      ∧ decode 0b0000000000000000_00000000_00010001#32 = .command .bsrOpen
      ∧ decode 0b0000000000000000_00000000_00010010#32 = .command (.bsrRead false)
      ∧ decode 0b0000000000000000_00000001_00010010#32 = .command (.bsrRead true)
      ∧ decode 0b0000000000000000_00000000_00010011#32 = .command .bsrDrain := by decide

theorem test_decode_lzw :
    decode 0b0000000000000000_00000010_00100000#32 = .command (.lzwInit 2)
      ∧ decode 0b0000000000000000_11111111_00100000#32 = .command (.lzwInit 255)
      ∧ decode 0b0000000000000000_00000000_00100001#32 = .command .lzwDecode
      ∧ decode 0b0000000000000000_00000000_00100010#32 = .command .lzwFinish := by decide

theorem test_decode_output :
    decode 0b0000000000000000_00000000_00110000#32 = .command .crcInit
      ∧ decode 0b0000000000000000_00000000_00110001#32 = .command .crcUpdate
      ∧ decode 0b0000000000000000_00000000_01000000#32 = .command .zlibCompress
      ∧ decode 0b0000000000000000_00000000_01010000#32 = .command .chunkWrite
      ∧ decode 0b0000000000000000_00000000_01010001#32 = .command .outWrite := by decide

/-- Vectors V-CTL-2 to V-CTL-7. -/
theorem test_decode_illegal :
    decode 0x00000100 = .illegal .badImm ∧ decode 0x00010000 = .illegal .reservedBits
      ∧ decode 0x00000002 = .illegal .unassignedOp ∧ decode 0x00000212 = .illegal .badImm
      ∧ decode 0x00000111 = .illegal .badImm ∧ decode 0x00001022 = .illegal .badImm := by decide

theorem test_table_word :
    decodeTableWord 32 0x00000820 = some (.lzwInit 8) ∧ decodeTableWord 32 0x00000002 = none
      ∧ decodeTableWord 16 0x00000112 = some (.bsrRead true) := by decide

/-- The words of rule R119, and the operand writes before them. -/
theorem test_pseudo_words :
    Pseudo.ops (.chunkWrite (typeWord 'I' 'H' 'D' 'R') 0 13)
        = [.regWrite 0x04 32 0, .regWrite 0x08 32 13, .regWrite 0x0C 32 0x49484452, .regWrite 0x00 32 0x00000050]
      ∧ Pseudo.ops (.bsrRead 0x13 5 true)
        = [.regWrite 0x04 32 0x13, .regWrite 0x08 32 5, .regWrite 0x00 32 0x00000112]
      ∧ Pseudo.ops (.strict true) = [.regWrite 0x24 32 1] := by decide

/-! ### The command cycle and control (V-CTL) -/

/-- V-CTL-1: NOP keeps RES. -/
theorem test_nop_keeps_res : got (exec .nop { State.reset with res := 7 }) State.res = some 7 := by decide

/-- V-CTL-4: an unassigned OP. -/
theorem test_illegal_word_faults :
    got (hostStep (.regWrite 0x00 32 0x02) State.reset) (fun t => (t.fault, t.finfo0, t.finfo1, t.statusView))
      = some (0x40, 2, 0, 3) := by decide

/-- V-CTL-8: a locked block ignores CRC.INIT, and an SRESET word with IMM 1. -/
theorem test_locked_ignores :
    got (hostStep (.regWrite 0x00 32 0x30) { State.reset with fault := 0x40, crc := 5 }) (fun t => (t.crc, t.cmd))
        = some (5, 0x30)
      ∧ got (hostStep (.regWrite 0x00 32 0x101) { State.reset with fault := 0x40 }) (fun t => (t.fault, t.cmd))
        = some (0x40, 0x101) := by decide

/-- V-CTL-9. -/
theorem test_sreset_unlocks :
    got (hostStep (.regWrite 0x00 32 0x01) { State.reset with fault := 0x40, finfo0 := 2 })
        (fun t => (t.fault, t.finfo0, t.cmd, t.statusView)) = some (0, 0, 1, 2) := by decide

/-- V-CTL-10, and BUF kept (rule R450). -/
theorem test_sreset_clears :
    got (exec .sreset { State.reset with ctrl := 1, a0 := 5, inCount := 3, buf := [(4, 9)] })
        (fun t => (t.ctrl, t.a0, t.inCount, t.buf)) = some (0, 0, 0, [(4, 9)]) := by decide

/-- The reset column of rule R30's map. -/
theorem test_reset_views :
    [0x14, 0x28, 0x2C, 0x30, 0x34, 0x44, 0x50, 0x54].map State.reset.readOffset
      = [0x2, 0xFFFFFFFF, 0, 1, 0, 0x10000, 0x4C5A5701, 0x10000] := by decide

/-! ### Raw input and the block stream reader (V-IN, V-BSR) -/

/-- V-IN-1. -/
theorem test_in_read_header :
    got (exec .inRead (feed (small 0 6) [0x47, 0x49, 0x46, 0x38, 0x39, 0x61, 0x2C]))
        (fun t => (Memory.readList t.buf 0 6, t.res, t.inCount))
      = some (some [0x47, 0x49, 0x46, 0x38, 0x39, 0x61], 6, 6) := by decide +kernel

/-- V-IN-3. -/
theorem test_in_read_error :
    got (exec .inRead { feed (small 0 5) [1, 2, 3] with inEnd := .err 0x55 })
        (fun t => (t.fault, t.finfo0, t.finfo1, t.buf))
      = some (0x30, 0x55, 3, [(0, 1), (1, 2), (2, 3)]) := by decide +kernel

/-- Rule R164. -/
theorem test_bsr_open_drops_held :
    got (exec .bsrOpen { State.reset with bsrLen := 3, bsrPos := 1 }) State.bsrStatView = some 0 := by decide

/-- V-BSR-1, step 1. -/
theorem test_bsr_read_stops_at_count :
    got (exec (.bsrRead false) (feed { small 0x8 2 with bsrTerm := false } [3, 0x41, 0x42, 0x43, 0]))
        (fun t => (t.res, t.buf, t.bsrStatView, t.inCount))
      = some (2, [(8, 0x41), (9, 0x42)], 0x203, 4) := by decide +kernel

/-- V-BSR-4: a sub-block cut short. -/
theorem test_bsr_read_cut_short :
    got (exec (.bsrRead false) (feed { small 0 5 with bsrTerm := false } [5, 1, 2]))
        (fun t => (t.fault, t.finfo0, t.finfo1, t.bsrStatView, t.inCount)) = some (0x10, 5, 2, 0, 3) := by
  decide +kernel

/-- V-BSR-2. -/
theorem test_bsr_drain_counts :
    got (exec .bsrDrain (feed { State.reset with bsrTerm := false } [2, 0xAA, 0xBB, 1, 0xCC, 0, 0x3B]))
        (fun t => (t.res, t.statusView, t.bsrStatView, t.inCount, t.inBytes))
      = some (3, 2, 0x00010101, 6, [0x3B]) := by decide +kernel

/-- V-BSR-7. -/
theorem test_bsr_drain_closed :
    got (exec .bsrDrain (feed State.reset [1, 2])) (fun t => (t.res, t.inCount)) = some (0, 0) := by decide

/-! ### The LZW decompressor (V-LZW) -/

/-- The block after LZW_INIT `m`, `bs` on IN, and the operands of a decode. -/
def opened (m : Nat) (bs : List Byte) (dst n : Word) : State :=
  { feed (State.reset.openLzw m) bs with a0 := dst, a1 := n }

/-- V-LZW-1, the LZW_INIT. -/
theorem test_lzw_init :
    got (exec (.lzwInit 2) State.reset) (fun t => (t.lzwStatView, t.statusView)) = some (0x00200632, 4) := by decide

/-- V-LZW-F11. -/
theorem test_lzw_init_bad :
    got (exec (.lzwInit 9) State.reset) (fun t => (t.fault, t.finfo0, t.lzwStatView)) = some (0x16, 9, 0) := by decide

/-- V-LZW-1: the width grows to 4 after the entry 7. -/
theorem test_lzw_decode_2x2 :
    got (exec .lzwDecode (opened 2 [3, 0x44, 0x02, 0x05, 0] 0x100 4))
        (fun t => (Memory.readList t.buf 0x100 4, t.lzwStatView, t.lzwPrefix, t.bsrStatView))
      = some (some [0, 1, 1, 0], 0x00A00942, [(6, 0), (7, 1), (8, 1)], 0x203) := by decide +kernel

/-- V-LZW-3: a code that refers to the entry it defines, one byte of it still pending. -/
theorem test_lzw_decode_pending :
    got (exec .lzwDecode (opened 2 [2, 0x84, 0x5D, 0] 0 2))
        (fun t => (t.buf, t.lzwPendView, t.lzwStatView, t.lzwAuxView))
      = some ([(0, 0), (1, 0)], 1, 0x00A00732, 0x00007006) := by decide +kernel

/-- The block after V-LZW-1's decode, with `bs` still on IN. -/
def decoded (strict : Bool) (bs : List Byte) : State :=
  { opened 2 bs 0x100 4 with
    ctrl := if strict then 1 else 0
    lzwWidth := 4, lzwNext := 9, lzwPrev := 0, lzwPrevValid := true
    lzwPrefix := [(6, 0), (7, 1), (8, 1)]
    lzwSuffix := [(6, 1), (7, 1), (8, 0)]
    bsrBuf := [(0, 0x44), (1, 0x02), (2, 0x05)]
    bsrLen := 3, bsrPos := 2
    inCount := 4 }

/-- V-LZW-1, both endings. -/
theorem test_lzw_finish_modes :
    got (exec .lzwFinish (decoded true [0]))
        (fun t => (t.res, t.statusView, t.lzwStatView, t.bsrStatView, t.inCount))
        = some (0, 2, 0x00800942, 0x00010303, 5)
      ∧ got (exec .lzwFinish (decoded false [0]))
        (fun t => (t.res, t.statusView, t.lzwStatView, t.bsrStatView, t.inCount))
        = some (1, 2, 0x00800942, 0x00010303, 5) := by decide +kernel

/-- V-LZW-F8 and V-LZW-F9: a sub-block after the end code. -/
theorem test_lzw_finish_extra :
    got (exec .lzwFinish (decoded true [1, 0x99, 0])) (fun t => (t.fault, t.finfo0, t.finfo1, t.inCount))
        = some (0x15, 1, 0, 5)
      ∧ got (exec .lzwFinish (decoded false [1, 0x99, 0])) (fun t => (t.fault, t.res, t.inCount))
        = some (0, 2, 7) := by decide +kernel

/-! ### CRC-32, chunks and raw output (V-CRC, V-CW) -/

/-- V-CRC-8. -/
theorem test_crc_init :
    got (exec .crcInit { State.reset with crc := 0x12345678, res := 3 }) (fun t => (t.crc, t.crcOutView, t.res))
      = some (0xFFFFFFFF, 0, 0) := by decide

/-- V-CRC-1. -/
theorem test_crc_update_digits :
    got (exec .crcUpdate (loaded (small 0 9) [0x31, 0x32, 0x33, 0x34, 0x35, 0x36, 0x37, 0x38, 0x39]))
        (fun t => (t.res, t.crc, t.crcOutView)) = some (9, 0x340BC6D9, 0xCBF43926) := by decide +kernel

/-- The check values of rule R261. -/
theorem test_crc_check_values :
    crc32 [] = 0 ∧ crc32 [0x49, 0x45, 0x4E, 0x44] = 0xAE426082 := by decide +kernel

/-- V-CW-1. -/
theorem test_chunk_write_iend :
    got (exec .chunkWrite { small 0 0 with a2 := 0x49454E44 }) (fun t => (t.outBytes, t.res, t.crc, t.outCount))
      = some ([0, 0, 0, 0, 0x49, 0x45, 0x4E, 0x44, 0xAE, 0x42, 0x60, 0x82], 12, 0x51BD9F7D, 12) := by decide +kernel

/-- V-CW-4: OUT refuses inside the type. -/
theorem test_chunk_write_refused :
    got (exec .chunkWrite { small 0 0 with a2 := 0x49454E44, outRefusals := [(6, 0x77)] })
        (fun t => (t.outBytes, t.fault, t.finfo0, t.finfo1, t.crc, t.res))
      = some ([0, 0, 0, 0, 0x49, 0x45], 0x31, 0x77, 6, 0x992BAC53, 0) := by decide +kernel

/-- V-CW-6. -/
theorem test_out_write_signature :
    got (exec .outWrite (loaded (small 0 8) [0x89, 0x50, 0x4E, 0x47, 0x0D, 0x0A, 0x1A, 0x0A]))
        (fun t => (t.outBytes, t.res, t.outCount, t.crc))
      = some ([0x89, 0x50, 0x4E, 0x47, 0x0D, 0x0A, 0x1A, 0x0A], 8, 8, 0xFFFFFFFF) := by decide +kernel

/-! ### The zlib encoder (V-Z) -/

/-- V-Z-3: the output over its own input. -/
theorem test_zlib_overlap :
    got (exec .zlibCompress (loaded { State.reset with a1 := 6 } [0, 0, 1, 0, 1, 0]))
        (fun t => (Memory.readList t.buf 0 17, t.res, t.zadler))
      = some (some ([0x78, 0xDA, 0x01, 0x06, 0x00, 0xF9, 0xFF, 0x00, 0x00] ++ [0x01, 0x00, 0x01, 0x00, 0x00, 0x0C, 0x00, 0x03]),
          17, 0x000C0003) := by decide +kernel

/-- V-Z-4: no room for the output. -/
theorem test_zlib_no_room :
    got (exec .zlibCompress { loaded { State.reset with a1 := 6, a2 := 0x10 } [0, 0, 1, 0, 1, 0] with bufBytes := 0x20 })
        (fun t => (t.fault, t.finfo0, t.finfo1, t.zadler)) = some (0x41, 0x10, 0x11, 1) := by decide +kernel

/-- The check values of rule R304. -/
theorem test_adler :
    adler32 [] = 1 ∧ adler32 [0x61] = 0x00620062
      ∧ adler32 [0x57, 0x69, 0x6B, 0x69, 0x70, 0x65, 0x64, 0x69, 0x61] = 0x11E60398 := by decide +kernel

/-- Rules R320 and R341: fixed Huffman codes, with and without a back-reference. -/
theorem test_inflate_fixed :
    inflate [0x63, 0x60, 0x60, 0x64, 0x60, 0x64, 0x00, 0x00] = some ([0, 0, 1, 0, 1, 0], 8)
      ∧ inflate [0x63, 0x60, 0x60, 0x04, 0x42, 0x00] = some ([0, 0, 1, 0, 1, 0], 6) := by decide +kernel

/-- The rejects of section 2.6's law checks: BTYPE 3, a wrong NLEN, an end inside a symbol. -/
theorem test_inflate_rejects :
    inflate [0x07, 0x00] = none ∧ inflate [0x01, 0x06, 0x00, 0xF9, 0xFE] = none ∧ inflate [0x63, 0x00] = none := by
  decide +kernel

/-! ### Witnesses: for each statement with hypotheses, states that meet them, clause by clause -/

/-- `c` is a data code, as a test. -/
def dataCodeB (s : State) (c : Nat) : Bool :=
  decide (c < s.clearCode) || (decide (s.clearCode + 2 ≤ c) && decide (c < s.lzwNext))

/-- The entries below `n`, each with a prefix below it and a suffix. -/
def entriesB (s : State) : Nat → Bool
  | 0 => true
  | k + 1 =>
    entriesB s k && (decide (k < s.clearCode + 2)
      || ((Store.find s.lzwPrefix k).any (fun p => decide (p < k) && dataCodeB s p)
        && (Store.find s.lzwSuffix k).isSome))

/-- The invariants of an open stream, as a test. -/
def openB (s : State) : Bool :=
  decide ((2 ≤ s.lzwMin ∧ s.lzwMin ≤ 8) ∧ (s.lzwMin + 1 ≤ s.lzwWidth ∧ s.lzwWidth ≤ 12)
    ∧ (s.clearCode + 2 ≤ s.lzwNext ∧ s.lzwNext ≤ 4096)
    ∧ (s.lzwNext < 2 ^ s.lzwWidth ∨ (s.lzwNext = 4096 ∧ s.lzwWidth = 12))
    ∧ (s.lzwPrevValid = true → dataCodeB s s.lzwPrev = true)) && entriesB s s.lzwNext

/-- The invariants of the units, as a test. -/
def unitB (s : State) : Bool :=
  decide ((1 ≤ s.bufBytes ∧ s.bufBytes ≤ 2 ^ 32) ∧ Memory.wf s.buf ∧ (∀ c ∈ s.buf, c.1 < s.bufBytes)
    ∧ (s.bsrPos ≤ s.bsrLen ∧ s.bsrLen ≤ 255)
    ∧ (Store.Rising s.bsrBuf ∧ ∀ c ∈ s.bsrBuf, c.1 < 255)
    ∧ (∀ i ∈ List.range s.bsrLen, (Store.find s.bsrBuf i).isSome = true)
    ∧ (Store.Rising s.lzwPrefix ∧ ∀ c ∈ s.lzwPrefix, c.1 < 4096 ∧ c.2 < 4096)
    ∧ (Store.Rising s.lzwSuffix ∧ ∀ c ∈ s.lzwSuffix, c.1 < 4096)
    ∧ (s.lzwMin ≤ 8 ∧ s.lzwWidth ≤ 12 ∧ s.lzwNext ≤ 4096 ∧ s.lzwPrev < 4096)
    ∧ (s.lzwNbits ≤ 19 ∧ s.lzwBitbuf.toNat < 2 ^ s.lzwNbits) ∧ s.lzwPend.length ≤ 4095
    ∧ (s.lzwState ≠ .idle → openB s = true))

/-- The invariants of an unlocked block, as a test. -/
def invB (s : State) : Bool :=
  unitB s && decide (s.ctrl.toNat ≤ 1 ∧ s.fault = 0 ∧ s.finfo0 = 0 ∧ s.finfo1 = 0 ∧ s.lzwState ≠ .done)

theorem dataCode_of_test {s : State} {c : Nat} (h : dataCodeB s c = true) : s.DataCode c := by
  simp only [dataCodeB, Bool.or_eq_true, Bool.and_eq_true, decide_eq_true_eq] at h
  exact h

theorem entry_of_test {s : State} : ∀ {n : Nat}, entriesB s n = true → ∀ k, k < n → s.clearCode + 2 ≤ k →
    (∃ p, Store.find s.lzwPrefix k = some p ∧ p < k ∧ s.DataCode p) ∧ ∃ b, Store.find s.lzwSuffix k = some b
  | 0, _, _, hk, _ => absurd hk (Nat.not_lt_zero _)
  | n + 1, h, k, hk, hc => by
    simp only [entriesB, Bool.and_eq_true, Bool.or_eq_true, decide_eq_true_eq] at h
    rcases Nat.lt_succ_iff_lt_or_eq.mp hk with hlt | rfl
    · exact entry_of_test h.1 k hlt hc
    · obtain hsmall | ⟨hp, hs⟩ := h.2
      · omega
      · obtain ⟨p, hf, hb⟩ := Option.any_eq_true .. |>.mp hp
        simp only [Bool.and_eq_true, decide_eq_true_eq] at hb
        exact ⟨⟨p, hf, hb.1, dataCode_of_test hb.2⟩, Option.isSome_iff_exists.mp hs⟩

theorem open_of_test {s : State} (h : openB s = true) : s.OpenInv := by
  simp only [openB, Bool.and_eq_true, decide_eq_true_eq] at h
  obtain ⟨⟨h1, h2, h3, h4, h5⟩, h6⟩ := h
  exact ⟨h1, h2, h3, h4, fun hv => dataCode_of_test (h5 hv),
    fun k hk => (entry_of_test h6 k hk.2 hk.1).1, fun k hk => (entry_of_test h6 k hk.2 hk.1).2⟩

theorem inv_of_test {s : State} (h : invB s = true) : s.Inv := by
  simp only [invB, unitB, Bool.and_eq_true, decide_eq_true_eq] at h
  obtain ⟨⟨h1, h2, h3, h4, h5, h6, h7, h8, h9, h10, h11, h12⟩, g1, g2, g3, g4, g5⟩ := h
  exact ⟨⟨h1, h2, h3, h4, h5, fun i hi => Option.isSome_iff_exists.mp (h6 i (List.mem_range.mpr hi)), h7, h8, h9,
    h10, h11, fun hs => open_of_test (h12 hs)⟩, g1, .inl g2, fun _ => ⟨g3, g4⟩, fun hd => absurd hd g5⟩

/-- A block locked by an illegal command word. -/
def lockedBlock : State :=
  { small 0 0 with fault := 0x40 }

/-- An open stream with the one entry 6 = [1, 2], the previous code 1, and `n` bits accumulated. -/
def entry (bits : Word) (n : Nat) (count : Word) : State :=
  { opened 2 [] 0 count with
    lzwNext := 7, lzwPrev := 1, lzwPrevValid := true
    lzwPrefix := [(6, 1)]
    lzwSuffix := [(6, 2)]
    lzwBitbuf := bits, lzwNbits := n }

/-- A stream just opened, with `n` bits accumulated. -/
def fresh (bits : Word) (n : Nat) : State :=
  { opened 2 [] 0 1 with lzwBitbuf := bits, lzwNbits := n }

/-- `s` in strict mode. -/
def strict (s : State) : State :=
  { s with ctrl := 1 }

theorem test_witness_DecodeEncodeAgree :
    (Instr.lzwInit 0).wf = true ∧ (Instr.lzwInit 255).wf = true ∧ (Instr.bsrRead true).wf = true := by decide

theorem test_witness_EncodeDecodeAgree : decode 0x0000FF20 = .command (.lzwInit 255) := by decide

theorem test_witness_IllegalWordsFault :
    decode 0x00010000 = .illegal .reservedBits ∧ decode 0x00000052 = .illegal .unassignedOp
      ∧ decode 0x00000111 = .illegal .badImm ∧ decode 0x00000212 = .illegal .badImm ∧ State.reset.fault = 0 := by
  decide

theorem test_witness_StepRunsDecodedCommand :
    ((queued lockedBlock (.regWrite 0x00 32 0x30)).hostOps = .regWrite 0x00 32 0x30 :: [] ∧ lockedBlock.fault ≠ 0
        ∧ (0x30 : Word) ≠ 0x00000001)
      ∧ ((queued State.reset (.regWrite 0x00 32 0x30)).fault = 0 ∧ decode 0x30 = .command .crcInit)
      ∧ ((queued lockedBlock (.regWrite 0x00 32 1)).hostOps = .regWrite 0x00 32 1 :: []
        ∧ decode 1 = .command .sreset)
      ∧ decode 0x130 = .illegal .badImm := by decide

theorem test_witness_WithFetchWordRunsCommand :
    (Instr.lzwInit 255).wf = true ∧ State.reset.fault = 0 := by decide

theorem test_witness_LockedBlockIgnoresCommands :
    lockedBlock.fault ≠ 0 ∧ (0x30 : Word) ≠ 0x00000001 ∧ 0xFC % 4 = 0 ∧ 0xFC < 0x100 ∧ 15 < lockedBlock.bufBytes
      ∧ HostOp.bufWrite 15 8 7 ≠ .hardReset ∧ HostOp.bufWrite 15 8 7 ≠ .regWrite 0x00 32 0x00000001
      ∧ ∃ t, hostStep (.bufWrite 15 8 7) lockedBlock = .next t :=
  ⟨by decide, by decide, by decide, by decide, by decide, by decide, by decide, _, rfl⟩

theorem test_witness_OnlyResetEndsFault :
    ((queued lockedBlock .hardReset).fault ≠ 0 ∧ ∃ t, step (queued lockedBlock .hardReset) = .next t ∧ t.fault = 0)
      ∧ ∃ t, step (queued lockedBlock (.regWrite 0x00 32 1)) = .next t ∧ t.fault = 0 :=
  ⟨⟨by decide, next_of_got (f := State.fault) (by decide)⟩, next_of_got (f := State.fault) (by decide)⟩

theorem test_witness_HostAccessesFollowTable :
    (2 % 4 ≠ 0 ∧ 0x100 ≥ 0x100 ∧ 16 ≠ 32) ∧ (16 ≥ (small 0 0).bufBytes ∧ 32 ≠ 8)
      ∧ (0xFC % 4 = 0 ∧ 0xFC < 0x100 ∧ 0xFC ∉ [0x00, 0x04, 0x08, 0x0C, 0x24, 0x28])
      ∧ (0x10 % 4 = 0 ∧ 0x10 ∉ [0x00, 0x04, 0x08, 0x0C, 0x24, 0x28]) ∧ 15 < (small 0 0).bufBytes := by decide

theorem test_witness_ReservedOffsetsReadZero :
    (0x58 ≤ 0x58 ∧ 0x58 ≤ 0xFC ∧ 0x58 % 4 = 0) ∧ (0x58 ≤ 0xFC ∧ 0xFC ≤ 0xFC ∧ 0xFC % 4 = 0) := by decide

theorem test_witness_UnitViewsShowUnitState : (decoded true [0]).Inv ∧ (entry 3 3 1).Inv ∧ (decoded true [0]).lzwNbits ≤ 0 :=
  ⟨inv_of_test (by decide +kernel), inv_of_test (by decide +kernel), by decide⟩

theorem test_witness_HostReadsBackWrittenByte : 0 < (small 0 0).bufBytes ∧ 15 < (small 0 0).bufBytes := by decide

theorem test_witness_RangeFaultsBeforeAnyEffect :
    (small 15 2).a0.toNat + (small 15 2).a1.toNat > (small 15 2).bufBytes
      ∧ (small 0xFFFFFFFF 2).a0.toNat + (small 0xFFFFFFFF 2).a1.toNat > (small 0xFFFFFFFF 2).bufBytes
      ∧ (opened 2 [] 0xFFFF 2).a0.toNat + (opened 2 [] 0xFFFF 2).a1.toNat > (opened 2 [] 0xFFFF 2).bufBytes
      ∧ (opened 2 [] 0xFFFF 2).lzwState ≠ .idle := by decide +kernel

theorem test_witness_UnwrittenByteEndsRun :
    (small 0 2).a0.toNat + (small 0 2).a1.toNat ≤ (small 0 2).bufBytes ∧ 1 < (small 0 2).a1.toNat
      ∧ Memory.readList (loaded (small 0 2) [5]).buf 0 1 = some [5]
      ∧ Memory.read (loaded (small 0 2) [5]).buf 1 = none
      ∧ (loaded (small 0 2) [5]).outAccepts 9 :=
  ⟨by decide, by decide, by decide, by decide, fun _ _ => rfl⟩

theorem test_witness_EveryCommandRuns :
    (small 0 1).Inv ∧ (Instr.lzwInit 255).wf = true
      ∧ exec .crcUpdate (small 0 1) = .fault (.readUnwritten 0)
      ∧ exec .outWrite (small 0 1) = .fault (.readUnwritten 0)
      ∧ exec .chunkWrite (small 0 1) = .fault (.readUnwritten 0)
      ∧ exec .zlibCompress (small 0 1) = .fault (.readUnwritten 0) :=
  ⟨inv_of_test (by decide +kernel), by decide, fault_of_endedAt (by decide +kernel), fault_of_endedAt (by decide +kernel),
    fault_of_endedAt (by decide +kernel), fault_of_endedAt (by decide +kernel)⟩

theorem test_witness_InReadCompletes :
    (small 15 1).a0.toNat + (small 15 1).a1.toNat ≤ (small 15 1).bufBytes
      ∧ (feed (small 15 1) [7]).a1.toNat ≤ (feed (small 15 1) [7]).inBytes.length
      ∧ (small 16 0).a0.toNat + (small 16 0).a1.toNat ≤ (small 16 0).bufBytes
      ∧ (small 16 0).a1.toNat ≤ (small 16 0).inBytes.length := by decide

theorem test_witness_InReadFaultsWhenInEnds :
    (small 0 16).a0.toNat + (small 0 16).a1.toNat ≤ (small 0 16).bufBytes
      ∧ (feed (small 0 16) [7]).inBytes.length < (small 0 16).a1.toNat ∧ (small 0 16).inEnd = .eof
      ∧ (({ small 0 16 with inEnd := .err 0x55 } : State)).inEnd = .err 0x55 := by decide

theorem test_witness_BsrReadServesHeldBytes :
    (small 16 0).a0.toNat + (small 16 0).a1.toNat ≤ (small 16 0).bufBytes ∧ (small 16 0).a1 = 0
      ∧ (decoded true []).a0.toNat + (decoded true []).a1.toNat ≤ (decoded true []).bufBytes
      ∧ (decoded true []).a1 ≠ 0 ∧ (decoded true []).bsrPos < (decoded true []).bsrLen := by decide

/-- The BSR open and empty, a sub-block of `d` and then `rest` on IN. -/
def blockNext (d rest : List Byte) : State :=
  feed { small 0 16 with bsrTerm := false } (BitVec.ofNat 8 d.length :: d ++ rest)

theorem test_witness_BsrReadFillsNextBlock :
    (small 0 16).a0.toNat + (small 0 16).a1.toNat ≤ (small 0 16).bufBytes ∧ (blockNext [7] [0]).a1 ≠ 0
      ∧ (blockNext [7] [0]).bsrPos = (blockNext [7] [0]).bsrLen ∧ (blockNext [7] [0]).bsrTerm = false
      ∧ 1 ≤ [7].length ∧ (List.replicate 255 (7 : Byte)).length ≤ 255
      ∧ (blockNext (List.replicate 255 7) []).inBytes = 0xFF :: List.replicate 255 7 := by decide +kernel

theorem test_witness_BsrReadAtEndOfData :
    (small 0 16).a0.toNat + (small 0 16).a1.toNat ≤ (small 0 16).bufBytes ∧ (small 0 16).a1 ≠ 0
      ∧ (small 0 16).bsrPos = (small 0 16).bsrLen ∧ (small 0 16).bsrTerm = true
      ∧ (blockNext [] [9]).bsrTerm = false ∧ (blockNext [] [9]).inBytes = 0 :: [9] := by decide

/-- `s` with the BSR open on an IN that ends with an error. -/
def failing (s : State) : State :=
  { s with bsrTerm := false, inEnd := .err 0x55 }

theorem test_witness_CutSubBlockFaults :
    (cutBlock 1 0 [] ∧ cutBlock 1 0 [1] ∧ cutBlock 255 254 (0xFF :: List.replicate 254 7))
      ∧ ((small 0 16).a0.toNat + (small 0 16).a1.toNat ≤ (small 0 16).bufBytes ∧ (small 0 16).a1 ≠ 0
        ∧ (failing (small 0 16)).bsrPos = (failing (small 0 16)).bsrLen ∧ (failing (small 0 16)).bsrTerm = false
        ∧ (failing (small 0 16)).inBytes = [] ∧ (failing (feed (small 0 16) [1])).inBytes = [1])
      ∧ ((strict ((fresh 1 2).setPend [])).Inv ∧ ({ (fresh 1 2).setPend [7] with a1 := 2 } : State).Inv
        ∧ (fresh 1 2).lzwState = .active ∧ (fresh 1 2).lzwNbits < (fresh 1 2).lzwWidth
        ∧ (fresh 1 2).bsrTerm = false ∧ (fresh 1 2).bsrPos = (fresh 1 2).bsrLen ∧ (fresh 1 2).inBytes = []
        ∧ ({ fresh 1 2 with a1 := 2 } : State).a0.toNat + ({ fresh 1 2 with a1 := 2 } : State).a1.toNat ≤ (fresh 1 2).bufBytes
        ∧ ((fresh 1 2).setPend [7]).lzwPend.length < ({ fresh 1 2 with a1 := 2 } : State).a1.toNat
        ∧ (strict (fresh 1 2)).lzwPend = [] ∧ (strict (fresh 1 2)).ctrl.getLsbD 0 = true)
      ∧ (blocksFit [] ∧ blocksFit [[7], List.replicate 255 8]
        ∧ (failing (small 0 0)).inBytes = wholeBlocks [] ++ []
        ∧ (blockNext [7] (0xFF :: List.replicate 255 8 ++ [2, 9])).inBytes
          = wholeBlocks [[7], List.replicate 255 8] ++ [2, 9] ∧ cutBlock 2 1 [2, 9]
        ∧ (fresh 1 2).lzwState ≠ .idle ∧ (fresh 1 2).ctrl.getLsbD 0 = false) :=
  ⟨⟨.inl ⟨rfl, rfl, rfl⟩, .inr ⟨[], rfl, by decide⟩, .inr ⟨List.replicate 254 7, by decide +kernel⟩⟩, by decide,
    ⟨inv_of_test (by decide +kernel), inv_of_test (by decide +kernel), by decide⟩,
    by unfold blocksFit; decide, by unfold blocksFit; decide +kernel, rfl, by decide +kernel, .inr ⟨[9], rfl, by decide⟩,
    by decide⟩

theorem test_witness_BsrDrainCompletes :
    State.reset.bsrTerm = true ∧ (blockNext [] []).bsrTerm = false
      ∧ blocksFit [] ∧ (blockNext [] []).inBytes = subBlocks [] ++ []
      ∧ blocksFit [[7], List.replicate 255 8]
      ∧ (blockNext [7] (0xFF :: List.replicate 255 8 ++ [0, 9])).inBytes
        = subBlocks [[7], List.replicate 255 8] ++ [9] := by
  unfold blocksFit
  decide +kernel

theorem test_witness_LzwInitCompletes : (2 ≤ 2 ∧ 2 ≤ 8) ∧ (2 ≤ 8 ∧ 8 ≤ 8) := by decide

theorem test_witness_LzwInitFaultsOnBadMin :
    (1 < 256 ∧ (1 < 2 ∨ 8 < 1)) ∧ (9 < 256 ∧ (9 < 2 ∨ 8 < 9)) ∧ (255 < 256 ∧ (255 < 2 ∨ 8 < 255)) := by decide

theorem test_witness_LzwSequenceFaults : State.reset.lzwState = .idle := by decide

theorem test_witness_StringFollowsTable :
    (entry 0 0 1).OpenInv ∧ 3 < (entry 0 0 1).clearCode ∧ (entry 0 0 1).Defined 6 :=
  ⟨open_of_test (by decide +kernel), by decide, by decide, by decide⟩

theorem test_witness_LzwDecodeServesPending :
    (entry 0 0 2).lzwState ≠ .idle ∧ (entry 0 0 2).a0.toNat + (entry 0 0 2).a1.toNat ≤ (entry 0 0 2).bufBytes
      ∧ (entry 0 0 2).a1.toNat ≤ ((entry 0 0 2).setPend [7, 8]).lzwPend.length
      ∧ (entry 0 0 0).a1.toNat ≤ (entry 0 0 0).lzwPend.length := by decide

theorem test_witness_LzwDecodeRunsOneCode :
    ((entry 3 3 1).Inv ∧ (entry 3 3 1).lzwState = .active ∧ (entry 3 3 1).lzwPend = []
        ∧ (entry 3 3 1).a0.toNat + (entry 3 3 1).a1.toNat ≤ (entry 3 3 1).bufBytes ∧ 1 ≤ (entry 3 3 1).a1.toNat
        ∧ (entry 3 3 1).lzwWidth ≤ (entry 3 3 1).lzwNbits
        ∧ 3 = (entry 3 3 1).lzwBitbuf.toNat % 2 ^ (entry 3 3 1).lzwWidth
        ∧ 3 < (entry 3 3 1).clearCode ∧ (entry 3 3 1).a1 = 1)
      ∧ ((entry 6 3 2).Inv ∧ 6 = (entry 6 3 2).lzwBitbuf.toNat % 2 ^ (entry 6 3 2).lzwWidth
        ∧ (entry 6 3 2).Defined 6 ∧ (entry 6 3 2).a1.toNat ≤ ((entry 6 3 2).stringOf 6).length)
      ∧ (entry 7 3 2).Inv ∧ 7 = (entry 7 3 2).lzwBitbuf.toNat % 2 ^ (entry 7 3 2).lzwWidth
        ∧ 7 = (entry 7 3 2).lzwNext ∧ (entry 7 3 2).lzwPrevValid = true ∧ (entry 7 3 2).lzwNext < 4096
        ∧ (entry 7 3 2).a1.toNat ≤ ((entry 7 3 2).stringOf (entry 7 3 2).lzwPrev).length + 1 :=
  ⟨⟨inv_of_test (by decide +kernel), by decide⟩,
    ⟨inv_of_test (by decide +kernel), by decide, ⟨by decide, by decide⟩, by decide⟩,
    inv_of_test (by decide +kernel), by decide⟩

theorem test_witness_LzwDecodeSkipsClearCode :
    (entry 0b011100 6 1).Inv ∧ (entry 0b011100 6 1).lzwState = .active ∧ (entry 0b011100 6 1).lzwPend = []
      ∧ (entry 0b011100 6 1).a0.toNat + (entry 0b011100 6 1).a1.toNat ≤ (entry 0b011100 6 1).bufBytes
      ∧ 1 ≤ (entry 0b011100 6 1).a1.toNat ∧ (entry 0b011100 6 1).lzwWidth ≤ (entry 0b011100 6 1).lzwNbits
      ∧ (entry 0b011100 6 1).lzwBitbuf.toNat % 2 ^ (entry 0b011100 6 1).lzwWidth = 2 ^ (entry 0b011100 6 1).lzwMin :=
  ⟨inv_of_test (by decide +kernel), by decide⟩

theorem test_witness_LzwDecodeFetchesBits :
    ((decoded true []).Inv ∧ (decoded true []).lzwState = .active ∧ (decoded true []).lzwPend = []
        ∧ (decoded true []).a0.toNat + (decoded true []).a1.toNat ≤ (decoded true []).bufBytes
        ∧ 1 ≤ (decoded true []).a1.toNat ∧ (decoded true []).lzwNbits < (decoded true []).lzwWidth
        ∧ (decoded true []).bsrPos < (decoded true []).bsrLen)
      ∧ (feed (fresh 1 2) [1, 9]).Inv ∧ (feed (fresh 1 2) [1, 9]).lzwNbits < (feed (fresh 1 2) [1, 9]).lzwWidth
        ∧ (feed (fresh 1 2) [1, 9]).bsrPos = (feed (fresh 1 2) [1, 9]).bsrLen
        ∧ (feed (fresh 1 2) [1, 9]).bsrTerm = false
        ∧ (feed (fresh 1 2) [1, 9]).inBytes = BitVec.ofNat 8 [(9 : Byte)].length :: [9] ++ [] :=
  ⟨⟨inv_of_test (by decide +kernel), by decide⟩, inv_of_test (by decide +kernel), by decide⟩

theorem test_witness_LzwDecodeDataFaults :
    ((fresh 7 3).Inv ∧ (fresh 7 3).lzwState = .active ∧ (fresh 7 3).lzwPend.length < (fresh 7 3).a1.toNat
        ∧ (fresh 7 3).a0.toNat + (fresh 7 3).a1.toNat ≤ (fresh 7 3).bufBytes
        ∧ (fresh 7 3).lzwWidth ≤ (fresh 7 3).lzwNbits
        ∧ 7 = (fresh 7 3).lzwBitbuf.toNat % 2 ^ (fresh 7 3).lzwWidth ∧ (fresh 7 3).lzwNext < 7)
      ∧ ((fresh 6 3).Inv ∧ 6 = (fresh 6 3).lzwBitbuf.toNat % 2 ^ (fresh 6 3).lzwWidth
        ∧ 6 = (fresh 6 3).lzwNext ∧ (fresh 6 3).lzwPrevValid = false)
      ∧ (((entry 5 3 2).setPend [7]).Inv ∧ ((entry 5 3 2).setPend [7]).lzwPend.length < (entry 5 3 2).a1.toNat
        ∧ (entry 5 3 2).a0.toNat + (entry 5 3 2).a1.toNat ≤ (entry 5 3 2).bufBytes
        ∧ 5 = (entry 5 3 2).lzwBitbuf.toNat % 2 ^ (entry 5 3 2).lzwWidth ∧ 5 = 2 ^ (entry 5 3 2).lzwMin + 1)
      ∧ (((fresh 1 2).closeBsr).Inv ∧ (fresh 1 2).lzwNbits < (fresh 1 2).lzwWidth
        ∧ (fresh 1 2).bsrPos = (fresh 1 2).bsrLen ∧ (fresh 1 2).closeBsr.bsrTerm = true)
      ∧ (feed (fresh 1 2) [0, 9]).Inv ∧ (fresh 1 2).bsrTerm = false ∧ (feed (fresh 1 2) [0, 9]).inBytes = 0 :: [9] :=
  ⟨⟨inv_of_test (by decide +kernel), by decide⟩, ⟨inv_of_test (by decide +kernel), by decide⟩,
    ⟨inv_of_test (by decide +kernel), by decide⟩, ⟨inv_of_test (by decide +kernel), by decide⟩,
    inv_of_test (by decide +kernel), by decide⟩

/-- The split `0 + 4` and the split `2 + 2` of V-LZW-1's decode. -/
theorem test_witness_LzwDecodeSplits :
    (opened 2 [3, 0x44, 0x02, 0x05, 0] 0 0).Inv ∧ (opened 2 [3, 0x44, 0x02, 0x05, 0] 0 0).fault = 0
      ∧ 0x100 + 0 + 4 < 2 ^ 32 ∧ 0x100 + 2 + 2 < 2 ^ 32
      ∧ (∃ t, exec .lzwDecode { opened 2 [3, 0x44, 0x02, 0x05, 0] 0 0 with
          a0 := BitVec.ofNat 32 0x100, a1 := BitVec.ofNat 32 (0 + 4) } = .next t ∧ t.fault = 0)
      ∧ ∃ t, exec .lzwDecode { opened 2 [3, 0x44, 0x02, 0x05, 0] 0 0 with
          a0 := BitVec.ofNat 32 0x100, a1 := BitVec.ofNat 32 (2 + 2) } = .next t ∧ t.fault = 0 :=
  ⟨inv_of_test (by decide +kernel), by decide, by decide, by decide,
    next_of_got (f := State.fault) (by decide +kernel), next_of_got (f := State.fault) (by decide +kernel)⟩

theorem test_witness_LzwFinishTolerantCompletes :
    (decoded false [0, 9]).lzwState ≠ .idle ∧ (decoded false [0, 9]).ctrl.getLsbD 0 = false
      ∧ (decoded false [0, 9]).closeBsr.bsrTerm = true ∧ (decoded false [0, 9]).bsrTerm = false
      ∧ blocksFit [] ∧ (decoded false [0, 9]).inBytes = subBlocks [] ++ [9]
      ∧ blocksFit [[0x99]] ∧ (decoded false [1, 0x99, 0]).inBytes = subBlocks [[0x99]] ++ [] := by
  unfold blocksFit
  decide

theorem test_witness_LzwFinishStrictCompletes :
    ((strict (feed (fresh 5 3) [0, 9])).Inv ∧ (strict (fresh 5 3)).lzwState = .active
        ∧ (strict (fresh 5 3)).ctrl.getLsbD 0 = true ∧ (strict (fresh 5 3)).lzwPend = []
        ∧ (strict (fresh 5 3)).lzwWidth ≤ (strict (fresh 5 3)).lzwNbits
        ∧ (strict (fresh 5 3)).lzwBitbuf.toNat % 2 ^ (strict (fresh 5 3)).lzwWidth = 2 ^ (strict (fresh 5 3)).lzwMin + 1
        ∧ (fresh 5 3).bsrTerm = false ∧ (feed (fresh 5 3) [0, 9]).inBytes = 0 :: [9])
      ∧ ((strict (fresh 1 2)).closeBsr.Inv ∧ (fresh 1 2).lzwNbits < (fresh 1 2).lzwWidth
        ∧ (fresh 1 2).bsrPos = (fresh 1 2).bsrLen ∧ (strict (fresh 1 2)).closeBsr.bsrTerm = true)
      ∧ ((strict (entry 0b101100 6 1)).Inv ∧ (entry 0b101100 6 1).lzwWidth ≤ (entry 0b101100 6 1).lzwNbits
        ∧ (entry 0b101100 6 1).lzwBitbuf.toNat % 2 ^ (entry 0b101100 6 1).lzwWidth = 2 ^ (entry 0b101100 6 1).lzwMin)
      ∧ ((decoded true []).Inv ∧ (decoded true []).lzwNbits < (decoded true []).lzwWidth
        ∧ (decoded true []).bsrPos < (decoded true []).bsrLen)
      ∧ ((strict (feed (fresh 1 2) [1, 9])).Inv ∧ (fresh 1 2).bsrTerm = false
        ∧ (feed (fresh 1 2) [1, 9]).inBytes = BitVec.ofNat 8 [(9 : Byte)].length :: [9] ++ [])
      ∧ (strict (feed (fresh 1 2) [0, 9])).Inv ∧ (feed (fresh 1 2) [0, 9]).inBytes = 0 :: [9] :=
  ⟨⟨inv_of_test (by decide +kernel), by decide⟩, ⟨inv_of_test (by decide +kernel), by decide⟩,
    ⟨inv_of_test (by decide +kernel), by decide⟩, ⟨inv_of_test (by decide +kernel), by decide⟩,
    ⟨inv_of_test (by decide +kernel), by decide⟩, inv_of_test (by decide +kernel), by decide⟩

theorem test_witness_LzwFinishStrictFaults :
    ((strict ((entry 0 0 1).setPend [7])).Inv ∧ (strict (entry 0 0 1)).lzwState = .active
        ∧ (strict (entry 0 0 1)).ctrl.getLsbD 0 = true ∧ ((entry 0 0 1).setPend [7]).lzwPend ≠ [])
      ∧ ((strict (entry 6 3 1)).Inv ∧ (strict (entry 6 3 1)).lzwPend = [] ∧ (entry 6 3 1).lzwWidth ≤ (entry 6 3 1).lzwNbits
        ∧ 6 = (entry 6 3 1).lzwBitbuf.toNat % 2 ^ (entry 6 3 1).lzwWidth ∧ (strict (entry 6 3 1)).DataCode 6)
      ∧ ((strict (entry 7 3 1)).Inv ∧ 7 = (entry 7 3 1).lzwBitbuf.toNat % 2 ^ (entry 7 3 1).lzwWidth
        ∧ 7 = (entry 7 3 1).lzwNext ∧ (entry 7 3 1).lzwPrevValid = true ∧ (entry 7 3 1).lzwNext < 4096)
      ∧ ((strict (fresh 7 3)).Inv ∧ 7 = (fresh 7 3).lzwBitbuf.toNat % 2 ^ (fresh 7 3).lzwWidth ∧ (fresh 7 3).lzwNext < 7)
      ∧ ((strict (fresh 6 3)).Inv ∧ 6 = (fresh 6 3).lzwBitbuf.toNat % 2 ^ (fresh 6 3).lzwWidth
        ∧ 6 = (fresh 6 3).lzwNext ∧ (fresh 6 3).lzwPrevValid = false)
      ∧ ((strict (feed (fresh 5 3) [1, 0x99])).Inv
        ∧ (fresh 5 3).lzwBitbuf.toNat % 2 ^ (fresh 5 3).lzwWidth = 2 ^ (fresh 5 3).lzwMin + 1
        ∧ (fresh 5 3).bsrTerm = false ∧ (feed (fresh 5 3) [1, 0x99]).inBytes = 1 :: [0x99] ∧ (1 : Byte) ≠ 0)
      ∧ ((strict (fresh 5 3)).Inv ∧ (fresh 5 3).inBytes = [] ∧ (fresh 5 3).inEnd = .eof)
      ∧ (strict (failing (fresh 5 3))).Inv ∧ (failing (fresh 5 3)).inEnd = .err 0x55 :=
  ⟨⟨inv_of_test (by decide +kernel), by decide⟩,
    ⟨inv_of_test (by decide +kernel), by decide, by decide, by decide, dataCode_of_test (by decide)⟩,
    ⟨inv_of_test (by decide +kernel), by decide⟩, ⟨inv_of_test (by decide +kernel), by decide⟩,
    ⟨inv_of_test (by decide +kernel), by decide⟩, ⟨inv_of_test (by decide +kernel), by decide⟩,
    ⟨inv_of_test (by decide +kernel), by decide⟩, inv_of_test (by decide +kernel), by decide⟩

theorem test_witness_CrcUpdateCompletes :
    (small 0 2).a0.toNat + (small 0 2).a1.toNat ≤ (small 0 2).bufBytes
      ∧ Memory.readList (loaded (small 0 2) [5, 6]).buf 0 2 = some [5, 6] := by decide

theorem test_witness_CrcUpdateChains :
    0 + 5 + 4 ≤ (small 0 0).bufBytes ∧ 0 + 5 + 4 < 2 ^ 32
      ∧ Memory.readList (loaded (small 0 0) [1, 2, 3, 4, 5, 6, 7, 8, 9]).buf 0 (5 + 4)
        = some [1, 2, 3, 4, 5, 6, 7, 8, 9] := by decide

theorem test_witness_ChunkWriteCompletes :
    (small 0 2).a0.toNat + (small 0 2).a1.toNat ≤ (small 0 2).bufBytes
      ∧ Memory.readList (loaded (small 0 2) [5, 6]).buf 0 2 = some [5, 6]
      ∧ (loaded (small 0 2) [5, 6]).outAccepts ((small 0 2).a1.toNat + 12) :=
  ⟨by decide, by decide, fun _ _ => rfl⟩

theorem test_witness_ChunkCrcIsRight :
    (loaded (small 0 2) [5, 6]).fault = 0
      ∧ ∃ t, exec .chunkWrite (loaded (small 0 2) [5, 6]) = .next t ∧ t.fault = 0 :=
  ⟨by decide, next_of_got (f := State.fault) (by decide +kernel)⟩

theorem test_witness_OutWriteCompletes :
    (small 0 2).a0.toNat + (small 0 2).a1.toNat ≤ (small 0 2).bufBytes
      ∧ Memory.readList (loaded (small 0 2) [5, 6]).buf 0 2 = some [5, 6]
      ∧ (loaded (small 0 2) [5, 6]).outAccepts (small 0 2).a1.toNat :=
  ⟨by decide, by decide, fun _ _ => rfl⟩

/-- `s` with an OUT that refuses the byte at position `k`. -/
def refusing (s : State) (k : Nat) : State :=
  { s with outRefusals := [(k, 0x77)] }

/-- The first byte refused, and the last. -/
theorem test_witness_OutWriteFaultsAtRefusal :
    (small 0 2).a0.toNat + (small 0 2).a1.toNat ≤ (small 0 2).bufBytes ∧ 0 < (small 0 2).a1.toNat
      ∧ 1 < (small 0 2).a1.toNat ∧ Memory.readList (loaded (small 0 2) [5, 6]).buf 0 2 = some [5, 6]
      ∧ (refusing (small 0 2) 1).outAccepts 1 ∧ Store.find (refusing (small 0 2) 1).outRefusals 1 = some 0x77
      ∧ (refusing (small 0 2) 0).outAccepts 0 ∧ Store.find (refusing (small 0 2) 0).outRefusals 0 = some 0x77 := by
  unfold State.outAccepts
  decide

theorem test_witness_ChunkWriteFaultsAtRefusal :
    (small 0 0).a0.toNat + (small 0 0).a1.toNat ≤ (small 0 0).bufBytes ∧ 3 < 4
      ∧ (refusing (small 0 0) 7).outAccepts (4 + 3) ∧ Store.find (refusing (small 0 0) 7).outRefusals (0 + 4 + 3) = some 0x77
      ∧ (refusing (small 0 0) 4).outAccepts (4 + 0)
      ∧ Store.find (refusing (small 0 0) 4).outRefusals (0 + 4 + 0) = some 0x77 := by
  unfold State.outAccepts
  decide

/-- An output that just fits. -/
theorem test_witness_ZlibCompressCompletes :
    (small 0 1).a0.toNat + (small 0 1).a1.toNat ≤ (small 0 1).bufBytes
      ∧ Memory.readList (loaded (small 0 1) [5]).buf 0 1 = some [5]
      ∧ ({ small 0 1 with a2 := 4 } : State).a2.toNat
          + ([0x78, 0xDA] ++ deflate (small 0 1).deflateChoice [5] ++ be32 (adler32 [5])).length
        ≤ (small 0 1).bufBytes := by decide +kernel

/-- An output that is one byte too long. -/
theorem test_witness_ZlibCompressOutputRange :
    (small 0 1).a0.toNat + (small 0 1).a1.toNat ≤ (small 0 1).bufBytes
      ∧ Memory.readList (loaded (small 0 1) [5]).buf 0 1 = some [5]
      ∧ ({ small 0 1 with a2 := 5 } : State).a2.toNat
          + ([0x78, 0xDA] ++ deflate (small 0 1).deflateChoice [5] ++ be32 (adler32 [5])).length
        > (small 0 1).bufBytes := by decide +kernel

theorem test_witness_CompressedDataIsAccepted :
    (loaded (small 0 1) [5]).fault = 0 ∧ Memory.readList (loaded (small 0 1) [5]).buf 0 1 = some [5]
      ∧ ∃ t, exec .zlibCompress (loaded (small 0 1) [5]) = .next t ∧ t.fault = 0 :=
  ⟨by decide, by decide, next_of_got (f := State.fault) (by decide +kernel)⟩

/-- A success and a fault of each command. -/
theorem test_witness_InputCommandsFrame :
    (∃ t, exec .inRead (feed (small 0 1) [7]) = .next t ∧ t.fault = 0)
      ∧ (∃ t, exec .inRead (small 0 1) = .next t ∧ t.fault = 0x10)
      ∧ (∃ t, exec (.bsrRead false) (blockNext [7] []) = .next t ∧ t.fault = 0)
      ∧ ∃ t, exec (.bsrRead false) (blockNext [] []) = .next t ∧ t.fault = 0x11 :=
  ⟨next_of_got (f := State.fault) (by decide +kernel), next_of_got (f := State.fault) (by decide +kernel),
    next_of_got (f := State.fault) (by decide +kernel), next_of_got (f := State.fault) (by decide +kernel)⟩

theorem test_witness_LzwDecodeFrame :
    (∃ t, exec .lzwDecode (entry 6 3 2) = .next t ∧ t.fault = 0)
      ∧ ∃ t, exec .lzwDecode (fresh 7 3) = .next t ∧ t.fault = 0x12 :=
  ⟨next_of_got (f := State.fault) (by decide +kernel), next_of_got (f := State.fault) (by decide +kernel)⟩

theorem test_witness_ClosingCommandsFrame :
    (∃ t, exec .bsrDrain (blockNext [7] [0]) = .next t ∧ t.fault = 0)
      ∧ (∃ t, exec .bsrDrain (blockNext [7] []) = .next t ∧ t.fault = 0x10)
      ∧ (∃ t, exec .lzwFinish (decoded true [0]) = .next t ∧ t.fault = 0)
      ∧ ∃ t, exec .lzwFinish (decoded true [1]) = .next t ∧ t.fault = 0x15 :=
  ⟨next_of_got (f := State.fault) (by decide +kernel), next_of_got (f := State.fault) (by decide +kernel),
    next_of_got (f := State.fault) (by decide +kernel), next_of_got (f := State.fault) (by decide +kernel)⟩

theorem test_witness_OutputCommandsFrame :
    (∃ t, exec .crcUpdate (loaded (small 0 1) [5]) = .next t ∧ t.fault = 0)
      ∧ (∃ t, exec .outWrite (loaded (small 0 1) [5]) = .next t ∧ t.fault = 0)
      ∧ (∃ t, exec .chunkWrite (refusing (loaded (small 0 1) [5]) 8) = .next t ∧ t.fault = 0x31)
      ∧ (∃ t, exec .zlibCompress (loaded (small 0 1) [5]) = .next t ∧ t.fault = 0)
      ∧ Memory.readList (loaded (small 0 1) [5]).buf 0 1 = some [5] :=
  ⟨next_of_got (f := State.fault) (by decide +kernel), next_of_got (f := State.fault) (by decide +kernel),
    next_of_got (f := State.fault) (by decide +kernel), next_of_got (f := State.fault) (by decide +kernel), by decide⟩

theorem test_witness_PortsOnlyMoveForward :
    ∃ t, step (queued (feed (small 0 1) [7]) (.regWrite 0x00 32 0x10)) = .next t ∧ t.inBytes = [] :=
  next_of_got (f := State.inBytes) (by decide +kernel)

theorem test_witness_StepKeepsInvariants :
    (queued (decoded true [0]) (.regWrite 0x00 32 0x22)).Inv
      ∧ ∃ t, step (queued (decoded true [0]) (.regWrite 0x00 32 0x22)) = .next t ∧ t.lzwState = .idle :=
  ⟨inv_of_test (by decide +kernel), next_of_got (f := State.lzwState) (by decide +kernel)⟩

end Sys2Proof.Tests
end

/-! PROOFS. The state family (10_state.md): the invariants along every step, and the registers that show the units' state. -/

namespace Sys2Proof.Machine

/-! ### The invariants along a command -/

theorem State.Faulted.fault_ne_zero {t : State} (h : t.Faulted) : t.fault ≠ 0 := by
  obtain ⟨c, hc⟩ := h
  rw [hc]
  exact c.code_ne_zero

/-- What a command keeps is enough for the invariants of the whole machine. -/
theorem Kept.keeps_inv {s t : State} (hk : Kept s t) (h : s.Inv) : t.Inv where
  units := hk.inv
  ctrlBits := hk.ctrl ▸ h.ctrlBits
  faultCode := by
    rcases hk.faults with ⟨hf, -, -⟩ | hf
    · rw [hf]
      exact h.faultCode
    · exact .inr hf
  infoClear := fun h0 => by
    rcases hk.faults with ⟨hf, hi₀, hi₁⟩ | hf
    · rw [hi₀, hi₁]
      exact h.infoClear (hf ▸ h0)
    · exact absurd h0 hf.fault_ne_zero
  doneFaulted := fun hd => by
    rcases hk.faults with ⟨hf, -, -⟩ | hf
    · rcases hk.done hd with hs | hf'
      · rw [hf]
        exact h.doneFaulted hs
      · exact hf'.fault_ne_zero
    · exact hf.fault_ne_zero

theorem crcInit_kept {s : State} (h : s.UnitInv) : Kept s ((s.setCrc 0xFFFFFFFF).setRes 0) :=
  ⟨(h.setCrc _).setRes 0, rfl, .inl ⟨rfl, rfl, rfl⟩, .inl⟩

/-- Every command but SRESET, from a state whose units keep their invariants, ends as `Kept` says. -/
theorem exec_kept {i : Instr} {s t : State} (h : s.UnitInv) (hi : i ≠ .sreset) (e : exec i s = .next t) : Kept s t := by
  cases i with
  | sreset => exact absurd rfl hi
  | nop => cases e; exact .refl h
  | inRead => exact (inRead_runs h).of_next e
  | bsrOpen => cases e; exact bsrOpen_kept h
  | bsrRead eodok => exact (bsrRead_runs eodok h).of_next e
  | bsrDrain => exact (bsrDrain_runs h).of_next e
  | lzwInit m => exact (lzwInit_runs m h).of_next e
  | lzwDecode => exact (lzwDecode_runs h).of_next e
  | lzwFinish => exact (lzwFinish_runs h).of_next e
  | crcInit => cases e; exact crcInit_kept h
  | crcUpdate => exact (crcUpdate_runs h).of_next e
  | zlibCompress => exact (zlibCompress_runs h).of_next e
  | chunkWrite => exact (chunkWrite_runs h).of_next e
  | outWrite => exact (outWrite_runs h).of_next e

/-! ### The invariants along a reset and the host's own writes -/

theorem State.reset_unitInv : State.reset.UnitInv where
  bufSize := by decide
  bufForm := .nil
  bufInside := fun _ hc => nomatch hc
  bsrRange := by decide
  bsrForm := ⟨.nil, fun _ hc => nomatch hc⟩
  bsrFilled := fun i hi => absurd hi (Nat.not_lt_zero i)
  prefixForm := ⟨.nil, fun _ hc => nomatch hc⟩
  suffixForm := ⟨.nil, fun _ hc => nomatch hc⟩
  lzwSizes := by decide
  accumulator := by decide
  pendSize := by decide
  opened := fun hn => absurd rfl hn

/-- A reset takes the units to their reset values and leaves BUF, so both keep their invariants (rule R450). -/
theorem State.UnitInv.resetBlock {s : State} (h : s.UnitInv) : s.resetBlock.UnitInv :=
  .of_parts h State.reset_unitInv State.reset_unitInv ⟨rfl, rfl⟩ ⟨rfl, rfl, rfl⟩
    ⟨rfl, rfl, rfl, rfl, rfl, rfl, rfl, rfl, rfl, rfl, rfl⟩

theorem State.Inv.resetBlock {s : State} (h : s.Inv) : s.resetBlock.Inv where
  units := h.units.resetBlock
  ctrlBits := Nat.zero_le 1
  faultCode := .inl rfl
  infoClear := fun _ => ⟨rfl, rfl⟩
  doneFaulted := fun hd => nomatch hd

/-- `t` is `s` but for the registers a host access may write and the host's own queue and replies. -/
def State.HostFrame (s t : State) : Prop :=
  t = { s with
    cmd := t.cmd, a0 := t.a0, a1 := t.a1, a2 := t.a2, ctrl := t.ctrl, crc := t.crc
    hostOps := t.hostOps, hostReplies := t.hostReplies }

/-- Of the registers a host access may write, the invariants see CTRL alone. -/
theorem State.HostFrame.keeps_inv {s t : State} (ht : s.HostFrame t) (h : s.Inv) (hc : t.ctrl.toNat ≤ 1) : t.Inv where
  units := h.units.of_same (by constructor <;> rw [ht]) (by constructor <;> rw [ht]) (by constructor <;> rw [ht])
  ctrlBits := hc
  faultCode := by
    rw [ht]
    exact h.faultCode
  infoClear := by
    rw [ht]
    exact h.infoClear
  doneFaulted := by
    rw [ht]
    exact h.doneFaulted

theorem State.setReg_hostFrame (s : State) (r : Reg) (v : Word) : s.HostFrame (s.setReg r v) := by
  cases r <;> rfl

/-- A write of CTRL keeps bit 0 alone, and no other register's write reaches CTRL (rule R40). -/
theorem State.setReg_ctrl_le {s : State} (r : Reg) (v : Word) (h : s.ctrl.toNat ≤ 1) : (s.setReg r v).ctrl.toNat ≤ 1 := by
  cases r
  case ctrl => exact Nat.and_le_right
  all_goals exact h

/-! ### The invariants along a step -/

theorem exec_keeps_inv {i : Instr} {s t : State} (h : s.Inv) (e : exec i s = .next t) : t.Inv := by
  by_cases hi : i = .sreset
  · subst hi
    cases e
    exact State.HostFrame.keeps_inv (s := s.resetBlock) rfl h.resetBlock h.resetBlock.ctrlBits
  · exact (exec_kept h.units hi e).keeps_inv h

/-- The three ways a CMD write can go: ignored by the lock, illegal, or a command (rule R143). -/
theorem execute_keeps_inv {w : Word} {s t : State} (h : s.Inv) (e : execute w s = .next t) : t.Inv := by
  by_cases hl : s.fault = 0 ∨ w = sresetWord
  · cases hd : decode w with
    | illegal why =>
      rw [execute_illegal hd hl] at e
      cases e
      exact (Kept.recordFault h.units _ _ _).keeps_inv h
    | command i =>
      rw [execute_command hd hl] at e
      exact exec_keeps_inv h e
  · obtain ⟨hf, hw⟩ := not_or.mp hl
    rw [execute_locked hf hw] at e
    cases e
    exact h

theorem hostStep_keeps_inv {op : HostOp} {s t : State} (h : s.Inv) (e : hostStep op s = .next t) : t.Inv := by
  rcases hostStep_next e with ⟨-, rfl⟩ | ⟨w, -, e⟩ | ⟨r, v, rfl⟩ | ⟨r, rfl⟩ | ⟨a, b, ha, rfl⟩
  · exact h.resetBlock
  · have hcmd : s.HostFrame { s with cmd := w } := rfl
    exact execute_keeps_inv (hcmd.keeps_inv h h.ctrlBits) e
  · exact (s.setReg_hostFrame r v).keeps_inv h (State.setReg_ctrl_le r v h.ctrlBits)
  · exact State.HostFrame.keeps_inv (s := s) rfl h h.ctrlBits
  · have hbuf : Kept s (s.writeBuf a b) := ⟨h.units.writeBuf b ha, rfl, .inl ⟨rfl, rfl, rfl⟩, .inl⟩
    exact hbuf.keeps_inv h

/-- Settles O59: a step is one host operation, and each of them keeps the invariants. -/
theorem stepKeepsInvariants : Obligations.StepKeepsInvariants := by
  intro s t h e
  unfold step runHost at e
  split at e
  · cases e
    exact h
  · rename_i op ops _
    have hops : s.HostFrame { s with hostOps := ops } := rfl
    exact hostStep_keeps_inv (hops.keeps_inv h h.ctrlBits) e

/-! ### STATUS -/

theorem State.statusFault_eq (s : State) : s.statusFault = decide (field s.fault 7 0 ≠ 0) := by
  rw [Bool.eq_iff_iff]
  simp [State.statusFault, field]

/-- A word of four flags holds each in its own bit and nothing above them. -/
theorem flagWord_bits : ∀ a b c d : Bool,
    let w : Word := BitVec.ofNat 32
      (packField a.toNat 1 0 + packField b.toNat 1 1 + packField c.toNat 1 2 + packField d.toNat 1 3)
    w.getLsbD 0 = a ∧ w.getLsbD 1 = b ∧ w.getLsbD 2 = c ∧ w.getLsbD 3 = d ∧ w.toNat < 2 ^ 4 := by
  decide

/-- A word below `2 ^ n` has no bit at or above `n`. -/
theorem getLsbD_eq_false_of_lt {w : Word} {n k : Nat} (h : w.toNat < 2 ^ n) (hk : n ≤ k) : w.getLsbD k = false :=
  Nat.testBit_lt_two_pow (h.trans_le (Nat.pow_le_pow_right (by decide) hk))

/-- Settles O14: STATUS is a word of four flags, each a view of other state, and STATUS is a register no write reaches. -/
theorem statusBitsAreViews : Obligations.StatusBitsAreViews := by
  refine ⟨by decide, fun s => ?_⟩
  obtain ⟨hfault, heod, hactive, hdone, hlow⟩ := flagWord_bits s.statusFault s.statusEod s.statusActive s.statusDone
  rw [State.readOffset_status]
  exact ⟨hfault.trans s.statusFault_eq, heod, hactive, hdone, fun k hk => getLsbD_eq_false_of_lt hlow hk, fun v => rfl⟩

/-! ### The unit views -/

theorem LzwState.code_le (st : LzwState) : st.code ≤ 2 := by
  cases st <;> decide

section
variable {s : State}

theorem State.UnitInv.lzwStatView_toNat (h : s.UnitInv) :
    s.lzwStatView.toNat = s.lzwMin + s.lzwWidth * 2 ^ 4 + s.lzwNext * 2 ^ 8 + s.lzwState.code * 2 ^ 21
      + s.lzwPrevValid.toNat * 2 ^ 23 := by
  obtain ⟨hmin, hwidth, hnext, -⟩ := h.lzwSizes
  have hcode := s.lzwState.code_le
  have hvalid := s.lzwPrevValid.toNat_le
  simp only [State.lzwStatView, packField_eq, BitVec.toNat_ofNat]
  omega

theorem State.UnitInv.lzwAuxView_toNat (h : s.UnitInv) :
    s.lzwAuxView.toNat = s.lzwPrev + s.lzwNbits * 2 ^ 12 := by
  obtain ⟨-, -, -, hprev⟩ := h.lzwSizes
  obtain ⟨hbits, -⟩ := h.accumulator
  simp only [State.lzwAuxView, packField_eq, BitVec.toNat_ofNat]
  omega

theorem State.UnitInv.lzwPendView_toNat (h : s.UnitInv) : s.lzwPendView.toNat = s.lzwPend.length := by
  have hpend := h.pendSize
  simp only [State.lzwPendView, packField_eq, BitVec.toNat_ofNat]
  omega

theorem State.UnitInv.bsrStatView_toNat (h : s.UnitInv) :
    s.bsrStatView.toNat = s.bsrLen + s.bsrPos * 2 ^ 8 + s.bsrTerm.toNat * 2 ^ 16 := by
  obtain ⟨hpos, hlen⟩ := h.bsrRange
  have hterm := s.bsrTerm.toNat_le
  simp only [State.bsrStatView, packField_eq, BitVec.toNat_ofNat]
  omega

end

/-- Settles O15: within the widths the invariants give, the fields of a view do not overlap, so each reads back whole. -/
theorem unitViewsShowUnitState : Obligations.UnitViewsShowUnitState := by
  rintro s ⟨h, -, -, -, -⟩
  obtain ⟨hmin, hwidth, hnext, hprev⟩ := h.lzwSizes
  obtain ⟨hnbits, hbuf⟩ := h.accumulator
  obtain ⟨hpos, hlen⟩ := h.bsrRange
  have hpend := h.pendSize
  have hcode := s.lzwState.code_le
  have hvalid := s.lzwPrevValid.toNat_le
  have hterm := s.bsrTerm.toNat_le
  simp only [State.readOffset_lzwStat, State.readOffset_lzwAux, State.readOffset_lzwBits, State.readOffset_lzwPend,
    State.readOffset_bsrStat, field_eq, h.lzwStatView_toNat, h.lzwAuxView_toNat, h.lzwPendView_toNat, h.bsrStatView_toNat]
  refine ⟨?_, ?_, ⟨trivial, fun k hk => getLsbD_eq_false_of_lt hbuf hk⟩, ?_, ?_⟩
  · omega
  · omega
  · omega
  · omega

/-! ### Reserved offsets and CTRL -/

/-- Settles O12: no register stands at a reserved offset, for a read or for a write. -/
theorem reservedOffsetsReadZero : Obligations.ReservedOffsetsReadZero := by
  intro s off v hlo hhi halign
  have hnone := regAt_reserved hlo
  constructor
  · rw [hostStep, regAccess_ok halign (by omega), State.readOffset, hnone]
    rfl
  · rw [hostStep, regAccess_ok halign (by omega), writeOffset, hnone]

/-- Settles O13: a write of CTRL keeps `v &&& 1`. -/
theorem ctrlKeepsStrictEnd : Obligations.CtrlKeepsStrictEnd := by
  refine ⟨rfl, fun s v => ?_⟩
  rw [← word_and_one]
  rfl

end Sys2Proof.Machine

/-! PROOFS. The memory and port family (20_memory.md): the host's accesses to BUF, the two ways a command's read of BUF can end
it, and the ports along every step. -/

namespace Sys2Proof.Machine

/-! ### The host's accesses to BUF -/

/-- What a host read answers after a write of one byte (rules R81 and R83). -/
theorem State.hostByte_writeBuf (s : State) (a x : Nat) (b : Byte) :
    (s.writeBuf a b).hostByte x = if x = a then b else s.hostByte x := by
  rw [State.hostByte, State.writeBuf_buf, Memory.read_write]
  split <;> rfl

/-- Settles O16: the write stores its byte, and a read of BUF after it sees that byte at its address alone. -/
theorem hostReadsBackWrittenByte : Obligations.HostReadsBackWrittenByte := by
  intro s a x b ha hx
  refine ⟨s.writeBuf a b, bufAccess_ok ha, ?_⟩
  rw [← s.hostByte_writeBuf a x b]
  exact bufAccess_ok hx

/-! ### Range faults -/

/-- A command that starts with the check of the range A0, A1 ends there where the range passes the end of BUF (rule R82). -/
theorem rangeFault_outcome {s : State} (h : s.a0.toNat + s.a1.toNat > s.bufBytes) (k : Unit → State → Flow Unit) :
    ((rangeCheck s.addr s.count s).bind k).outcome
      = .next { s with fault := 0x41, finfo0 := s.a0, finfo1 := s.a1 } := by
  rw [rangeCheck_fail (a := s.addr) (n := s.count) h, raise_bind, raise_outcome, State.addr, State.count,
    BitVec.ofNat_toNat, BitVec.ofNat_toNat, BitVec.setWidth_eq, BitVec.setWidth_eq]
  rfl

/-- Settles O17: each of the commands starts with the range check, LZW_DECODE once its stream is open. -/
theorem rangeFaultsBeforeAnyEffect : Obligations.RangeFaultsBeforeAnyEffect := by
  rintro s i hr (rfl | rfl | rfl | rfl | rfl | ⟨eodok, rfl⟩ | ⟨rfl, hopen⟩)
  iterate 6 exact rangeFault_outcome hr _
  show (lzwDecode s).outcome = _
  rw [lzwDecode, if_neg hopen]
  exact rangeFault_outcome hr _

/-! ### Reads of unwritten bytes -/

section
variable {s : State} {j : Nat} {bs : List Byte}

/-- A range that `RangeCheck` lets through whose byte `j` is the first that nothing has written (rules R82 and R83). -/
structure State.UnwrittenAt (s : State) (j : Nat) (bs : List Byte) : Prop where
  inside : s.addr + s.count ≤ s.bufBytes
  wanted : j < s.count
  written : Memory.readList s.buf s.addr j = some bs
  unwritten : Memory.read s.buf (s.addr + j) = none

theorem crcUpdate_unwritten (h : s.UnwrittenAt j bs) : crcUpdate s = .stop (.readUnwritten (s.addr + j)) := by
  have hbuf : ∀ b (t u : State), Flow.done () (t.setCrc (crcByte t.crc b)) = .done () u → u.buf = t.buf := by
    rintro b t u ⟨⟩
    rfl
  rw [crcUpdate, rangeCheck_pass h.inside, Flow.bind_done, forUp_readByte_none hbuf h.wanted h.written h.unwritten,
    forBytes_crc]
  rfl

theorem zlibCompress_unwritten (h : s.UnwrittenAt j bs) : zlibCompress s = .stop (.readUnwritten (s.addr + j)) := by
  rw [zlibCompress, rangeCheck_pass h.inside, Flow.bind_done, readBytes_stop h.wanted h.written h.unwritten]
  rfl

theorem outWrite_unwritten (h : s.UnwrittenAt j bs) (ho : s.outAccepts j) :
    outWrite s = .stop (.readUnwritten (s.addr + j)) := by
  have ho : s.outAccepts bs.length := by rwa [Memory.readList_length h.written]
  rw [outWrite, rangeCheck_pass h.inside, Flow.bind_done,
    forUp_readByte_none (fun _ _ _ => outByte_keeps_buf) h.wanted h.written h.unwritten, forBytes_outByte ho]
  rfl

/-- CHUNK_WRITE gives OUT the length, the type and the payload before the unwritten byte (rules R96 and R266, log entry 10). -/
theorem chunkWrite_unwritten (h : s.UnwrittenAt j bs) (ho : s.outAccepts (8 + j)) :
    chunkWrite s = .stop (.readUnwritten (s.addr + j)) := by
  have hpayload : s.chunkHead.outAccepts bs.length := by
    rw [Memory.readList_length h.written]
    exact State.chunkHead_accepts ho
  rw [chunkWrite_head h.inside (State.outAccepts_mono ho (Nat.le_add_right 8 j)),
    forUp_readByte_none (s := s.chunkHead) (fun _ _ _ => outCrcByte_keeps_buf) h.wanted h.written h.unwritten,
    forBytes_outCrcByte hpayload]
  rfl

end

/-- Settles O18: each of the four commands handles the bytes before the unwritten one, then stops at it. -/
theorem unwrittenByteEndsRun : Obligations.UnwrittenByteEndsRun := by
  intro s j bs hinside hwanted hwritten hnone
  have h : s.UnwrittenAt j bs := ⟨hinside, hwanted, hwritten, hnone⟩
  simp only [exec, execCrcUpdate, execZlibCompress, execOutWrite, execChunkWrite, Flow.outcome_eq_fault]
  exact ⟨crcUpdate_unwritten h, zlibCompress_unwritten h, outWrite_unwritten h, chunkWrite_unwritten h⟩

/-! ### The ports along a part of a command -/

/-- From `s` to `t` OUT has only gained bytes, IN has only lost bytes from its front, and the parameters are the same (rules R60,
R85 and R88). -/
def State.PortStep (s t : State) : Prop :=
  (∃ more, t.outBytes = s.outBytes ++ more) ∧ (∃ taken, s.inBytes = taken ++ t.inBytes)
    ∧ t.inEnd = s.inEnd ∧ t.outRefusals = s.outRefusals ∧ t.bufBytes = s.bufBytes
    ∧ t.deflateChoice = s.deflateChoice

theorem State.PortStep.refl (s : State) : s.PortStep s :=
  ⟨⟨[], (List.append_nil _).symm⟩, ⟨[], rfl⟩, rfl, rfl, rfl, rfl⟩

theorem State.PortStep.trans {s t u : State} (h : s.PortStep t) (h' : t.PortStep u) : s.PortStep u := by
  obtain ⟨⟨x, hx⟩, hin, he, hr, hb, hd⟩ := h
  obtain ⟨⟨y, hy⟩, hin', he', hr', hb', hd'⟩ := h'
  exact ⟨⟨x ++ y, by rw [hy, hx, List.append_assoc]⟩, taken_trans hin hin', he'.trans he, hr'.trans hr, hb'.trans hb,
    hd'.trans hd⟩

theorem State.DecodeStep.ports {lo hi : Nat} {s t : State} (h : s.DecodeStep lo hi t) : s.PortStep t := by
  obtain ⟨hframe, htaken, -⟩ := h
  refine ⟨⟨[], ?_⟩, htaken, ?_⟩
  · rw [hframe, List.append_nil]
  · rw [hframe]
    exact ⟨rfl, rfl, rfl, rfl⟩

theorem State.CodeStep.ports {s t : State} (h : s.CodeStep t) : s.PortStep t :=
  (h.decode (lo := 0) (hi := 0)).ports

theorem State.StreamStep.ports {s t : State} (h : s.StreamStep t) : s.PortStep t := h.code.ports

theorem State.OutStep.ports {s t : State} (h : s.OutStep t) : s.PortStep t := by
  obtain ⟨hframe, hmore, -⟩ := h
  refine ⟨hmore, ⟨[], ?_⟩, ?_⟩
  · rw [hframe, List.nil_append]
  · rw [hframe]
    exact ⟨rfl, rfl, rfl, rfl⟩

theorem State.HostFrame.ports {s t : State} (h : s.HostFrame t) : s.PortStep t := by
  rw [h]
  exact .refl s

/-- A part of a command that only moves the ports forward, however it ends. -/
abbrev Flow.PortAlong {α : Type} (s : State) (x : Flow α) : Prop :=
  x.Along State.PortStep s

theorem Flow.OutAlong.ports {α : Type} {s : State} {x : Flow α} (h : x.OutAlong s) : x.PortAlong s :=
  Flow.All.mono h (fun _ _ => State.OutStep.ports) (fun _ => State.OutStep.ports) (fun _ _ => trivial)

section
variable {α : Type} {s : State}

/-- A part of a command, then RES set, which is none of the ports. -/
theorem Flow.PortAlong.thenRes {x : Flow α} (h : x.PortAlong s) (v : α → State → Word) :
    (x.bind fun a t => .done () (t.setRes (v a t))).PortAlong s :=
  Flow.All.bind h fun _ _ ht => ht

/-- A range check, then the rest of a command. -/
theorem rangeCheck_ports {a n : Nat} {k : Unit → State → Flow α} (h : (k () s).PortAlong s) :
    ((rangeCheck a n s).bind k).PortAlong s :=
  (rangeCheck_all (.refl s)).bind fun _ _ ht => ht.1 ▸ h

end

/-! ### The ports along a command -/

theorem inRead_ports (s : State) : (inRead s).PortAlong s := by
  refine rangeCheck_ports (Flow.PortAlong.thenRes ?_ _)
  refine forUp_all (P := fun _ t => s.PortStep t) (.refl s) fun j t _ _ ht => ?_
  have htake : (inByte s.count j t).PortAlong s :=
    ((inByte_step s.count j t).mono fun _ => State.StreamStep.ports).after .trans ht
  exact Flow.All.bind htake fun _ _ hu => hu

theorem bsrCopy_ports (eodok : Bool) (dst n : Nat) (s : State) : (bsrCopy eodok dst n s).PortAlong s := by
  unfold bsrCopy
  split
  · split <;> exact .refl s
  · exact .refl s

theorem bsrRead_ports (eodok : Bool) (s : State) : (bsrRead eodok s).PortAlong s := by
  refine rangeCheck_ports ?_
  split
  · exact .refl s
  · refine Flow.All.seq .trans ?_ fun _ t _ => bsrCopy_ports eodok s.addr s.count t
    split
    · exact (bsrFill_step s).mono fun _ => State.StreamStep.ports
    · exact .refl s

theorem drain_ports (s : State) : (drain s).PortAlong s :=
  (drain_step s).mono fun _ => State.StreamStep.ports

theorem lzwInit_ports (m : Nat) (s : State) : (lzwInit m s).PortAlong s := by
  unfold lzwInit
  split <;> exact .refl s

theorem lzwDecode_ports (s : State) : (lzwDecode s).PortAlong s := by
  unfold lzwDecode
  split
  · exact .refl s
  · exact rangeCheck_ports (Flow.PortAlong.thenRes ((decodeLoop_step _ _ _ _ s).mono fun _ => State.DecodeStep.ports) _)

theorem lzwFinish_ports (s : State) : (lzwFinish s).PortAlong s := by
  unfold lzwFinish
  split
  · exact .refl s
  · refine Flow.All.bind (P := fun _ t => s.PortStep t) ?_ fun _ _ ht => ht
    split
    · exact (strictFinish_step s).mono fun _ => State.CodeStep.ports
    · exact drain_ports s

theorem crcUpdate_ports (s : State) : (crcUpdate s).PortAlong s :=
  rangeCheck_ports (Flow.PortAlong.thenRes
    (forUp_step (f := fun b t => .done () (t.setCrc (crcByte t.crc b))) (fun _ t => .setCrc t _) _ _ _ s).ports _)

theorem outWrite_ports (s : State) : (outWrite s).PortAlong s :=
  rangeCheck_ports (Flow.PortAlong.thenRes (forUp_step outByte_step _ _ _ s).ports _)

theorem chunkWrite_ports (s : State) : (chunkWrite s).PortAlong s := by
  refine rangeCheck_ports ?_
  have hbody := (chunkBody_step s.addr s.count s.a1 s.chunkType 0xFFFFFFFF s).ports
  simpa only [Flow.bind_assoc] using Flow.PortAlong.thenRes hbody fun _ _ => BitVec.ofNat 32 (s.count + 12)

theorem readBytes_ports (a n : Nat) (s : State) : (readBytes a n s).PortAlong s :=
  (readBytes_all a n s).mono (fun _ _ ht => ht.1 ▸ .refl s) (fun _ => id) (fun _ _ => trivial)

theorem zlibCompress_ports (s : State) : (zlibCompress s).PortAlong s := by
  refine rangeCheck_ports (Flow.All.seq .trans (readBytes_ports s.addr s.count s) fun x t _ => ?_)
  simp only
  split <;> exact .refl t

/-! ### The ports along a step -/

theorem exec_ports {i : Instr} {s t : State} (e : exec i s = .next t) : s.PortStep t := by
  cases i with
  | nop => cases e; exact .refl s
  | sreset => cases e; exact .refl s
  | inRead => exact (inRead_ports s).of_next e
  | bsrOpen => cases e; exact .refl s
  | bsrRead eodok => exact (bsrRead_ports eodok s).of_next e
  | bsrDrain => exact ((drain_ports s).thenRes fun d _ => BitVec.ofNat 32 d).of_next e
  | lzwInit m => exact (lzwInit_ports m s).of_next e
  | lzwDecode => exact (lzwDecode_ports s).of_next e
  | lzwFinish => exact (lzwFinish_ports s).of_next e
  | crcInit => cases e; exact .refl s
  | crcUpdate => exact (crcUpdate_ports s).of_next e
  | zlibCompress => exact (zlibCompress_ports s).of_next e
  | chunkWrite => exact (chunkWrite_ports s).of_next e
  | outWrite => exact (outWrite_ports s).of_next e

/-- A CMD write is ignored by the lock, illegal, or runs its command (rule R143). -/
theorem execute_ports {w : Word} {s t : State} (e : execute w s = .next t) : s.PortStep t := by
  by_cases hl : s.fault = 0 ∨ w = sresetWord
  · cases hd : decode w with
    | illegal why =>
      rw [execute_illegal hd hl] at e
      cases e
      exact .refl s
    | command i =>
      rw [execute_command hd hl] at e
      exact exec_ports e
  · obtain ⟨hf, hw⟩ := not_or.mp hl
    rw [execute_locked hf hw] at e
    cases e
    exact .refl s

theorem hostStep_ports {op : HostOp} {s t : State} (e : hostStep op s = .next t) : s.PortStep t := by
  rcases hostStep_next e with ⟨-, rfl⟩ | ⟨w, -, e⟩ | ⟨r, v, rfl⟩ | ⟨r, rfl⟩ | ⟨a, b, -, rfl⟩
  · exact .refl s
  · have hcmd : s.HostFrame { s with cmd := w } := rfl
    exact hcmd.ports.trans (execute_ports e)
  · exact (s.setReg_hostFrame r v).ports
  · exact .refl s
  · exact .refl s

/-- Settles O58: a step is one host operation, and each of them, whatever command it runs, only moves the ports forward. -/
theorem portsOnlyMoveForward : Obligations.PortsOnlyMoveForward := by
  intro s t e
  show s.PortStep t
  unfold step runHost at e
  split at e
  · cases e
    exact .refl s
  · rename_i op ops _
    have hops : s.HostFrame { s with hostOps := ops } := rfl
    exact hops.ports.trans (hostStep_ports e)

end Sys2Proof.Machine

/-! PROOFS. The encoding family (30_encoding.md): the words of the commands, and the words that are none. -/

namespace Sys2Proof.Machine

/-! ### A command's word decodes to it -/

/-- Settles O1: one lemma of `Laws.Encoding` a row of the opcode map. -/
theorem decodeEncodeAgree : Obligations.DecodeEncodeAgree := by
  intro i
  cases i with
  | nop => exact Laws.Encoding.nop
  | sreset => exact Laws.Encoding.sreset
  | inRead => exact Laws.Encoding.inRead
  | bsrOpen => exact Laws.Encoding.bsrOpen
  | bsrRead eodok => exact Laws.Encoding.bsrRead eodok
  | bsrDrain => exact Laws.Encoding.bsrDrain
  | lzwInit m => exact Laws.Encoding.lzwInit m
  | lzwDecode => exact Laws.Encoding.lzwDecode
  | lzwFinish => exact Laws.Encoding.lzwFinish
  | crcInit => exact Laws.Encoding.crcInit
  | crcUpdate => exact Laws.Encoding.crcUpdate
  | zlibCompress => exact Laws.Encoding.zlibCompress
  | chunkWrite => exact Laws.Encoding.chunkWrite
  | outWrite => exact Laws.Encoding.outWrite

/-! ### A word that decodes is its command's word -/

theorem decode_of_reserved {w : Word} (h : field w 31 16 ≠ 0) : decode w = .illegal .reservedBits := by
  rw [decode, if_neg h]

theorem decode_of_clear {w : Word} (h : field w 31 16 = 0) : decode w = decodeOp (field w 7 0) (field w 15 8) := by
  rw [decode, if_pos h]

theorem decodeBare_command_iff {imm : Nat} {i j : Instr} : decodeBare imm i = .command j ↔ imm = 0 ∧ i = j := by
  by_cases h : imm = 0 <;> simp [decodeBare, h]

theorem decodeBare_illegal_iff {imm : Nat} {i : Instr} : (∃ e, decodeBare imm i = .illegal e) ↔ imm ≠ 0 := by
  by_cases h : imm = 0 <;> simp [decodeBare, h]

/-- The row a command is decoded from is its own: the OP and the IMM of its word (rules R113 and R114). -/
theorem decodeOp_command {op imm : Nat} {i : Instr} (h : decodeOp op imm = .command i) : op = i.op ∧ imm = i.imm := by
  unfold decodeOp at h
  split at h
  case h_5 => -- BSR_READ
    split at h
    · cases h
      obtain rfl | rfl : imm = 0 ∨ imm = 1 := by omega
      · exact ⟨rfl, rfl⟩
      · exact ⟨rfl, rfl⟩
    · cases h
  case h_7 => -- LZW_INIT
    cases h
    exact ⟨rfl, rfl⟩
  case h_15 => cases h -- no row
  all_goals -- a row whose IMM must be 0
    obtain ⟨rfl, rfl⟩ := decodeBare_command_iff.mp h
    exact ⟨rfl, rfl⟩

/-- The one condition on a command is that its IMM fits its field. -/
theorem wf_of_imm_lt {i : Instr} (h : i.imm < 256) : i.wf = true := by
  cases i with
  | lzwInit m => exact decide_eq_true h
  | _ => rfl

theorem field_imm_lt (w : Word) : field w 15 8 < 256 := Nat.mod_lt _ (by decide)

/-- Settles O2: RSV is 0, and OP and IMM are the command's, which makes up the word. -/
theorem encodeDecodeAgree : Obligations.EncodeDecodeAgree := by
  intro w i h
  by_cases hr : field w 31 16 = 0
  · rw [decode_of_clear hr] at h
    obtain ⟨hop, himm⟩ := decodeOp_command h
    refine ⟨wf_of_imm_lt (himm ▸ field_imm_lt w), ?_⟩
    have hw : i.op + 256 * i.imm = w.toNat := by
      rw [word_eq_fields w, hr, hop, himm, Nat.mul_zero, Nat.add_zero]
    rw [encode, hw, BitVec.ofNat_toNat, BitVec.setWidth_eq]
  · rw [decode_of_reserved hr] at h
    cases h

/-! ### The illegal words -/

/-- The upper seven bits of IMM, which BSR_READ holds at 0 (rules R113 and R116). -/
theorem field_imm_half (w : Word) : field w 15 9 = field w 15 8 / 2 := by
  simp only [field_eq]
  omega

/-- The OPs and IMMs that are no command (rule R116). -/
theorem decodeOp_illegal_iff {op imm : Nat} : (∃ e, decodeOp op imm = .illegal e) ↔
    op ∉ [0x00, 0x01, 0x10, 0x11, 0x12, 0x13, 0x20, 0x21, 0x22, 0x30, 0x31, 0x40, 0x50, 0x51]
      ∨ (op ≠ 0x12 ∧ op ≠ 0x20 ∧ imm ≠ 0) ∨ (op = 0x12 ∧ imm / 2 ≠ 0) := by
  unfold decodeOp
  split
  case h_5 => -- BSR_READ
    by_cases hi : imm / 2 = 0
    · simp [hi]
    · simp [hi]
  case h_7 => simp -- LZW_INIT
  case h_15 => simp_all -- no row
  all_goals simp [decodeBare_illegal_iff] -- a row whose IMM must be 0

/-- Settles O3: RSV first, then the row of OP with its IMM; the fault is `execute_illegal`'s. -/
theorem illegalWordsFault : Obligations.IllegalWordsFault := by
  refine ⟨fun w => ?_, fun w s e hd hf => ?_⟩
  · by_cases hr : field w 31 16 = 0
    · rw [decode_of_clear hr, decodeOp_illegal_iff, field_imm_half, or_iff_right (not_not_intro hr)]
    · exact iff_of_true ⟨_, decode_of_reserved hr⟩ (.inl hr)
  · rw [hostStep_command]
    exact execute_illegal (s := { s with cmd := w }) hd (.inl hf)

/-! ### Words of the tables -/

/-- Settles O4, by running the decoder on each word. -/
theorem tableWordsDecode : Obligations.TableWordsDecode := by
  unfold Obligations.TableWordsDecode
  decide

end Sys2Proof.Machine

/-! PROOFS. The control family (40_control.md): the command cycle of one step, and how every command can end. -/

namespace Sys2Proof.Machine

/-! ### How a command can end -/

/-- Settles O10: the NOP arm of `exec` answers its own state. -/
theorem nopChangesNothing : Obligations.NopChangesNothing := fun _ => rfl

/-- The commands that read BUF as data (rule R83). -/
def ReadsBuf (i : Instr) : Prop :=
  i = .crcUpdate ∨ i = .outWrite ∨ i = .chunkWrite ∨ i = .zlibCompress

theorem Flow.Runs.outcome_next {s : State} {x : Flow Unit} (h : x.Runs s) : ∃ t, x.outcome = .next t := by
  cases x with
  | done _ t => exact ⟨t, rfl⟩
  | raised t => exact ⟨t, rfl⟩
  | stop f => exact h.elim

theorem Flow.RunsOrReads.outcome_ends {s : State} {x : Flow Unit} (h : x.RunsOrReads s) :
    (∃ t, x.outcome = .next t) ∨ ∃ a, x.outcome = .fault (.readUnwritten a) := by
  cases x with
  | done _ t => exact .inl ⟨t, rfl⟩
  | raised t => exact .inl ⟨t, rfl⟩
  | stop f =>
    obtain ⟨a, rfl⟩ := h
    exact .inr ⟨a, rfl⟩

/-- From a state whose units keep their invariants a command that does not read BUF as data leaves a next state: no loop of a
unit reaches its bound, as each unit's `_runs` lemma says. -/
theorem exec_next_of_not_readsBuf {i : Instr} {s : State} (h : s.UnitInv) (hi : ¬ReadsBuf i) : ∃ t, exec i s = .next t := by
  cases i with
  | nop | sreset | bsrOpen | crcInit => exact ⟨_, rfl⟩
  | inRead => exact (inRead_runs h).outcome_next
  | bsrRead eodok => exact (bsrRead_runs eodok h).outcome_next
  | bsrDrain => exact (bsrDrain_runs h).outcome_next
  | lzwInit m => exact (lzwInit_runs m h).outcome_next
  | lzwDecode => exact (lzwDecode_runs h).outcome_next
  | lzwFinish => exact (lzwFinish_runs h).outcome_next
  | crcUpdate | outWrite | chunkWrite | zlibCompress => exact absurd (by simp [ReadsBuf]) hi

theorem exec_ends_of_readsBuf {i : Instr} {s : State} (h : s.UnitInv) (hi : ReadsBuf i) :
    runsOrReadsUnwritten (exec i s) := by
  rcases hi with rfl | rfl | rfl | rfl
  · exact (crcUpdate_runs h).outcome_ends
  · exact (outWrite_runs h).outcome_ends
  · exact (chunkWrite_runs h).outcome_ends
  · exact (zlibCompress_runs h).outcome_ends

/-- Settles O19: a command that reads BUF as data may end the run at an unwritten byte, and any other leaves a next state. -/
theorem everyCommandRuns : Obligations.EveryCommandRuns := by
  intro s i h _
  by_cases hi : ReadsBuf i
  · exact ⟨exec_ends_of_readsBuf h.units hi, fun _ => hi⟩
  · obtain ⟨t, ht⟩ := exec_next_of_not_readsBuf h.units hi
    refine ⟨.inl ⟨t, ht⟩, fun ⟨a, ha⟩ => ?_⟩
    rw [ht] at ha
    cases ha

/-! ### The command cycle of a step -/

/-- A step takes the operation at the front of the host's queue (log entry 4). -/
theorem step_of_hostOps {s : State} {op : HostOp} {ops : List HostOp} (h : s.hostOps = op :: ops) :
    step s = hostStep op { s with hostOps := ops } := by
  simp only [step, runHost, h]

/-- A step that writes CMD stores the word and runs it (rule R143). -/
theorem step_command {s : State} {w : Word} {ops : List HostOp} (h : s.hostOps = .regWrite 0x00 32 w :: ops) :
    step s = execute w { s with hostOps := ops, cmd := w } := by
  rw [step_of_hostOps h, hostStep_command]

/-- Settles O5: the lock, then an illegal word, then a command, each by its own lemma about `execute`. -/
theorem stepRunsDecodedCommand : Obligations.StepRunsDecodedCommand := by
  intro s w ops h
  rw [step_command h]
  refine ⟨fun hf hw => execute_locked hf hw, fun hl => ⟨fun i hd => execute_command hd hl, fun e hd => ?_⟩⟩
  exact execute_illegal hd hl

theorem State.hostOps_withFetchWord (s : State) (w : Word) :
    (s.withFetchWord 32 w.toNat).hostOps = .regWrite 0x00 32 w :: s.hostOps := by
  rw [State.withFetchWord, Nat.mod_eq_of_lt w.isLt, BitVec.ofNat_toNat, BitVec.setWidth_eq]
  rfl

/-- Settles O6: the queued word is the command's own, and decodes to it. -/
theorem withFetchWordRunsCommand : Obligations.WithFetchWordRunsCommand := by
  intro s i hi hf
  rw [step_command (s.hostOps_withFetchWord (encode i))]
  exact execute_command (s := { s with cmd := encode i }) (decodeEncodeAgree i hi) (.inl hf)

end Sys2Proof.Machine

/-! PROOFS. The stream reader family (41_stream_reader.md): IN_READ, the commands of the block stream reader, a fill that IN's end
cuts short in each command that fills, and what the commands that take from IN leave alone. -/

namespace Sys2Proof.Machine

/-! ### The commands as parts in sequence -/

theorem exec_inRead (s : State) : exec .inRead s = (inRead s).outcome := rfl

theorem exec_bsrRead (eodok : Bool) (s : State) : exec (.bsrRead eodok) s = (bsrRead eodok s).outcome := rfl

theorem exec_bsrDrain (s : State) :
    exec .bsrDrain s = ((drain s).bind fun d t => .done () (t.setRes (BitVec.ofNat 32 d))).outcome := rfl

theorem exec_lzwDecode (s : State) : exec .lzwDecode s = (lzwDecode s).outcome := rfl

theorem exec_lzwFinish (s : State) : exec .lzwFinish s = (lzwFinish s).outcome := rfl

/-- A1 as the count of a command and as the word a fault or RES records. -/
theorem State.ofNat_count (s : State) : BitVec.ofNat 32 s.count = s.a1 := by
  rw [State.count, BitVec.ofNat_toNat, BitVec.setWidth_eq]

theorem State.count_ne_zero {s : State} (h : s.a1 ≠ 0) : s.count ≠ 0 :=
  fun h0 => h (BitVec.eq_of_toNat_eq h0)

/-! ### IN_READ -/

section
variable {s : State}

theorem inRead_completes (hr : s.addr + s.count ≤ s.bufBytes) (hn : s.count ≤ s.inBytes.length) :
    inRead s = .done () { s with
      buf := Memory.writeList s.buf s.addr (s.inBytes.take s.count)
      inBytes := s.inBytes.drop s.count
      inCount := s.inCount + BitVec.ofNat 32 s.count
      res := s.a1 } := by
  rw [inRead, rangeCheck_pass hr, Flow.bind_done, inRead_loop hn]
  rfl

/-- IN_READ's state where IN has ended: every byte of IN is taken, counted and in BUF (rules R163 and R404). -/
def State.readAll (s : State) : State :=
  { s with
    buf := Memory.writeList s.buf s.addr s.inBytes
    inBytes := []
    inCount := s.inCount + BitVec.ofNat 32 s.inBytes.length }

theorem inRead_ends (hr : s.addr + s.count ≤ s.bufBytes) (hn : s.inBytes.length < s.count) :
    inRead s = (inByte s.count s.inBytes.length s.readAll).bind fun _ t => .done () (t.setRes s.a1) := by
  rw [inRead, rangeCheck_pass hr, Flow.bind_done, inRead_loop_end hn, Flow.bind_assoc]
  rfl

end

/-- Settles O20: within BUF and within IN, every pass of the loop moves one byte. -/
theorem inReadCompletes : Obligations.InReadCompletes := by
  intro s hr hn
  rw [exec_inRead, inRead_completes hr hn, s.ofNat_count]
  rfl

/-- Settles O21: the loop moves all of IN, and the next pass meets IN's end. -/
theorem inReadFaultsWhenInEnds : Obligations.InReadFaultsWhenInEnds := by
  intro s hr hn
  refine ⟨fun he => ?_, fun e he => ?_⟩
  · rw [exec_inRead, inRead_ends hr hn, inByte_eof (s := s.readAll) rfl he, raise_bind, raise_outcome, s.ofNat_count]
    rfl
  · rw [exec_inRead, inRead_ends hr hn, inByte_err (s := s.readAll) rfl he, raise_bind, raise_outcome,
      BitVec.ofNat_toNat, BitVec.ofNat_toNat, BitVec.setWidth_eq, BitVec.setWidth_eq]
    rfl

/-! ### BSR_OPEN and BSR_READ -/

/-- Settles O22: BSR_OPEN's arm is one update of the state. -/
theorem bsrOpenCompletes : Obligations.BsrOpenCompletes := fun _ => rfl

section
variable {s : State} {eodok : Bool} {dst n : Nat}

theorem bsrCopy_held (h : s.bsrPos ≠ s.bsrLen) :
    bsrCopy eodok dst n s
      = .done () ((s.copyBlock dst (min n s.bsrLeft)).setRes (BitVec.ofNat 32 (min n s.bsrLeft))) := by
  rw [bsrCopy, if_neg h]

theorem bsrCopy_eod (h : s.bsrPos = s.bsrLen) : bsrCopy true dst n s = .done () (s.setRes 0) := by
  rw [bsrCopy, if_pos h, if_pos rfl]

theorem bsrCopy_unexpectedEnd (h : s.bsrPos = s.bsrLen) : bsrCopy false dst n s = raise .unexpectedEnd n 0 s := by
  rw [bsrCopy, if_pos h, if_neg Bool.false_ne_true]

variable (hr : s.addr + s.count ≤ s.bufBytes)

include hr in
theorem bsrRead_zero (h : s.count = 0) : bsrRead eodok s = .done () (s.setRes 0) := by
  rw [bsrRead, rangeCheck_pass hr, Flow.bind_done, if_pos h]

variable (hn : s.count ≠ 0)

include hr hn in
/-- With bytes held, or the terminator read before, BSR_READ takes nothing from IN (rules R165 and R167). -/
theorem bsrRead_noFill (h : s.bsrPos ≠ s.bsrLen ∨ s.bsrTerm = true) :
    bsrRead eodok s = bsrCopy eodok s.addr s.count s := by
  have hf : ¬(s.bsrPos = s.bsrLen ∧ s.bsrTerm = false) := fun ⟨hp, ht⟩ => h.elim (· hp) (by simp [ht])
  rw [bsrRead, rangeCheck_pass hr, Flow.bind_done, if_neg hn, if_neg hf, Flow.bind_done]

include hr hn in
theorem bsrRead_fill (hp : s.bsrPos = s.bsrLen) (ht : s.bsrTerm = false) :
    bsrRead eodok s = (bsrFill s).bind fun _ t => bsrCopy eodok s.addr s.count t := by
  rw [bsrRead, rangeCheck_pass hr, Flow.bind_done, if_neg hn, if_pos ⟨hp, ht⟩]

end

/-- Settles O23: `n = 0` returns before the reader is looked at, and bytes held are copied with no fill. -/
theorem bsrReadServesHeldBytes : Obligations.BsrReadServesHeldBytes := by
  intro s eodok hr
  refine ⟨fun h0 => ?_, fun hn hp k hk => ?_⟩
  · have hcount : s.count = 0 := by rw [State.count, h0]; rfl
    rw [exec_bsrRead, bsrRead_zero hr hcount]
    rfl
  · subst hk
    rw [exec_bsrRead, bsrRead_noFill hr (State.count_ne_zero hn) (.inl (Nat.ne_of_lt hp)), bsrCopy_held (Nat.ne_of_lt hp)]
    rfl

/-- A copy from a sub-block just loaded takes its first bytes (rule R165). -/
theorem bsrCopy_loaded {s : State} {d : List Byte} {m : Store Byte} (eodok : Bool) (dst n : Nat) (hd : 1 ≤ d.length)
    (hbuf : s.bsrBuf = fillTable m 0 d) (hlen : s.bsrLen = d.length) (hpos : s.bsrPos = 0) :
    bsrCopy eodok dst n s = .done () { s with
      buf := Memory.writeList s.buf dst (d.take (min n d.length))
      bsrPos := min n d.length
      res := BitVec.ofNat 32 (min n d.length) } := by
  have hleft : s.bsrLeft = d.length := by rw [State.bsrLeft, hlen, hpos, Nat.sub_zero]
  rw [bsrCopy_held (by omega), hleft, State.copyBlock, bsrSlice_fill hbuf hpos (Nat.min_le_right _ _), hpos, Nat.zero_add]
  rfl

/-- Settles O24: the fill loads the sub-block, and the copy is from its start. -/
theorem bsrReadFillsNextBlock : Obligations.BsrReadFillsNextBlock := by
  intro s eodok d rest k hr hn hp ht hd₁ hd₂ hin hk
  subst hk
  rw [exec_bsrRead, bsrRead_fill hr (State.count_ne_zero hn) hp ht, bsrFill_block hd₁ hd₂ hin, Flow.bind_done,
    bsrCopy_loaded eodok s.addr s.count hd₁ rfl rfl rfl]
  rfl

/-- BSR_READ with nothing left to copy, in `t`, the state after its fill if it made one (rule R165). -/
theorem bsrCopy_atEnd (s : State) {t : State} (dst : Nat) (h : t.bsrPos = t.bsrLen) :
    (bsrCopy true dst s.count t).outcome = .next { t with res := 0 }
      ∧ (bsrCopy false dst s.count t).outcome = .next { t with fault := 0x11, finfo0 := s.a1, finfo1 := 0 } := by
  rw [bsrCopy_eod h, bsrCopy_unexpectedEnd h, raise_outcome, s.ofNat_count]
  exact ⟨rfl, rfl⟩

/-- Settles O25: the terminator is read before, or by the fill, which leaves the buffer exhausted. -/
theorem bsrReadAtEndOfData : Obligations.BsrReadAtEndOfData := by
  intro s hr hn hp
  have hn := State.count_ne_zero hn
  refine ⟨fun ht => ?_, fun rest ht hin => ?_⟩
  · simp only [exec_bsrRead, bsrRead_noFill hr hn (.inr ht)]
    exact bsrCopy_atEnd s s.addr hp
  · simp only [exec_bsrRead, bsrRead_fill hr hn hp ht, bsrFill_terminator hin, Flow.bind_done]
    exact bsrCopy_atEnd s s.addr hp

/-! ### BSR_DRAIN -/

/-- Settles O27: a closed reader drops what it holds, an open one reads to its terminator. -/
theorem bsrDrainCompletes : Obligations.BsrDrainCompletes := by
  intro s
  refine ⟨fun ht => ?_, fun bs rest ht hf hin => ?_⟩
  · rw [exec_bsrDrain, drain_closed ht]
    rfl
  · rw [exec_bsrDrain, drain_blocks hf hin ht]
    rfl

/-! ### A fill that IN's end cuts short -/

section
variable {s : State} {exp got : Nat} (hc : cutBlock exp got s.inBytes) (hp : s.bsrPos = s.bsrLen) (ht : s.bsrTerm = false)
include hc hp ht

theorem bsrRead_cut {eodok : Bool} (hr : s.addr + s.count ≤ s.bufBytes) (hn : s.count ≠ 0) :
    bsrRead eodok s = .raised (s.cutFill exp got) := by
  rw [bsrRead_fill hr hn hp ht, bsrFill_fails hc]
  rfl

theorem readCode_cut (hw : s.lzwNbits < s.lzwWidth) : readCode s = .raised (s.cutFill exp got) :=
  readCode_fails hw hp ht (bsrFill_fails hc)

variable (hs : s.lzwState = .active) (hw : s.lzwNbits < s.lzwWidth)
include hs hw

/-- LZW_DECODE delivers what is pending before it reads the code that meets the cut (rule R218). -/
theorem lzwDecode_cut (hr : s.addr + s.count ≤ s.bufBytes) (hn : s.lzwPend.length < s.count) :
    lzwDecode s = .raised (s.served.cutFill exp got) := by
  rw [lzwDecode_served hs hr hn, readCode_cut (s := s.served) hc hp ht hw]
  rfl

theorem lzwFinish_strict_cut (hpend : s.lzwPend = []) (hstrict : s.strictEnd = true) :
    lzwFinish s = .raised (s.cutFill exp got) := by
  rw [lzwFinish_strict hs hstrict hpend, strictLoop_read hs, readCode_cut hc hp ht hw]
  rfl

end

/-- LZW_FINISH in tolerant mode is a drain, then the unit closed (rules R222 and R224). -/
theorem lzwFinish_tolerant {s : State} (hs : s.lzwState ≠ .idle) (htol : s.strictEnd = false) :
    lzwFinish s = (drain s).bind fun d t => .done () (t.closeLzw.setRes (BitVec.ofNat 32 d)) := by
  rw [lzwFinish, if_neg hs, if_neg (by simp [htol])]

/-- Settles O26: BSR_READ, LZW_DECODE and a strict LZW_FINISH come to the cut fill first of all fills, BSR_DRAIN and a tolerant
LZW_FINISH after the whole sub-blocks before it. -/
theorem cutSubBlockFaults : Obligations.CutSubBlockFaults := by
  intro s exp got ht
  refine ⟨fun hc hp => ⟨fun eodok hr hn => ?_, fun _ hs hw => ⟨fun hr hn => ?_, fun hpend hstrict => ?_⟩⟩,
    fun bs cut hf hc hin t he => ?_⟩
  · rw [exec_bsrRead, bsrRead_cut hc hp ht hr (State.count_ne_zero hn)]
    rfl
  · rw [exec_lzwDecode, lzwDecode_cut hc hp ht hs hw hr hn]
    rfl
  · rw [exec_lzwFinish, lzwFinish_strict_cut hc hp ht hs hw hpend hstrict]
    rfl
  · subst he
    have hdrain := drain_fails hf hc hin ht
    refine ⟨?_, fun hs htol => ?_⟩
    · rw [exec_bsrDrain, hdrain]
      rfl
    · rw [exec_lzwFinish, lzwFinish_tolerant hs htol, hdrain]
      rfl

/-! ### What IN_READ and BSR_READ leave alone -/

/-- What a command that moves raw bytes from IN into BUF leaves alone. -/
def State.RawFrame (s t : State) : Prop :=
  t = { s with
    buf := t.buf, res := t.res, fault := t.fault, finfo0 := t.finfo0, finfo1 := t.finfo1
    inBytes := t.inBytes, inCount := t.inCount }

/-- What a command that moves bytes from the block stream reader into BUF leaves alone. -/
def State.ReaderFrame (s t : State) : Prop :=
  t = { s with
    buf := t.buf, res := t.res, fault := t.fault, finfo0 := t.finfo0, finfo1 := t.finfo1
    inBytes := t.inBytes, inCount := t.inCount
    bsrBuf := t.bsrBuf, bsrLen := t.bsrLen, bsrPos := t.bsrPos, bsrTerm := t.bsrTerm }

/-- BUF reads the same at every address outside `lo` up to `hi`. -/
def State.SameOutside (lo hi : Nat) (s t : State) : Prop :=
  ∀ x, x < lo ∨ hi ≤ x → Memory.read t.buf x = Memory.read s.buf x

/-- `t` comes after `s` by parts of an IN_READ into the addresses `lo` up to `hi`. -/
def State.RawStep (lo hi : Nat) (s t : State) : Prop :=
  s.RawFrame t ∧ s.SameOutside lo hi t

/-- `t` comes after `s` by parts of a BSR_READ into the addresses `lo` up to `hi`. -/
def State.ReaderStep (lo hi : Nat) (s t : State) : Prop :=
  s.ReaderFrame t ∧ s.SameOutside lo hi t

section
variable {lo hi : Nat} {s t u : State}

theorem State.SameOutside.trans (h : s.SameOutside lo hi t) (h' : t.SameOutside lo hi u) : s.SameOutside lo hi u :=
  fun x hx => (h' x hx).trans (h x hx)

theorem State.RawStep.trans (h : s.RawStep lo hi t) (h' : t.RawStep lo hi u) : s.RawStep lo hi u := by
  obtain ⟨hf, hout⟩ := h
  obtain ⟨hf', hout'⟩ := h'
  refine ⟨?_, hout.trans hout'⟩
  unfold State.RawFrame at *
  rw [hf', hf]

theorem State.ReaderStep.trans (h : s.ReaderStep lo hi t) (h' : t.ReaderStep lo hi u) : s.ReaderStep lo hi u := by
  obtain ⟨hf, hout⟩ := h
  obtain ⟨hf', hout'⟩ := h'
  refine ⟨?_, hout.trans hout'⟩
  unfold State.ReaderFrame at *
  rw [hf', hf]

theorem State.StreamFrame.reader (h : s.StreamFrame t) : s.ReaderStep lo hi t := by
  refine ⟨?_, fun x _ => by rw [h.sameBuf.buf]⟩
  unfold State.StreamFrame at h
  unfold State.ReaderFrame
  rw [h]

end

/-- One pass of IN_READ's loop. -/
theorem inRead_pass_step {lo hi exp i a : Nat} (ha : lo ≤ a ∧ a < hi) (s : State) :
    ((inByte exp i s).bind fun b t => .done () (t.writeBuf a b)).Along (State.RawStep lo hi) s := by
  refine (inByte_all fun _ _ _ _ => ⟨rfl, fun _ _ => rfl⟩).bind ?_
  rintro b t ⟨rest, -, rfl⟩
  refine ⟨rfl, fun x hx => ?_⟩
  rw [State.writeBuf_buf, State.tookByte_buf, Memory.read_write, if_neg (by omega)]

theorem inRead_step (s : State) : (inRead s).Along (State.RawStep s.addr (s.addr + s.count)) s := by
  refine (rangeCheck_all ⟨rfl, fun _ _ => rfl⟩).bind ?_
  rintro _ t ⟨rfl, -⟩
  refine Flow.All.seq (R := State.RawStep t.addr (t.addr + t.count)) .trans ?_ fun _ _ _ => ⟨rfl, fun _ _ => rfl⟩
  exact forUp_all (P := fun _ u => t.RawStep t.addr (t.addr + t.count) u) ⟨rfl, fun _ _ => rfl⟩ fun i u _ hi hu =>
    Flow.Along.after (inRead_pass_step (by omega) u) .trans hu

/-- BSR_READ writes at most the bytes asked for (rule R165). -/
theorem bsrCopy_step (eodok : Bool) (dst n : Nat) (s : State) :
    (bsrCopy eodok dst n s).Along (State.ReaderStep dst (dst + n)) s := by
  unfold bsrCopy
  split
  · split <;> exact ⟨rfl, fun _ _ => rfl⟩
  · refine ⟨rfl, fun x hx => Memory.read_writeList_outside s.buf ?_⟩
    rw [State.bsrSlice, List.length_map, List.length_range]
    omega

theorem bsrRead_step (eodok : Bool) (s : State) :
    (bsrRead eodok s).Along (State.ReaderStep s.addr (s.addr + s.count)) s := by
  refine (rangeCheck_all ⟨rfl, fun _ _ => rfl⟩).bind ?_
  rintro _ t ⟨rfl, -⟩
  split
  · exact ⟨rfl, fun _ _ => rfl⟩
  · refine Flow.All.seq (R := State.ReaderStep t.addr (t.addr + t.count)) .trans ?_ fun _ u _ =>
      bsrCopy_step eodok t.addr t.count u
    split
    · exact (bsrFill_step t).mono fun _ hu => hu.1.reader
    · exact ⟨rfl, fun _ _ => rfl⟩

/-- Settles O54: each part of the two commands moves the state within the command's frame. -/
theorem inputCommandsFrame : Obligations.InputCommandsFrame := by
  intro s t eodok
  refine ⟨fun e => ?_, fun e => ?_, fun e => ?_⟩
  · exact ((inRead_step s).of_next e).1
  · exact ((bsrRead_step eodok s).of_next e).1
  · rcases e with e | e
    · exact ((inRead_step s).of_next e).2
    · exact ((bsrRead_step eodok s).of_next e).2

/-! ### What BSR_DRAIN and LZW_FINISH leave alone -/

/-- What BSR_DRAIN leaves alone. -/
def State.DrainFrame (s t : State) : Prop :=
  t = { s with
    res := t.res, fault := t.fault, finfo0 := t.finfo0, finfo1 := t.finfo1
    inBytes := t.inBytes, inCount := t.inCount
    bsrBuf := t.bsrBuf, bsrLen := t.bsrLen, bsrPos := t.bsrPos, bsrTerm := t.bsrTerm }

/-- What LZW_FINISH leaves alone. -/
def State.FinishFrame (s t : State) : Prop :=
  t = { s with
    res := t.res, fault := t.fault, finfo0 := t.finfo0, finfo1 := t.finfo1
    inBytes := t.inBytes, inCount := t.inCount
    bsrBuf := t.bsrBuf, bsrLen := t.bsrLen, bsrPos := t.bsrPos, bsrTerm := t.bsrTerm
    lzwState := t.lzwState, lzwWidth := t.lzwWidth, lzwNext := t.lzwNext, lzwPrev := t.lzwPrev
    lzwPrevValid := t.lzwPrevValid, lzwBitbuf := t.lzwBitbuf, lzwNbits := t.lzwNbits
    lzwPrefix := t.lzwPrefix, lzwSuffix := t.lzwSuffix, lzwPend := t.lzwPend }

section
variable {s t : State}

theorem State.StreamFrame.thenRes (h : s.StreamFrame t) (v : Word) : s.DrainFrame (t.setRes v) := by
  unfold State.StreamFrame at h
  unfold State.DrainFrame
  rw [h]
  rfl

theorem State.CodeFrame.thenRes (h : s.CodeFrame t) (v : Word) : s.FinishFrame (t.setRes v) := by
  unfold State.CodeFrame at h
  unfold State.FinishFrame
  rw [h]
  rfl

end

theorem bsrDrain_step (s : State) :
    ((drain s).bind fun d t => .done () (t.setRes (BitVec.ofNat 32 d))).Along State.DrainFrame s :=
  (Flow.All.mono (drain_step s) (fun _ _ => id) (fun t ht => ht.1.thenRes t.res) (fun _ => id)).bind
    fun _ _ ht => ht.1.thenRes _

theorem lzwFinish_step (s : State) : (lzwFinish s).Along State.FinishFrame s := by
  unfold lzwFinish
  split
  · rfl
  · have hend : (if s.strictEnd then strictFinish s else drain s).Along State.CodeStep s := by
      split
      · exact strictFinish_step s
      · exact (drain_step s).mono fun _ => State.StreamStep.code
    refine (Flow.All.mono hend (fun _ _ => id) (fun t ht => ht.1.thenRes t.res) (fun _ => id)).bind fun _ t ht => ?_
    have hclose : t.CodeFrame t.closeLzw := rfl
    exact (ht.1.trans hclose).thenRes _

/-- Settles O56: the drain and the strict end check move the state within the reader's frame and the decoder's, and RES is set
last. -/
theorem closingCommandsFrame : Obligations.ClosingCommandsFrame := by
  intro s t
  exact ⟨fun e => (bsrDrain_step s).of_next e, fun e => (lzwFinish_step s).of_next e⟩

end Sys2Proof.Machine

/-! PROOFS. The LZW family (42_lzw.md): opening a stream, the strings of the table, LZW_DECODE code by code, splitting a decode,
the two modes of LZW_FINISH, and what LZW_DECODE leaves alone. -/

namespace Sys2Proof.Machine

/-! ### Opening a stream -/

theorem exec_lzwInit (m : Nat) (s : State) : exec (.lzwInit m) s = (lzwInit m s).outcome := rfl

/-- Settles O28: a minCodeSize in range opens the stream, the clear code being a power of two. -/
theorem lzwInitCompletes : Obligations.LzwInitCompletes := by
  intro s m h₁ h₂
  rw [exec_lzwInit, lzwInit, if_neg (by omega), ← Nat.one_shiftLeft]
  simp only [Flow.outcome_done, State.openLzw, State.lzwReset, State.clearCode, State.openBsr, State.setRes]

/-- Settles O29: a minCodeSize out of range is refused before anything changes. -/
theorem lzwInitFaultsOnBadMin : Obligations.LzwInitFaultsOnBadMin := by
  intro s m _ hm
  rw [exec_lzwInit, lzwInit, if_pos hm, raise_outcome]
  rfl

/-- Settles O30: both commands look at `lzw_state` first. -/
theorem lzwSequenceFaults : Obligations.LzwSequenceFaults := by
  intro s hs
  rw [exec_lzwDecode, exec_lzwFinish, lzwDecode, lzwFinish, if_pos hs, if_pos hs, raise_outcome, State.commandWord,
    BitVec.ofNat_toNat, BitVec.setWidth_eq]
  exact ⟨rfl, rfl⟩

/-! ### The strings of the table -/

/-- Settles O31: the recursion of rule R203, with the clear code at least 4 and no code above 4095. -/
theorem stringFollowsTable : Obligations.StringFollowsTable := by
  intro s h
  refine ⟨fun c hc => State.OpenInv.stringOf_literal hc, fun c hc => ?_⟩
  have hlen : (s.stringOf c).length ≤ c - s.clearCode := (h.stringOf_length (.inr hc)).2 hc
  refine ⟨h.stringOf_entry hc, (h.prefixOf hc).1, hlen, ?_⟩
  have hclear := h.clear_range.1
  have hnext := h.nextRange.2
  have hbelow := hc.2
  omega

section
variable {s : State} {c : Nat}

/-- A data code's bytes are its string (rules R203 and R205). -/
theorem State.codeString_data (h : s.DataCode c) : s.codeString c = some (s.stringOf c) := by
  rcases h with h | ⟨hlo, hhi⟩
  · rw [State.codeString, if_pos h]
  · rw [State.codeString, if_neg (by omega), if_pos ⟨by rw [State.eoiCode]; omega, hhi⟩]

/-- The code that refers to the entry it defines (rule R210). -/
theorem State.codeString_next (hn : s.clearCode + 2 ≤ s.lzwNext) (hv : s.lzwPrevValid = true) (hm : s.lzwNext < 4096) :
    s.codeString s.lzwNext = some (s.stringOf s.lzwPrev ++ [firstByte (s.stringOf s.lzwPrev)]) := by
  rw [State.codeString, if_neg (by omega), if_neg (by omega), if_pos ⟨rfl, hv, hm⟩]

/-- A code above `lzw_next`, or equal to it with no previous code, stands for nothing (rule R207). -/
def State.InvalidCode (s : State) (c : Nat) : Prop :=
  s.lzwNext < c ∨ (c = s.lzwNext ∧ s.lzwPrevValid = false)

theorem State.codeString_invalid (hn : s.clearCode + 2 ≤ s.lzwNext) (h : s.InvalidCode c) : s.codeString c = none := by
  have hge : s.lzwNext ≤ c := by
    rcases h with h | ⟨h, -⟩ <;> omega
  have hnotNext : ¬(c = s.lzwNext ∧ s.lzwPrevValid = true ∧ s.lzwNext < Config.dictSize) := by
    rintro ⟨he, hv, -⟩
    rcases h with h | ⟨-, h⟩
    · omega
    · rw [hv] at h
      cases h
  rw [State.codeString, if_neg (by omega), if_neg (by omega), if_neg hnotNext]

end

/-! ### What one code does -/

/-- The units' invariants with a stream open and a whole code in the accumulator, as a command that reads the code finds them. -/
structure State.CodeReady (s : State) : Prop where
  units : s.UnitInv
  active : s.lzwState = .active
  full : s.lzwWidth ≤ s.lzwNbits

/-- The state once the data code `c`, whose string begins with `b`, has been read from the accumulator and run (rules R205 and
R206). -/
def State.ranCode (s : State) (c : Nat) (b : Byte) : State :=
  (s.dropCode.addEntry b).setPrev c

/-- A data code's entry and width, each field with its own condition (rules R208, R209, R211 and R212). -/
theorem State.addEntry_eq (s : State) (b : Byte) : s.addEntry b = { s with
    lzwPrefix := if s.lzwPrevValid ∧ s.lzwNext < 4096 then Store.put s.lzwPrefix s.lzwNext s.lzwPrev else s.lzwPrefix
    lzwSuffix := if s.lzwPrevValid ∧ s.lzwNext < 4096 then Store.put s.lzwSuffix s.lzwNext b else s.lzwSuffix
    lzwNext := if s.lzwPrevValid ∧ s.lzwNext < 4096 then s.lzwNext + 1 else s.lzwNext
    lzwWidth := if (s.lzwPrevValid ∧ s.lzwNext < 4096) ∧ s.lzwNext + 1 = 2 ^ s.lzwWidth ∧ s.lzwWidth < 12
      then s.lzwWidth + 1 else s.lzwWidth } := by
  by_cases hadd : s.lzwPrevValid ∧ s.lzwNext < 4096
  · simp only [State.addEntry, Config.dictSize, grownWidth, Config.maxWidth, Nat.one_shiftLeft, hadd, true_and,
      and_self, if_true]
  · simp only [State.addEntry, Config.dictSize, hadd, false_and, if_false]

section
variable {s : State} {c : Nat} {bs : List Byte}

theorem State.CodeReady.isOpen (h : s.CodeReady) : s.OpenInv := h.units.opened (by simp [h.active])

theorem State.CodeReady.nextCode_eq (h : s.CodeReady) (hc : c = s.lzwBitbuf.toNat % 2 ^ s.lzwWidth) : s.nextCode = c := by
  rw [hc, State.nextCode_eq h.isOpen.widthRange.2]

theorem State.CodeReady.nextCode_clear (h : s.CodeReady) (hc : s.lzwBitbuf.toNat % 2 ^ s.lzwWidth = 2 ^ s.lzwMin) :
    s.nextCode = s.clearCode := by
  rw [h.nextCode_eq hc.symm, s.clearCode_eq]

theorem State.CodeReady.nextCode_eoi (h : s.CodeReady) (hc : s.lzwBitbuf.toNat % 2 ^ s.lzwWidth = 2 ^ s.lzwMin + 1) :
    s.nextCode = s.eoiCode := by
  rw [h.nextCode_eq hc.symm, State.eoiCode, s.clearCode_eq]

/-- A code with a string is neither the clear code nor the end code. -/
theorem State.OpenInv.codeString_apart (h : s.OpenInv) (hb : s.codeString c = some bs) :
    c ≠ s.clearCode ∧ c ≠ s.eoiCode := by
  have hnext := h.nextRange.1
  rw [State.eoiCode]
  rcases State.codeString_some hb with ⟨-, hc | ⟨hc, -⟩⟩ | ⟨-, hc, -⟩ <;> omega

/-- The step of a code that has a string, read from the accumulator. -/
theorem State.OpenInv.stepCode_read (h : s.OpenInv) (hb : s.codeString c = some bs) :
    stepCode c s.dropCode = .done (some bs) (s.ranCode c (firstByte bs)) := by
  obtain ⟨h₁, h₂⟩ := h.codeString_apart hb
  exact stepCode_string (s := s.dropCode) h₁ h₂ (by rw [State.codeString_dropCode, hb])

/-- The step of an invalid code, read from the accumulator (rule R207). -/
theorem State.OpenInv.stepCode_readInvalid (h : s.OpenInv) (hc : s.InvalidCode c) :
    stepCode c s.dropCode = raise .lzwInvalidCode c s.lzwNext s.dropCode := by
  have hnext := h.nextRange.1
  have hge : s.lzwNext ≤ c := by
    rcases hc with hc | ⟨hc, -⟩ <;> omega
  exact stepCode_invalid (s := s.dropCode) (by show c ≠ s.clearCode; omega)
    (by show c ≠ s.clearCode + 1; omega) (State.codeString_invalid (s := s.dropCode) hnext hc)

theorem State.setPend_self (h : s.lzwPend = bs) : s.setPend bs = s := by
  subst h
  rfl

/-- What the claims call the state after one code is the code run, its string cut at the bytes wanted, and RES set. -/
theorem State.afterOneCode_eq (s : State) (c : Nat) (bs : List Byte) :
    Sys2Proof.Claims.afterOneCode s c bs
      = ((((s.ranCode c (firstByte bs)).writeBufList s.addr (bs.take s.count)).setPend (bs.drop s.count)).setRes s.a1) := by
  simp only [Sys2Proof.Claims.afterOneCode, State.ranCode, State.addEntry_eq, State.setRes, State.setPend, State.writeBufList,
    State.setPrev, State.dropCode, State.addr, State.count, firstByte]

/-- What the claims call the state of LZW_TOO_MUCH_DATA is the code run and the fault recorded (rule R223). -/
theorem State.tooMuchData_eq (hp : s.lzwPend = []) :
    Sys2Proof.Claims.tooMuchData s c bs
      = (s.ranCode c (firstByte bs)).recordFault .lzwTooMuchData (BitVec.ofNat 32 bs.length) (BitVec.ofNat 32 c) := by
  rw [Sys2Proof.Claims.tooMuchData, ← hp, State.ranCode, State.addEntry_eq]
  rfl

end

/-! ### LZW_DECODE from the pending bytes -/

section
variable {s : State}

/-- LZW_DECODE past its checks is its loop, then RES set (rule R218). -/
theorem lzwDecode_loop (hs : s.lzwState ≠ .idle) (hr : s.addr + s.count ≤ s.bufBytes) :
    lzwDecode s = (decodeLoop s.addr s.count (s.count + s.bitsLeft + 1) 0 s).bind fun _ t => .done () (t.setRes s.a1) := by
  rw [lzwDecode, if_neg hs, rangeCheck_pass hr]
  rfl

theorem lzwDecode_pending (hs : s.lzwState ≠ .idle) (hr : s.addr + s.count ≤ s.bufBytes) (hn : s.count ≤ s.lzwPend.length) :
    lzwDecode s = .done ()
      (((s.writeBufList s.addr (s.lzwPend.take s.count)).setPend (s.lzwPend.drop s.count)).setRes s.a1) := by
  rw [lzwDecode_loop hs hr, show s.count + s.bitsLeft + 1 = s.bitsLeft + 1 + s.count by omega,
    decodeLoop_pending (by omega) hn, decodeLoop_end (by omega)]
  rfl

end

/-- Settles O32: the loop delivers pending bytes before it reads a code, and ends with the last byte wanted. -/
theorem lzwDecodeServesPending : Obligations.LzwDecodeServesPending := by
  intro s hs hr hn
  rw [exec_lzwDecode, lzwDecode_pending hs hr hn]
  rfl

/-! ### LZW_DECODE on one code -/

/-- LZW_DECODE on a code that has a string, long enough for the bytes wanted. -/
theorem State.CodeReady.lzwDecode_code {s : State} {bs : List Byte} (h : s.CodeReady) (hb : s.lzwPend = [])
    (hr : s.addr + s.count ≤ s.bufBytes) (hn : 1 ≤ s.count) (hc : s.codeString s.nextCode = some bs)
    (hl : s.count ≤ bs.length) : exec .lzwDecode s = .next (Sys2Proof.Claims.afterOneCode s s.nextCode bs) := by
  have hmin := h.isOpen.widthRange.1
  rw [exec_lzwDecode, lzwDecode_string h.active hb hr hn h.full (by omega) (h.isOpen.stepCode_read hc) hl,
    State.afterOneCode_eq]
  rfl

/-- Settles O33: the code read is a data code, or the one that refers to the entry it defines, and its string is as rules R203
and R210 give it. -/
theorem lzwDecodeRunsOneCode : Obligations.LzwDecodeRunsOneCode := by
  intro s c h hs hb hr hn hw hc
  have hready : s.CodeReady := ⟨h.units, hs, hw⟩
  obtain rfl := hready.nextCode_eq hc
  refine ⟨fun hlit h1 => ?_, fun hdef hl => ?_, fun hnext hv hm hl => ?_⟩
  · have hcount : s.count = 1 := by rw [State.count, h1]; rfl
    rw [← State.OpenInv.stringOf_literal hlit]
    exact hready.lzwDecode_code hb hr hn (State.codeString_data (.inl hlit))
      (by rw [hcount]; exact s.stringOf_length_pos _)
  · exact hready.lzwDecode_code hb hr hn (State.codeString_data (.inr hdef)) hl
  · have hstring := State.codeString_next hready.isOpen.nextRange.1 hv hm
    rw [← hnext] at hstring
    exact hready.lzwDecode_code hb hr hn hstring (by rw [List.length_append]; exact hl)

/-- The state once a clear code has been read from the accumulator and run (rules R204 and R206). -/
def State.ranClear (s : State) : State :=
  s.dropCode.lzwReset

theorem State.ranClear_eq (s : State) : s.ranClear = { s with
    lzwBitbuf := s.lzwBitbuf >>> s.lzwWidth
    lzwNbits := s.lzwNbits - s.lzwWidth
    lzwWidth := s.lzwMin + 1
    lzwNext := 2 ^ s.lzwMin + 2
    lzwPrev := 0
    lzwPrevValid := false } := by
  rw [← s.clearCode_eq]
  rfl

section
variable {s : State} (h : s.CodeReady)
include h

theorem State.CodeReady.ranClear_inv : s.ranClear.UnitInv :=
  (h.units.dropCode h.full).lzwReset (h.isOpen.of_eq rfl rfl rfl rfl rfl rfl rfl)

/-- A clear code uses up bits of the code stream. -/
theorem State.CodeReady.ranClear_bits : s.ranClear.bitsLeft < s.bitsLeft := by
  have hwidth := h.isOpen.widthRange.1
  have hfull := h.full
  show s.lzwNbits - s.lzwWidth + 8 * (s.bsrLeft + s.inBytes.length) < s.lzwNbits + 8 * (s.bsrLeft + s.inBytes.length)
  omega

theorem State.CodeReady.lzwDecode_clear (hb : s.lzwPend = []) (hr : s.addr + s.count ≤ s.bufBytes) (hn : 1 ≤ s.count)
    (hc : s.nextCode = s.clearCode) : lzwDecode s = lzwDecode s.ranClear := by
  have hopen : s.ranClear.lzwState ≠ .idle := by
    show s.lzwState ≠ .idle
    simp [h.active]
  have hbits := h.ranClear_bits
  have hall := decodeLoop_all (dst := s.addr) (n := s.count) (k := s.count + s.ranClear.bitsLeft + 1) (i := 0)
    h.ranClear_inv hopen hr (by omega) True fun _ => .inl trivial
  rw [lzwDecode_read h.active hb hr hn h.full, stepCode_clear (s := s.dropCode) hc, Flow.bind_done,
    lzwDecode_loop hopen hr]
  show (decodeLoop s.addr s.count (s.count + s.bitsLeft) 0 (s.ranClear.setPend [])).bind _ = _
  rw [State.setPend_self (s := s.ranClear) hb,
    decodeLoop_mono (k := s.count + s.ranClear.bitsLeft + 1) (fun e => hall.of_stop e) (by omega)]
  rfl

end

/-- Settles O34: the loop goes on from the reset coding state, and a bound large enough does not matter. -/
theorem lzwDecodeSkipsClearCode : Obligations.LzwDecodeSkipsClearCode := by
  intro s h hs hb hr hn hw hc
  have hready : s.CodeReady := ⟨h.units, hs, hw⟩
  rw [← s.ranClear_eq, exec_lzwDecode, exec_lzwDecode,
    hready.lzwDecode_clear hb hr hn (hready.nextCode_clear hc)]

/-! ### Bits fetched for a code -/

/-- `t` is `s` with some of its stream fetched, and the reading of a code does in both the same. -/
structure ReadsAlike (s t : State) : Prop where
  inv : t.UnitInv
  frame : s.CodeFrame t
  st : t.lzwState = s.lzwState
  pend : t.lzwPend = s.lzwPend
  bits : t.bitsLeft ≤ s.bitsLeft
  reads : readCode s = readCode t

section
variable {s t : State}

/-- The held byte at `bsr_pos` put above the valid bits (rules R162 and R206). -/
theorem readsAlike_held (h : s.UnitInv) (hw : s.lzwNbits < s.lzwWidth) (hp : s.bsrPos < s.bsrLen) :
    ReadsAlike s (State.pushBits { s with bsrPos := s.bsrPos + 1 } (s.bsrByte s.bsrPos)) where
  inv := State.UnitInv.pushBits (h.setPos hp) _ hw
  frame := rfl
  st := rfl
  pend := rfl
  bits := by
    show s.lzwNbits + 8 + 8 * (s.bsrLen - (s.bsrPos + 1) + s.inBytes.length)
      ≤ s.lzwNbits + 8 * (s.bsrLen - s.bsrPos + s.inBytes.length)
    omega
  reads := readCode_held hw (Nat.ne_of_lt hp)

/-- The next sub-block loaded, none of it served (rules R161 and R162). -/
theorem readsAlike_block {d rest : List Byte} (h : s.UnitInv) (hw : s.lzwNbits < s.lzwWidth) (hp : s.bsrPos = s.bsrLen)
    (ht : s.bsrTerm = false) (hd₁ : 1 ≤ d.length) (hd₂ : d.length ≤ 255)
    (hin : s.inBytes = BitVec.ofNat 8 d.length :: d ++ rest) :
    ReadsAlike s { s with
      bsrBuf := fillTable s.bsrBuf 0 d
      bsrLen := d.length
      bsrPos := 0
      inBytes := rest
      inCount := s.inCount + BitVec.ofNat 32 (d.length + 1) } := by
  have hfill := bsrFill_block hd₁ hd₂ hin
  have hpost := (bsrFill_all h hp).of_done hfill
  have hunserved : 0 ≠ d.length := by omega
  refine ⟨hpost.inv, hpost.frame.code, rfl, rfl, ?_, readCode_fill hw hp ht hfill hunserved⟩
  have hleft := hpost.left
  show s.lzwNbits + 8 * (d.length - 0 + rest.length) ≤ s.lzwNbits + 8 * (s.bsrLeft + s.inBytes.length)
  simp only [State.bsrLeft] at hleft ⊢
  omega

theorem ReadsAlike.lzwDecode_eq (h : ReadsAlike s t) (hs : s.lzwState = .active) (hb : s.lzwPend = [])
    (hr : s.addr + s.count ≤ s.bufBytes) (hn : 1 ≤ s.count) : exec .lzwDecode s = exec .lzwDecode t := by
  rw [exec_lzwDecode, exec_lzwDecode, lzwDecode_congr h.inv hs hb hr hn h.st h.pend (by rw [h.frame]) (by rw [h.frame])
    (by rw [h.frame]) h.bits h.reads]

end

/-- Settles O35: the reading of a code starts with the byte held, or with the fill of the buffer. -/
theorem lzwDecodeFetchesBits : Obligations.LzwDecodeFetchesBits := by
  intro s h hs hb hr hn hw
  refine ⟨fun hp => ?_, fun d rest hp ht hd₁ hd₂ hin => ?_⟩
  · exact (readsAlike_held h.units hw hp).lzwDecode_eq hs hb hr hn
  · exact (readsAlike_block h.units hw hp ht hd₁ hd₂ hin).lzwDecode_eq hs hb hr hn

/-! ### The data faults of LZW_DECODE -/

section
variable {s : State} (hs : s.lzwState = .active) (hr : s.addr + s.count ≤ s.bufBytes) (hn : s.lzwPend.length < s.count)
include hs hr hn

/-- LZW_DECODE with a whole code in the accumulator and too few bytes pending. -/
theorem lzwDecode_served_code (hw : s.lzwWidth ≤ s.lzwNbits) :
    lzwDecode s = ((stepCode s.nextCode s.served.dropCode).bind fun r t =>
      decodeLoop s.addr s.count (s.count - s.lzwPend.length + s.bitsLeft) s.lzwPend.length (t.takeString r)).bind
        fun _ t => .done () (t.setRes s.a1) := by
  rw [lzwDecode_served hs hr hn, readCode_full (s := s.served) hw]
  rfl

theorem lzwDecode_served_invalid (hw : s.lzwWidth ≤ s.lzwNbits) (ho : s.OpenInv) (hc : s.InvalidCode s.nextCode) :
    lzwDecode s = raise .lzwInvalidCode s.nextCode s.lzwNext s.served.dropCode := by
  have hopen : s.served.OpenInv := ho.of_eq rfl rfl rfl rfl rfl rfl rfl
  rw [lzwDecode_served_code hs hr hn hw, hopen.stepCode_readInvalid hc]
  rfl

/-- The end code sets DONE, and the next pass of the loop raises (rule R221). -/
theorem lzwDecode_served_end (hw : s.lzwWidth ≤ s.lzwNbits) (hc : s.nextCode = s.eoiCode) :
    lzwDecode s = raise .lzwEarlyEoi s.count s.lzwPend.length s.served.dropCode.finishLzw := by
  obtain ⟨k, hk⟩ : ∃ k, s.count - s.lzwPend.length + s.bitsLeft = k + 1 :=
    ⟨s.count - s.lzwPend.length + s.bitsLeft - 1, by omega⟩
  rw [lzwDecode_served_code hs hr hn hw, stepCode_end (s := s.served.dropCode) hc, Flow.bind_done, State.takeString, hk,
    decodeLoop_done hn rfl rfl]
  rfl

theorem lzwDecode_served_eod {t : State} (hread : readCode s.served = .done none t) :
    lzwDecode s = raise .unexpectedEnd s.count s.lzwPend.length t := by
  rw [lzwDecode_served hs hr hn, hread]
  rfl

end

/-- Settles O36: the pending bytes are delivered, and the code read next is invalid, the end code, or cut by the end of data. -/
theorem lzwDecodeDataFaults : Obligations.LzwDecodeDataFaults := by
  intro s c h hs hr hn
  refine ⟨fun hw hc => ?_, fun hw hp => ⟨fun ht => ?_, fun rest ht hin => ?_⟩⟩
  · have hready : s.CodeReady := ⟨h.units, hs, hw⟩
    obtain rfl := hready.nextCode_eq hc
    refine ⟨fun hinv => ?_, fun hend => ?_⟩
    · rw [exec_lzwDecode, lzwDecode_served_invalid hs hr hn hw hready.isOpen hinv, raise_outcome]
      rfl
    · rw [exec_lzwDecode, lzwDecode_served_end hs hr hn hw (hready.nextCode_eoi (hc ▸ hend)), raise_outcome,
        s.ofNat_count]
      simp only [State.finishLzw, State.dropCode]
      rfl
  · rw [exec_lzwDecode, lzwDecode_served_eod hs hr hn (readCode_eod (s := s.served) hw hp ht), raise_outcome, s.ofNat_count]
    rfl
  · rw [exec_lzwDecode, lzwDecode_served_eod hs hr hn (readCode_terminator (s := s.served) hw hp ht hin), raise_outcome,
      s.ofNat_count]
    simp only [State.closeBsr, State.tookByte]
    rfl

/-! ### Splitting an LZW_DECODE -/

section
variable {s t : State} {dst n k : Nat} (h : s.UnitInv) (hs : s.lzwState ≠ .idle) (hr : dst + n ≤ s.bufBytes)
include h hs hr

/-- Everything LZW_DECODE's loop can do with the bound the command gives it. -/
theorem decodeLoop_enough :
    (decodeLoop dst n (n + s.bitsLeft + 1) 0 s).All (fun _ t => DecodePost dst (dst + n) s t ∧ s.SameFault t)
      State.Faulted (fun _ => False) :=
  (decodeLoop_all h hs hr (by omega) True fun _ => .inl trivial).mono (fun _ _ ht => ⟨ht.1, ht.2.1⟩)
    (fun _ ht => ht.faulted) (fun _ => id)

/-- A loop that gets to its end with some bound does so with the command's. -/
theorem decodeLoop_rebound (hl : decodeLoop dst n k 0 s = .done () t) :
    decodeLoop dst n (n + s.bitsLeft + 1) 0 s = .done () t := by
  rcases Nat.le_total k (n + s.bitsLeft + 1) with hk | hk
  · rw [decodeLoop_mono (by rw [hl]; simp) hk, hl]
  · rw [← decodeLoop_mono (fun e => (decodeLoop_enough h hs hr).of_stop e) hk, hl]

end

section
variable {s t w : State} {dst n k : Nat} (h : s.UnitInv) (hdst : dst < 2 ^ 32) (hn : n < 2 ^ 32) (r : Word)

include hdst hn in
/-- LZW_DECODE past its checks, its operands and RES apart from the state its loop runs on. -/
theorem lzwDecode_withArgs (hs : s.lzwState ≠ .idle) (hr : dst + n ≤ s.bufBytes) :
    lzwDecode (s.withArgs (BitVec.ofNat 32 dst) (BitVec.ofNat 32 n) r)
      = ((decodeLoop dst n (n + s.bitsLeft + 1) 0 s).withArgs (BitVec.ofNat 32 dst) (BitVec.ofNat 32 n) r).bind
          fun _ t => .done () (t.setRes (BitVec.ofNat 32 n)) := by
  have haddr : (s.withArgs (BitVec.ofNat 32 dst) (BitVec.ofNat 32 n) r).addr = dst := Nat.mod_eq_of_lt hdst
  have hcount : (s.withArgs (BitVec.ofNat 32 dst) (BitVec.ofNat 32 n) r).count = n := Nat.mod_eq_of_lt hn
  rw [lzwDecode_loop (s := s.withArgs _ _ r) hs (by rw [haddr, hcount]; exact hr), haddr, hcount, decodeLoop_withArgs]
  rfl

include h hdst hn in
/-- A decode whose loop gets to its end succeeds. -/
theorem lzwDecode_of_loop (hs : s.lzwState ≠ .idle) (hr : dst + n ≤ s.bufBytes) (hl : decodeLoop dst n k 0 s = .done () w) :
    exec .lzwDecode (s.withArgs (BitVec.ofNat 32 dst) (BitVec.ofNat 32 n) r)
      = .next (w.withArgs (BitVec.ofNat 32 dst) (BitVec.ofNat 32 n) (BitVec.ofNat 32 n)) := by
  rw [exec_lzwDecode, lzwDecode_withArgs hdst hn r hs hr, decodeLoop_rebound h hs hr hl]
  rfl

include h hdst hn in
/-- A decode that succeeds has passed its checks and run its loop to the end. -/
theorem loop_of_lzwDecode
    (e : exec .lzwDecode (s.withArgs (BitVec.ofNat 32 dst) (BitVec.ofNat 32 n) r) = .next t) (hf : t.fault = 0) :
    s.lzwState ≠ .idle ∧ dst + n ≤ s.bufBytes ∧ ∃ k w, decodeLoop dst n k 0 s = .done () w
      ∧ t = w.withArgs (BitVec.ofNat 32 dst) (BitVec.ofNat 32 n) (BitVec.ofNat 32 n) := by
  have haddr : (s.withArgs (BitVec.ofNat 32 dst) (BitVec.ofNat 32 n) r).addr = dst := Nat.mod_eq_of_lt hdst
  have hcount : (s.withArgs (BitVec.ofNat 32 dst) (BitVec.ofNat 32 n) r).count = n := Nat.mod_eq_of_lt hn
  rw [exec_lzwDecode] at e
  by_cases hs : s.lzwState = .idle
  · rw [lzwDecode, if_pos (by exact hs), raise_outcome] at e
    cases e
    exact absurd hf (FaultCode.code_ne_zero _)
  by_cases hr : dst + n ≤ s.bufBytes
  · refine ⟨hs, hr, n + s.bitsLeft + 1, ?_⟩
    rw [lzwDecode_withArgs hdst hn r hs hr] at e
    cases hl : decodeLoop dst n (n + s.bitsLeft + 1) 0 s with
    | done _ w =>
      rw [hl] at e
      cases e
      exact ⟨w, rfl, rfl⟩
    | raised w =>
      rw [hl] at e
      cases e
      exact absurd hf ((decodeLoop_enough h hs hr).of_raised hl).fault_ne_zero
    | stop f => exact ((decodeLoop_enough h hs hr).of_stop hl).elim
  · have hfail := rangeCheck_fail (a := dst) (n := n) (s := s.withArgs (BitVec.ofNat 32 dst) (BitVec.ofNat 32 n) r)
      (by show dst + n > s.bufBytes; omega)
    rw [lzwDecode, if_neg (by exact hs), haddr, hcount, hfail, raise_bind, raise_outcome] at e
    cases e
    exact absurd hf (FaultCode.code_ne_zero _)

end

/-- Settles O37: the loop for `n + m` bytes is the loop for `n`, then the loop for `m` from the state it leaves; none of them sees
the operand registers or RES, and a bound large enough does not matter. -/
theorem lzwDecodeSplits : Obligations.LzwDecodeSplits := by
  intro s t dst n m h hf hlt e htf
  obtain ⟨hs, hr, k, w, hl, rfl⟩ := loop_of_lzwDecode h.units (by omega) (by omega) s.res e htf
  obtain ⟨u, hl₁, hl₂⟩ := decodeLoop_split (Nat.zero_le n) hl
  obtain ⟨hpost, hfault⟩ := (decodeLoop_enough h.units hs (by omega)).of_done (decodeLoop_rebound h.units hs (by omega) hl₁)
  have hsize : u.bufBytes = s.bufBytes := by rw [hpost.frame]
  refine ⟨_, _, lzwDecode_of_loop h.units (by omega) (by omega) s.res hs (by omega) hl₁, hfault.1.trans hf, rfl,
    lzwDecode_of_loop hpost.inv (by omega) (by omega) (BitVec.ofNat 32 n) hpost.isOpen (by omega) hl₂, rfl, rfl⟩

/-! ### What LZW_DECODE leaves alone -/

/-- What LZW_DECODE leaves alone, BUF apart. -/
def State.DecodeCommandFrame (s t : State) : Prop :=
  t = { s with
    buf := t.buf, res := t.res, fault := t.fault, finfo0 := t.finfo0, finfo1 := t.finfo1
    inBytes := t.inBytes, inCount := t.inCount
    bsrBuf := t.bsrBuf, bsrLen := t.bsrLen, bsrPos := t.bsrPos, bsrTerm := t.bsrTerm
    lzwState := t.lzwState, lzwWidth := t.lzwWidth, lzwNext := t.lzwNext, lzwPrev := t.lzwPrev
    lzwPrevValid := t.lzwPrevValid, lzwBitbuf := t.lzwBitbuf, lzwNbits := t.lzwNbits
    lzwPrefix := t.lzwPrefix, lzwSuffix := t.lzwSuffix, lzwPend := t.lzwPend }

/-- `t` comes after `s` by an LZW_DECODE into the addresses `lo` up to `hi`. -/
def State.DecodeCommandStep (lo hi : Nat) (s t : State) : Prop :=
  s.DecodeCommandFrame t ∧ s.SameOutside lo hi t

theorem State.DecodeStep.thenRes {lo hi : Nat} {s t : State} (h : s.DecodeStep lo hi t) (v : Word) :
    s.DecodeCommandStep lo hi (t.setRes v) := by
  obtain ⟨hframe, -, houtside⟩ := h
  refine ⟨?_, houtside⟩
  unfold State.DecodeFrame at hframe
  unfold State.DecodeCommandFrame
  rw [hframe]
  rfl

theorem lzwDecode_step (s : State) : (lzwDecode s).Along (State.DecodeCommandStep s.addr (s.addr + s.count)) s := by
  unfold lzwDecode
  split
  · exact ⟨rfl, fun _ _ => rfl⟩
  · refine (rangeCheck_all ⟨rfl, fun _ _ => rfl⟩).bind ?_
    rintro _ t ⟨rfl, -⟩
    exact (Flow.All.mono (decodeLoop_step _ _ _ 0 t) (fun _ _ => id) (fun u hu => hu.thenRes u.res) (fun _ => id)).bind
      fun _ _ hu => hu.thenRes _

/-- Settles O55: the loop moves the state within the decoder's frame, and RES is set last. -/
theorem lzwDecodeFrame : Obligations.LzwDecodeFrame := by
  intro s t e
  exact (lzwDecode_step s).of_next e

/-! ### LZW_FINISH in tolerant mode -/

/-- Settles O38: a closed reader drops what it holds, an open one reads to its terminator, and the unit is closed. -/
theorem lzwFinishTolerantCompletes : Obligations.LzwFinishTolerantCompletes := by
  intro s hs htol
  refine ⟨fun ht => ?_, fun bs rest ht hf hin => ?_⟩
  · rw [exec_lzwFinish, lzwFinish_tolerant hs htol, drain_closed ht]
    rfl
  · rw [exec_lzwFinish, lzwFinish_tolerant hs htol, drain_blocks hf hin ht]
    rfl

/-! ### LZW_FINISH in strict mode: what completes it -/

theorem State.dropBlock_self {s : State} (hp : s.bsrPos = s.bsrLen) : s.dropBlock = s := by
  cases s
  cases hp
  rfl

/-- The unit closed, where nothing was pending. -/
theorem State.closeLzw_eq {s : State} (hb : s.lzwPend = []) :
    s.closeLzw = { s with lzwBitbuf := 0, lzwNbits := 0, lzwState := .idle } := by
  rw [State.closeLzw, ← hb]

section
variable {s t : State} {rest : List Byte}

theorem readTerminator_closed (h : s.bsrTerm = true) : readTerminator s = .done () s := by
  rw [readTerminator, if_pos h]

/-- With the terminator not read yet, the strict end check takes a byte from IN (rule R222). -/
theorem readTerminator_open (h : s.bsrTerm = false) :
    readTerminator s = (inByte 1 0 s).bind fun l s₁ =>
      if l ≠ 0 then raise .extraSubblock l.toNat 0 s₁ else .done () s₁.closeBsr := by
  rw [readTerminator, if_neg (by simp [h])]

theorem readTerminator_zero (h : s.bsrTerm = false) (hin : s.inBytes = 0 :: rest) :
    readTerminator s = .done () (s.tookByte rest).closeBsr := by
  rw [readTerminator_open h, inByte_cons hin]
  rfl

theorem readTerminator_block {l : Byte} (h : s.bsrTerm = false) (hin : s.inBytes = l :: rest) (hl : l ≠ 0) :
    readTerminator s = raise .extraSubblock l.toNat 0 (s.tookByte rest) := by
  rw [readTerminator_open h, inByte_cons hin, Flow.bind_done, if_pos hl]

variable (hs : s.lzwState = .active) (hstrict : s.strictEnd = true) (hb : s.lzwPend = [])
include hs hstrict hb

/-- A strict LZW_FINISH whose loop of codes ends in `t`: what is left of the sub-block is dropped, then comes the terminator
(rule R223). -/
theorem lzwFinish_afterCodes (hl : strictLoop (s.bitsLeft + 1) s = .done () t) :
    lzwFinish s = (readTerminator t.dropBlock).bind fun _ u =>
      .done () (u.closeLzw.setRes (BitVec.ofNat 32 t.bsrLeft)) := by
  rw [lzwFinish_strict hs hstrict hb, hl]
  rfl

theorem lzwFinish_end (hready : s.CodeReady) (hc : s.nextCode = s.eoiCode) :
    lzwFinish s = (readTerminator s.dropCode.finishLzw.dropBlock).bind fun _ u =>
      .done () (u.closeLzw.setRes (BitVec.ofNat 32 s.bsrLeft)) := by
  have hwidth := hready.isOpen.widthRange.1
  have hfull := hready.full
  obtain ⟨k, hk⟩ : ∃ k, s.bitsLeft = k + 1 := ⟨s.bitsLeft - 1, by unfold State.bitsLeft; omega⟩
  rw [lzwFinish_afterCodes hs hstrict hb (by rw [hk, strictLoop_end hs hfull hc])]
  rfl

theorem lzwFinish_eod (hread : readCode s = .done none t) :
    lzwFinish s = (readTerminator t.dropBlock).bind fun _ u =>
      .done () (u.closeLzw.setRes (BitVec.ofNat 32 t.bsrLeft)) :=
  lzwFinish_afterCodes hs hstrict hb (strictLoop_eod hs hread)

/-- Where the end code is in the accumulator, or EOD was met inside a code, a strict LZW_FINISH comes to the terminator with
the BSR as it was; what it leaves in the accumulator and in `lzw_state` is then cleared. -/
theorem lzwFinish_ended (h : s.UnitInv)
    (hend : (s.lzwWidth ≤ s.lzwNbits ∧ s.lzwBitbuf.toNat % 2 ^ s.lzwWidth = 2 ^ s.lzwMin + 1)
      ∨ (s.lzwNbits < s.lzwWidth ∧ s.bsrPos = s.bsrLen ∧ s.bsrTerm = true)) :
    ∃ bits n st, lzwFinish s
      = (readTerminator (State.dropBlock { s with lzwBitbuf := bits, lzwNbits := n, lzwState := st })).bind fun _ u =>
          .done () (u.closeLzw.setRes (BitVec.ofNat 32 s.bsrLeft)) := by
  rcases hend with ⟨hw, hc⟩ | ⟨hw, hp, ht⟩
  · have hready : s.CodeReady := ⟨h, hs, hw⟩
    exact ⟨_, _, _, lzwFinish_end hs hstrict hb hready (hready.nextCode_eoi hc)⟩
  · exact ⟨_, _, _, lzwFinish_eod hs hstrict hb (readCode_eod hw hp ht)⟩

theorem lzwFinish_clear (hready : s.CodeReady) (hc : s.nextCode = s.clearCode) : lzwFinish s = lzwFinish s.ranClear := by
  refine lzwFinish_congr (k := s.bitsLeft) hready.ranClear_inv hs hstrict hb rfl rfl rfl hready.ranClear_bits ?_
  rw [strictLoop_full hs hready.full, stepCode_clear (s := s.dropCode) hc]
  rfl

theorem ReadsAlike.lzwFinish_eq (h : ReadsAlike s t) : exec .lzwFinish s = exec .lzwFinish t := by
  rw [exec_lzwFinish, exec_lzwFinish, lzwFinish_read_congr h.inv hs hstrict hb h.st h.pend h.frame.ctrl h.bits h.reads]

end

/-- Settles O39: the loop of codes ends at the end code or the end of data and the terminator is read where it was not; a clear
code, a byte and a sub-block are steps of the loop. -/
theorem lzwFinishStrictCompletes : Obligations.LzwFinishStrictCompletes := by
  intro s h hs hstrict hb
  refine ⟨fun hend => ⟨fun ht => ?_, fun rest ht hin => ?_⟩, fun hw hc => ?_, fun hw =>
    ⟨fun hp => ?_, fun d rest hp ht hd₁ hd₂ hin => ?_, fun rest hp ht hin => ?_⟩⟩
  · obtain ⟨b, n, st, hfinish⟩ := lzwFinish_ended hs hstrict hb h.units hend
    rw [exec_lzwFinish, hfinish, readTerminator_closed (by exact ht), Flow.bind_done, State.closeLzw_eq (by exact hb)]
    rfl
  · obtain ⟨b, n, st, hfinish⟩ := lzwFinish_ended hs hstrict hb h.units hend
    rw [exec_lzwFinish, hfinish, readTerminator_zero (by exact ht) (by exact hin), Flow.bind_done,
      State.closeLzw_eq (by exact hb)]
    simp only [State.closeBsr, State.tookByte, State.dropBlock]
    rfl
  · have hready : s.CodeReady := ⟨h.units, hs, hw⟩
    rw [← s.ranClear_eq, exec_lzwFinish, exec_lzwFinish,
      lzwFinish_clear hs hstrict hb hready (hready.nextCode_clear hc)]
  · exact (readsAlike_held h.units hw hp).lzwFinish_eq hs hstrict hb
  · exact (readsAlike_block h.units hw hp ht hd₁ hd₂ hin).lzwFinish_eq hs hstrict hb
  · have hleft : (s.tookByte rest).closeBsr.bsrLeft = 0 := Nat.sub_eq_zero_of_le (Nat.le_of_eq hp.symm)
    rw [exec_lzwFinish, lzwFinish_eod hs hstrict hb (readCode_terminator hw hp ht hin), State.dropBlock_self (by exact hp),
      hleft, readTerminator_closed rfl, Flow.bind_done, State.closeLzw_eq (by exact hb)]
    rfl

/-! ### LZW_FINISH in strict mode: what it does not accept -/

section
variable {s : State} {bs : List Byte} (hs : s.lzwState = .active) (hstrict : s.strictEnd = true)
include hs hstrict

theorem lzwFinish_pending (hb : s.lzwPend ≠ []) :
    lzwFinish s = raise .lzwTooMuchData s.lzwPend.length 0xFFFFFFFF s := by
  rw [lzwFinish, if_neg (by simp [hs]), if_pos hstrict, strictFinish, if_pos hb]
  rfl

variable (hb : s.lzwPend = []) (hready : s.CodeReady)
include hb hready

/-- A code with a string has at least one byte, which a strict LZW_FINISH does not accept (rule R223). -/
theorem lzwFinish_code (hc : s.codeString s.nextCode = some bs) :
    exec .lzwFinish s = .next (Sys2Proof.Claims.tooMuchData s s.nextCode bs) := by
  have hpos := (hready.isOpen.codeString_length hc).1
  obtain ⟨b, bs', rfl⟩ : ∃ b bs', bs = b :: bs' := List.exists_cons_of_length_pos hpos
  rw [exec_lzwFinish, lzwFinish_strict hs hstrict hb, strictLoop_full hs hready.full, hready.isOpen.stepCode_read hc,
    State.tooMuchData_eq hb]
  rfl

theorem lzwFinish_invalid (hc : s.InvalidCode s.nextCode) :
    lzwFinish s = raise .lzwInvalidCode s.nextCode s.lzwNext s.dropCode := by
  rw [lzwFinish_strict hs hstrict hb, strictLoop_full hs hready.full, hready.isOpen.stepCode_readInvalid hc]
  rfl

end

/-- Settles O40: bytes pending are looked at first, then the code, then the byte where the terminator should be. -/
theorem lzwFinishStrictFaults : Obligations.LzwFinishStrictFaults := by
  intro s h hs hstrict
  refine ⟨fun hb => ?_, fun c hb hw hc => ?_, fun hb hw hc ht t htdef => ?_⟩
  · rw [exec_lzwFinish, lzwFinish_pending hs hstrict hb, raise_outcome]
    rfl
  · have hready : s.CodeReady := ⟨h.units, hs, hw⟩
    obtain rfl := hready.nextCode_eq hc
    refine ⟨fun hdata => ?_, fun hnext hv hm => ?_, fun hinv => ?_⟩
    · exact lzwFinish_code hs hstrict hb hready (State.codeString_data hdata)
    · have hstring := State.codeString_next hready.isOpen.nextRange.1 hv hm
      rw [← hnext] at hstring
      exact lzwFinish_code hs hstrict hb hready hstring
    · rw [exec_lzwFinish, lzwFinish_invalid hs hstrict hb hready hinv, raise_outcome]
      rfl
  · subst htdef
    have hready : s.CodeReady := ⟨h.units, hs, hw⟩
    have hend := lzwFinish_end hs hstrict hb hready (hready.nextCode_eoi hc)
    refine ⟨fun l rest hin hl => ?_, fun hin heof => ?_, fun e hin herr => ?_⟩
    · rw [exec_lzwFinish, hend, readTerminator_block (by exact ht) (by exact hin) hl, raise_bind, raise_outcome,
        BitVec.ofNat_toNat]
      simp only [State.tookByte, State.dropBlock, State.finishLzw, State.dropCode]
      rfl
    · rw [exec_lzwFinish, hend, readTerminator_open (by exact ht), inByte_eof (by exact hin) (by exact heof)]
      rfl
    · rw [exec_lzwFinish, hend, readTerminator_open (by exact ht), inByte_err (by exact hin) (by exact herr), raise_bind,
        raise_bind, raise_outcome, BitVec.ofNat_toNat, BitVec.ofNat_toNat, BitVec.setWidth_eq, BitVec.setWidth_eq]
      rfl

end Sys2Proof.Machine

/-! PROOFS. The CRC and chunk family (43_crc_chunk.md): CRC_INIT, CRC_UPDATE and its chaining, CHUNK_WRITE and OUT_WRITE where OUT
accepts every byte and where it refuses one, and what the four output commands leave alone. -/

namespace Sys2Proof.Machine

/-! ### The commands as parts in sequence -/

theorem exec_crcUpdate (s : State) : exec .crcUpdate s = (crcUpdate s).outcome := rfl

theorem exec_chunkWrite (s : State) : exec .chunkWrite s = (chunkWrite s).outcome := rfl

theorem exec_outWrite (s : State) : exec .outWrite s = (outWrite s).outcome := rfl

theorem exec_zlibCompress (s : State) : exec .zlibCompress s = (zlibCompress s).outcome := rfl

/-! ### CRC_INIT and CRC_UPDATE -/

/-- Settles O41: the command has no operand and no fault. -/
theorem crcInitCompletes : Obligations.CrcInitCompletes := fun _ => rfl

theorem crcUpdate_completes {s : State} {bs : List Byte} (hr : s.addr + s.count ≤ s.bufBytes)
    (hb : Memory.readList s.buf s.addr s.count = some bs) :
    crcUpdate s = .done () ((s.setCrc (crcBytes s.crc bs)).setRes s.a1) := by
  have hbuf : ∀ b (t u : State), Flow.done () (t.setCrc (crcByte t.crc b)) = .done () u → u.buf = t.buf := by
    rintro b t u ⟨⟩
    rfl
  rw [crcUpdate, rangeCheck_pass hr, Flow.bind_done, forUp_readByte hbuf hb, forBytes_crc, Flow.bind_done]

/-- Settles O42: the loop over the written range is the loop over its bytes. -/
theorem crcUpdateCompletes : Obligations.CrcUpdateCompletes := by
  intro s bs hr hb
  rw [exec_crcUpdate, crcUpdate_completes hr hb]
  rfl

/-- CRC_UPDATE with its range given as two numbers that fit A0 and A1. -/
theorem exec_crcUpdate_range {s : State} {a n : Nat} {bs : List Byte} (ha : a < 2 ^ 32) (hn : n < 2 ^ 32)
    (hr : a + n ≤ s.bufBytes) (hb : Memory.readList s.buf a n = some bs) :
    exec .crcUpdate { s with a0 := BitVec.ofNat 32 a, a1 := BitVec.ofNat 32 n } = .next { s with
      a0 := BitVec.ofNat 32 a, a1 := BitVec.ofNat 32 n
      crc := crcBytes s.crc bs, res := BitVec.ofNat 32 n } := by
  have ha' : (BitVec.ofNat 32 a).toNat = a := (BitVec.toNat_ofNat a 32).trans (Nat.mod_eq_of_lt ha)
  have hn' : (BitVec.ofNat 32 n).toNat = n := (BitVec.toNat_ofNat n 32).trans (Nat.mod_eq_of_lt hn)
  exact crcUpdateCompletes { s with a0 := BitVec.ofNat 32 a, a1 := BitVec.ofNat 32 n } bs
    (by rwa [ha', hn']) (by rwa [ha', hn'])

/-- Settles O43: the bytes of the whole are those of the first part and then those of the second. -/
theorem crcUpdateChains : Obligations.CrcUpdateChains := by
  intro s a n m bs hr hlt hb
  obtain ⟨hfirst, hsecond⟩ := Memory.readList_add hb
  refine ⟨_, _, _, exec_crcUpdate_range (by omega) (by omega) (by omega) hb,
    exec_crcUpdate_range (by omega) (by omega) (by omega) hfirst,
    exec_crcUpdate_range (by omega) (by omega) hr hsecond, ?_, rfl, rfl⟩
  show crcBytes (crcBytes s.crc (bs.take n)) (bs.drop n) = crcBytes s.crc bs
  rw [← crcBytes_append, List.take_append_drop]

/-! ### OUT refusing a byte of a list -/

section
variable {s : State} {k : Nat} {bs : List Byte} {e : Word}

theorem eq_take_append_getElem_cons_drop (hk : k < bs.length) : bs = bs.take k ++ bs[k] :: bs.drop (k + 1) := by
  rw [← List.drop_eq_getElem_cons hk, List.take_append_drop]

/-- The CRC state is none of what OUT's answers depend on. -/
theorem State.outAccepts_setCrc {n : Nat} (v : Word) (h : s.outAccepts n) : (s.setCrc v).outAccepts n := h

variable (hk : k < bs.length) (ho : s.outAccepts k)
  (he : Store.find s.outRefusals (s.outBytes.length + k) = some e)
include hk ho he

/-- OUT takes the bytes before the one it refuses, and the refusal is recorded there (rules R85 and R89). -/
theorem forBytes_outByte_refused :
    forBytes outByte bs s
      = raise .outIoError e.toNat (s.outCount + BitVec.ofNat 32 k).toNat (s.gaveBytes (bs.take k)) := by
  have hlen : (bs.take k).length = k := List.length_take_of_le hk.le
  conv_lhs => rw [eq_take_append_getElem_cons_drop hk]
  rw [forBytes_append, forBytes_outByte (by rwa [hlen]), Flow.bind_done, forBytes_cons,
    outByte_refuse_after (by rwa [hlen]), raise_bind]
  simp only [State.gaveBytes, hlen]

/-- The same for bytes a chunk's CRC covers, which the refused byte does not reach (rule R266). -/
theorem forBytes_outCrcByte_refused :
    forBytes outCrcByte bs s
      = raise .outIoError e.toNat (s.outCount + BitVec.ofNat 32 k).toNat
        ((s.gaveBytes (bs.take k)).setCrc (crcBytes s.crc (bs.take k))) := by
  have hlen : (bs.take k).length = k := List.length_take_of_le hk.le
  have hrefuse : ∀ b v, outByte b ((s.gaveBytes (bs.take k)).setCrc v)
      = raise .outIoError e.toNat (s.gaveBytes (bs.take k)).outCount.toNat ((s.gaveBytes (bs.take k)).setCrc v) :=
    fun b v => outByte_refuse (by simpa [State.gaveBytes, State.setCrc, hk.le] using he)
  conv_lhs => rw [eq_take_append_getElem_cons_drop hk]
  rw [forBytes_append, forBytes_outCrcByte (by rwa [hlen]), Flow.bind_done, forBytes_cons, outCrcByte, hrefuse,
    raise_bind, raise_bind]
  simp only [State.gaveBytes, hlen]

end

/-! ### OUT_WRITE -/

theorem outWrite_completes {s : State} {bs : List Byte} (hr : s.addr + s.count ≤ s.bufBytes)
    (hb : Memory.readList s.buf s.addr s.count = some bs) (ho : s.outAccepts s.count) :
    outWrite s = .done () ((s.gaveBytes bs).setRes s.a1) := by
  have ho : s.outAccepts bs.length := by rwa [Memory.readList_length hb]
  rw [outWrite, rangeCheck_pass hr, Flow.bind_done, forUp_readByte (fun _ _ _ => outByte_keeps_buf) hb,
    forBytes_outByte ho, Flow.bind_done]

/-- Settles O46: OUT takes the bytes of the written range, all of them accepted. -/
theorem outWriteCompletes : Obligations.OutWriteCompletes := by
  intro s bs hr hb ho
  have hlen : BitVec.ofNat 32 bs.length = s.a1 := by
    rw [Memory.readList_length hb]
    exact s.ofNat_count
  rw [exec_outWrite, outWrite_completes hr hb ho, State.gaveBytes, hlen]
  rfl

/-- The loop over the first `k + 1` bytes ends at the refusal, so whether the rest was written is never asked. -/
theorem outWrite_refused {s : State} {k : Nat} {bs : List Byte} {e : Word} (hr : s.addr + s.count ≤ s.bufBytes)
    (hk : k < s.count) (hb : Memory.readList s.buf s.addr (k + 1) = some bs) (ho : s.outAccepts k)
    (he : Store.find s.outRefusals (s.outBytes.length + k) = some e) :
    outWrite s = raise .outIoError e.toNat (s.outCount + BitVec.ofNat 32 k).toNat (s.gaveBytes (bs.take k)) := by
  have hlen : k < bs.length := by
    rw [Memory.readList_length hb]
    exact k.lt_succ_self
  obtain ⟨l, hl⟩ := Nat.exists_eq_add_of_le (Nat.succ_le_of_lt hk)
  rw [outWrite, rangeCheck_pass hr, Flow.bind_done, hl, forUp_add,
    forUp_readByte (fun _ _ _ => outByte_keeps_buf) hb, forBytes_outByte_refused hlen ho he, raise_bind, raise_bind]

/-- Settles O47: the bytes before the refused one are on OUT, and the refusal ends the command before RES is set. -/
theorem outWriteFaultsAtRefusal : Obligations.OutWriteFaultsAtRefusal := by
  intro s k bs e hr hk hb ho he
  have hlen : (bs.take k).length = k := by
    rw [List.length_take, Memory.readList_length hb]
    omega
  rw [exec_outWrite, outWrite_refused hr hk hb ho he, raise_outcome, BitVec.ofNat_toNat, BitVec.ofNat_toNat,
    BitVec.setWidth_eq, BitVec.setWidth_eq, State.gaveBytes, hlen]
  rfl

/-! ### CHUNK_WRITE -/

/-- The state CHUNK_WRITE leaves where it succeeds with the payload `p` (rules R265 and R266). -/
def State.chunkDone (s : State) (p : List Byte) : State :=
  ((s.gaveBytes (chunkBytes s.a2 p)).setCrc (crcBytes 0xFFFFFFFF (be32 s.a2 ++ p))).setRes
    (BitVec.ofNat 32 (s.count + 12))

theorem be32_length (v : Word) : (be32 v).length = 4 := rfl

theorem chunkBytes_length (t : Word) (p : List Byte) : (chunkBytes t p).length = p.length + 12 := by
  simp only [chunkBytes, List.length_append, be32_length]
  omega

/-- The chunk's type and payload, then its CRC field, read from the chunk (rules R265 and R270). -/
theorem chunkBytes_fields (t : Word) (p : List Byte) :
    ((chunkBytes t p).drop 4).take (p.length + 4) = be32 t ++ p
      ∧ (chunkBytes t p).drop (p.length + 8) = be32 (crc32 (be32 t ++ p)) := by
  have hbody : (be32 t ++ p).length = p.length + 4 := by rw [List.length_append, be32_length, Nat.add_comm]
  have hchunk : chunkBytes t p = be32 (BitVec.ofNat 32 p.length) ++ ((be32 t ++ p) ++ be32 (crc32 (be32 t ++ p))) := by
    simp only [chunkBytes, List.append_assoc]
  have hdrop : (chunkBytes t p).drop 4 = (be32 t ++ p) ++ be32 (crc32 (be32 t ++ p)) := by
    rw [hchunk, List.drop_left' (be32_length _)]
  refine ⟨by rw [hdrop, List.take_left' hbody], ?_⟩
  rw [show p.length + 8 = 4 + (p.length + 4) by omega, ← List.drop_drop, hdrop, List.drop_left' hbody]

/-- The length and the type given to OUT in turn leave the state of the chunk's head. -/
theorem State.chunkHead_eq (s : State) :
    (((s.gaveBytes (be32 s.a1)).setCrc 0xFFFFFFFF).gaveBytes (be32 s.chunkType)).setCrc
      (crcBytes 0xFFFFFFFF (be32 s.chunkType)) = s.chunkHead := by
  rw [State.chunkHead, ← State.gaveBytes_append]
  rfl

/-- The payload and then the finished CRC given to OUT after the chunk's head leave the whole chunk. -/
theorem State.chunkDone_eq {s : State} {p : List Byte} (hp : p.length = s.count) :
    (((s.chunkHead.gaveBytes p).setCrc (crcBytes s.chunkHead.crc p)).gaveBytes
      (be32 (crcBytes s.chunkHead.crc p ^^^ 0xFFFFFFFF))).setRes (BitVec.ofNat 32 (s.count + 12)) = s.chunkDone p := by
  have hcrc : crcBytes s.chunkHead.crc p = crcBytes 0xFFFFFFFF (be32 s.a2 ++ p) := (crcBytes_append _ _ _).symm
  rw [hcrc, State.chunkDone, chunkBytes, hp, s.ofNat_count, ← State.gaveBytes_append, ← State.gaveBytes_append]
  rfl

theorem chunkWrite_completes {s : State} {p : List Byte} (hr : s.addr + s.count ≤ s.bufBytes)
    (hb : Memory.readList s.buf s.addr s.count = some p) (ho : s.outAccepts (s.count + 12)) :
    chunkWrite s = .done () (s.chunkDone p) := by
  have hp := Memory.readList_length hb
  have hhead : s.chunkHead.outAccepts (p.length + 4) :=
    State.chunkHead_accepts (State.outAccepts_mono ho (by omega))
  have hpayload : s.chunkHead.outAccepts p.length := State.outAccepts_mono hhead (Nat.le_add_right _ 4)
  have htail : ((s.chunkHead.gaveBytes p).setCrc (crcBytes s.chunkHead.crc p)).outAccepts 4 :=
    State.outAccepts_setCrc _ (State.outAccepts_gaveBytes hhead)
  rw [chunkWrite_head hr (State.outAccepts_mono ho (by omega)),
    forUp_readByte (s := s.chunkHead) (a := s.addr) (i := 0) (bs := p) (fun _ _ _ => outCrcByte_keeps_buf) hb,
    forBytes_outCrcByte hpayload, Flow.bind_done, forBytes_outByte htail, Flow.bind_done]
  exact congrArg _ (State.chunkDone_eq hp)

/-- A CHUNK_WRITE that succeeds has read a payload, all of it written, and given OUT its chunk. -/
theorem chunkWrite_done {s t : State} (h : chunkWrite s = .done () t) :
    ∃ p, Memory.readList s.buf s.addr s.count = some p ∧ t = s.chunkDone p := by
  obtain ⟨_, s₁, hrange, h⟩ := Flow.bind_eq_done.mp h
  obtain ⟨rfl, -⟩ := (rangeCheck_all (Q := fun _ => True) (E := fun _ => True) trivial).of_done hrange
  obtain ⟨_, s₂, hlength, h⟩ := Flow.bind_eq_done.mp h
  obtain rfl := forBytes_outByte_inv hlength
  obtain ⟨_, s₃, htype, h⟩ := Flow.bind_eq_done.mp h
  obtain rfl := (forBytes_outCrcByte_inv htype).trans s₁.chunkHead_eq
  obtain ⟨_, s₄, hloop, h⟩ := Flow.bind_eq_done.mp h
  obtain ⟨p, hread, hpayload⟩ := forUp_readByte_inv (fun _ _ _ => outCrcByte_keeps_buf) hloop
  obtain rfl := forBytes_outCrcByte_inv hpayload
  obtain ⟨_, s₅, hcrc, h⟩ := Flow.bind_eq_done.mp h
  obtain rfl := forBytes_outByte_inv hcrc
  cases h
  exact ⟨p, hread, State.chunkDone_eq (Memory.readList_length hread)⟩

/-- Settles O44: OUT takes the head, the payload and the CRC field, the CRC covering the type and the payload. -/
theorem chunkWriteCompletes : Obligations.ChunkWriteCompletes := by
  intro s p hr hb ho
  have hcount : BitVec.ofNat 32 (s.count + 12) = s.a1 + 12 := by
    rw [BitVec.ofNat_add, s.ofNat_count]
    rfl
  have hp : p.length = s.count := Memory.readList_length hb
  rw [exec_chunkWrite, chunkWrite_completes hr hb ho, State.chunkDone, State.gaveBytes, chunkBytes_length, hp, hcount,
    chunkBytes, hp, s.ofNat_count]
  rfl

/-- Settles O45: success means the whole chunk is on OUT, since a part that ended the command would have recorded a fault. -/
theorem chunkCrcIsRight : Obligations.ChunkCrcIsRight := by
  intro s t _ h hf
  have hdone : chunkWrite s = .done () t := by
    rcases Flow.outcome_eq_next.mp h with h | h
    · exact h
    · exact absurd hf ((chunkWrite_faults s).of_raised h).fault_ne_zero
  obtain ⟨p, hread, rfl⟩ := chunkWrite_done hdone
  have hp : p.length = s.a1.toNat := Memory.readList_length hread
  obtain ⟨hbody, hcrc⟩ := chunkBytes_fields s.a2 p
  refine ⟨chunkBytes s.a2 p, rfl, by rw [chunkBytes_length, hp], ?_⟩
  rw [← hp, hbody, hcrc]

/-- CHUNK_WRITE where OUT accepts the length and refuses a byte of the type. -/
theorem chunkWrite_refusedInType {s : State} {k : Nat} {e : Word} (hr : s.addr + s.count ≤ s.bufBytes) (hk : k < 4)
    (ho : s.outAccepts (4 + k)) (he : Store.find s.outRefusals (s.outBytes.length + 4 + k) = some e) :
    chunkWrite s = raise .outIoError e.toNat (s.outCount + 4 + BitVec.ofNat 32 k).toNat
      ((((s.gaveBytes (be32 s.a1)).setCrc 0xFFFFFFFF).gaveBytes ((be32 s.a2).take k)).setCrc
        (crcBytes 0xFFFFFFFF ((be32 s.a2).take k))) := by
  have hlength : s.outAccepts (be32 s.a1).length := State.outAccepts_mono ho (Nat.le_add_right 4 k)
  have htype : ((s.gaveBytes (be32 s.a1)).setCrc 0xFFFFFFFF).outAccepts k :=
    State.outAccepts_setCrc _ (State.outAccepts_gaveBytes (bs := be32 s.a1) ho)
  have hrefuse : Store.find s.outRefusals ((s.outBytes ++ be32 s.a1).length + k) = some e := by
    rwa [List.length_append, be32_length]
  rw [chunkWrite, rangeCheck_pass hr, Flow.bind_done, forBytes_outByte hlength, Flow.bind_done,
    forBytes_outCrcByte_refused (s := (s.gaveBytes (be32 s.a1)).setCrc 0xFFFFFFFF) (bs := be32 s.chunkType) hk htype hrefuse,
    raise_bind]
  rfl

/-- Settles O48: the refusal ends the command before it reads the payload, and the refused byte does not reach the CRC. -/
theorem chunkWriteFaultsAtRefusal : Obligations.ChunkWriteFaultsAtRefusal := by
  intro s k e hr hk ho he
  have hlen : ((be32 s.a2).take k).length = k := by
    rw [List.length_take, be32_length]
    omega
  rw [exec_chunkWrite, chunkWrite_refusedInType hr hk ho he, raise_outcome, BitVec.ofNat_toNat, BitVec.ofNat_toNat,
    BitVec.setWidth_eq, BitVec.setWidth_eq, State.gaveBytes, hlen]
  rfl

/-! ### What the output commands leave alone -/

/-- What CRC_UPDATE leaves alone. -/
def State.CrcFrame (s t : State) : Prop :=
  t = { s with
    res := t.res, fault := t.fault, finfo0 := t.finfo0, finfo1 := t.finfo1, crc := t.crc }

/-- What OUT_WRITE leaves alone. -/
def State.OutFrame (s t : State) : Prop :=
  t = { s with
    res := t.res, fault := t.fault, finfo0 := t.finfo0, finfo1 := t.finfo1
    outBytes := t.outBytes, outCount := t.outCount }

/-- What CHUNK_WRITE leaves alone. -/
def State.ChunkFrame (s t : State) : Prop :=
  t = { s with
    res := t.res, fault := t.fault, finfo0 := t.finfo0, finfo1 := t.finfo1, crc := t.crc
    outBytes := t.outBytes, outCount := t.outCount }

/-- What ZLIB_COMPRESS leaves alone, BUF apart. -/
def State.ZlibFrame (s t : State) : Prop :=
  t = { s with
    res := t.res, fault := t.fault, finfo0 := t.finfo0, finfo1 := t.finfo1, zadler := t.zadler
    buf := t.buf }

/-- What ZLIB_COMPRESS leaves alone: of BUF every address outside the datastream of its input, placed at A2. -/
def State.ZlibStep (s t : State) : Prop :=
  s.ZlibFrame t ∧ ∀ x, Memory.readList s.buf s.addr s.count = some x →
    s.SameOutside s.dest (s.dest + (zlibStream s.deflateChoice x).length) t

section
variable {s t u : State}

theorem State.CrcFrame.trans (h : s.CrcFrame t) (h' : t.CrcFrame u) : s.CrcFrame u := by
  unfold State.CrcFrame at *
  rw [h', h]

theorem State.OutFrame.trans (h : s.OutFrame t) (h' : t.OutFrame u) : s.OutFrame u := by
  unfold State.OutFrame at *
  rw [h', h]

theorem State.ChunkFrame.trans (h : s.ChunkFrame t) (h' : t.ChunkFrame u) : s.ChunkFrame u := by
  unfold State.ChunkFrame at *
  rw [h', h]

theorem State.OutStep.chunk (h : s.OutStep t) : s.ChunkFrame t := by
  obtain ⟨hframe, -, -⟩ := h
  unfold State.ChunkFrame
  rw [hframe]

end

/-- A range check, then the rest of a command. -/
theorem rangeCheck_along {R : State → State → Prop} {s : State} {a n : Nat} {k : Unit → State → Flow Unit}
    (hfault : R s (s.recordFault .bufRange (BitVec.ofNat 32 a) (BitVec.ofNat 32 n))) (hk : (k () s).Along R s) :
    ((rangeCheck a n s).bind k).Along R s :=
  (rangeCheck_all hfault).bind fun _ _ ht => ht.1 ▸ hk

/-- A loop that feeds a range of BUF to a part that moves along `R` moves along `R`. -/
theorem forUp_readByte_along {R : State → State → Prop} (hrefl : ∀ t, R t t)
    (htrans : ∀ {t u v}, R t u → R u v → R t v) {f : Byte → State → Flow Unit} (hf : ∀ b t, (f b t).Along R t)
    (a k i : Nat) (s : State) : (forUp (fun i t => (readByte (a + i) t).bind f) k i s).Along R s := by
  refine forUp_all (P := fun _ t => R s t) (hrefl s) fun j t _ _ ht => ?_
  refine ((readByte_all (a + j) t).mono (fun _ _ => id) (fun _ => id) (fun _ _ => trivial)).bind ?_
  rintro b u ⟨rfl, -⟩
  exact (hf b u).after htrans ht

theorem crcUpdate_step (s : State) : (crcUpdate s).Along State.CrcFrame s := by
  have hfeed : ∀ b t, (Flow.done () (t.setCrc (crcByte t.crc b))).Along State.CrcFrame t := fun _ _ => rfl
  have hloop := forUp_readByte_along (R := State.CrcFrame) (fun _ => rfl) .trans hfeed s.addr s.count 0 s
  exact rangeCheck_along rfl (Flow.All.seq (R := State.CrcFrame) .trans hloop fun _ _ _ => rfl)

theorem outWrite_step (s : State) : (outWrite s).Along State.OutFrame s := by
  have hgive : ∀ b t, (outByte b t).Along State.OutFrame t := fun _ _ =>
    (outByte_all fun _ _ => rfl).mono (fun _ _ hu => hu ▸ rfl) (fun _ => id) (fun _ => id)
  have hloop := forUp_readByte_along (R := State.OutFrame) (fun _ => rfl) .trans hgive s.addr s.count 0 s
  exact rangeCheck_along rfl (Flow.All.seq (R := State.OutFrame) .trans hloop fun _ _ _ => rfl)

theorem chunkWrite_step (s : State) : (chunkWrite s).Along State.ChunkFrame s := by
  refine rangeCheck_along rfl ?_
  have hbody := Flow.All.mono (chunkBody_step s.addr s.count s.a1 s.chunkType 0xFFFFFFFF s)
    (fun _ _ => State.OutStep.chunk) (fun _ => State.OutStep.chunk) (fun _ _ => trivial)
  have hres := Flow.All.seq .trans hbody
    (k := fun _ t => .done () (t.setRes (BitVec.ofNat 32 (s.count + 12)))) fun _ _ _ => rfl
  simpa only [Flow.bind_assoc] using hres

theorem zlibCompress_step (s : State) : (zlibCompress s).Along State.ZlibStep s := by
  refine rangeCheck_along ⟨rfl, fun _ _ _ _ => rfl⟩ ?_
  refine ((readBytes_all s.addr s.count s).mono (fun _ _ => id) (fun _ => id) (fun _ _ => trivial)).bind ?_
  rintro x t ⟨rfl, hx⟩
  simp only
  split
  · exact ⟨rfl, fun _ _ _ _ => rfl⟩
  · refine ⟨rfl, fun y hy a ha => ?_⟩
    obtain rfl : x = y := Option.some.inj (hx.symm.trans hy)
    exact Memory.read_writeList_outside t.buf ha

/-- Settles O57: each part of the four commands moves the state within the command's frame. -/
theorem outputCommandsFrame : Obligations.OutputCommandsFrame := by
  intro s t
  refine ⟨fun e => (crcUpdate_step s).of_next e, fun e => (outWrite_step s).of_next e,
    fun e => (chunkWrite_step s).of_next e, fun e => ?_⟩
  obtain ⟨hframe, houtside⟩ := (zlibCompress_step s).of_next e
  exact ⟨hframe, fun x bs hread hx => houtside bs hread x hx⟩

end Sys2Proof.Machine

/-! PROOFS. The zlib family (44_zlib.md): the length of DEFLATE_STORED, the round trip of every DEFLATE, and ZLIB_COMPRESS where its
datastream fits, where it does not, and as a reader checks it. -/

namespace Sys2Proof.Machine

/-! ### DEFLATE_STORED's length -/

theorem storedBlock_length (final : Bool) (p : List Byte) : (storedBlock final p).length = p.length + 5 := by
  simp only [storedBlock, le16, List.length_append, List.length_cons, List.length_nil]
  omega

/-- Each block costs 5 bytes over its piece: one block up to 65535 bytes, one more for each further 65535. -/
theorem storedBlocks_length {k : Nat} {x : List Byte} (hk : x.length < k) :
    (storedBlocks k x).length = x.length + 5 * max 1 ((x.length + 65534) / 65535) := by
  induction k generalizing x with
  | zero => omega
  | succ k ih =>
    rw [storedBlocks, storedMax]
    split
    case isTrue hlast =>
      rw [storedBlock_length]
      omega
    case isFalse hmore =>
      have hdrop : (x.drop 65535).length = x.length - 65535 := List.length_drop
      have htake : (x.take 65535).length = 65535 := List.length_take_of_le (by omega)
      rw [List.length_append, storedBlock_length, ih (by omega), htake, hdrop]
      omega

/-- Settles O53: the bound `x.length + 1` is enough blocks for `x`. -/
theorem storedLength : Obligations.StoredLength := fun x => storedBlocks_length x.length.lt_succ_self

/-! ### The round trip -/

theorem lawfulFor_iff {x d : List Byte} : lawfulFor x d ↔ inflate d = some (x, d.length) := beq_iff_eq

/-- Settles O51: DEFLATE_STORED is lawful, and an open compressor's bytes are taken only where they are. -/
theorem deflateRoundTrips : Obligations.DeflateRoundTrips := by
  intro c x
  cases c with
  | stored => exact inflate_deflateStored x
  | other k =>
    rw [deflate]
    split
    case isTrue hlawful => exact lawfulFor_iff.mp hlawful
    case isFalse => exact inflate_deflateStored x

/-- A reader accepts the datastream of `x`: its inflater stops where the Adler-32 begins (rules R301, R302 and R305). -/
theorem zlibCheck_zlibStream (c : DeflateChoice) (x : List Byte) : zlibCheck (zlibStream c x) = some x := by
  have hinflate : inflate (deflate c x ++ be32 (adler32 x)) = some (x, (deflate c x).length) :=
    inflate_append (deflateRoundTrips c x) _
  simp [zlibCheck, zlibStream, hinflate]

/-! ### ZLIB_COMPRESS -/

/-- The state ZLIB_COMPRESS leaves where it succeeds on the input `x` (rule R300). -/
def State.compressed (s : State) (x : List Byte) : State :=
  (s.putZlib x (zlibStream s.deflateChoice x)).setRes (BitVec.ofNat 32 (zlibStream s.deflateChoice x).length)

/-- What ZLIB_COMPRESS does once its input is read turns on the room for the datastream alone. -/
theorem zlibCompress_eq {s : State} {x : List Byte} (hr : s.addr + s.count ≤ s.bufBytes)
    (hx : Memory.readList s.buf s.addr s.count = some x) :
    zlibCompress s =
      if s.dest + (zlibStream s.deflateChoice x).length > s.bufBytes then
        raise .bufRange s.dest (zlibStream s.deflateChoice x).length s
      else .done () (s.compressed x) := by
  rw [zlibCompress, rangeCheck_pass hr, Flow.bind_done, readBytes_some hx]
  rfl

/-- Settles O49: the input is read whole before the datastream is written, so the two may overlap. -/
theorem zlibCompressCompletes : Obligations.ZlibCompressCompletes := by
  rintro s x _ hr hx rfl (hfits : s.dest + (zlibStream s.deflateChoice x).length ≤ s.bufBytes)
  rw [exec_zlibCompress, zlibCompress_eq hr hx, if_neg (Nat.not_lt.mpr hfits)]
  rfl

/-- Settles O50: the room is checked before the first write. -/
theorem zlibCompressOutputRange : Obligations.ZlibCompressOutputRange := by
  rintro s x _ hr hx rfl (hlong : s.dest + (zlibStream s.deflateChoice x).length > s.bufBytes)
  rw [exec_zlibCompress, zlibCompress_eq hr hx, if_pos hlong, raise_outcome, State.dest, BitVec.ofNat_toNat,
    BitVec.setWidth_eq]
  rfl

/-- A ZLIB_COMPRESS that leaves no fault had its input inside BUF and room for the datastream (rules R82 and R300). -/
theorem exec_zlibCompress_success {s t : State} {x : List Byte} (h : exec .zlibCompress s = .next t) (hf : t.fault = 0)
    (hx : Memory.readList s.buf s.addr s.count = some x) : t = s.compressed x := by
  by_cases hr : s.addr + s.count ≤ s.bufBytes
  · rw [exec_zlibCompress, zlibCompress_eq hr hx] at h
    split at h
    case isTrue hlong =>
      cases h
      exact absurd hf (FaultCode.code_ne_zero .bufRange)
    case isFalse hfits =>
      cases h
      rfl
  · cases (rangeFault_outcome (Nat.lt_of_not_le hr) _).symm.trans h
    exact absurd hf (FaultCode.code_ne_zero .bufRange)

/-- Settles O52: the datastream is read back whole, and a reader accepts it. -/
theorem compressedDataIsAccepted : Obligations.CompressedDataIsAccepted := by
  intro s t x _ h hf hx
  obtain rfl := exec_zlibCompress_success h hf hx
  exact ⟨zlibStream s.deflateChoice x, Memory.readList_writeList _ _ _, rfl, zlibCheck_zlibStream _ _⟩

end Sys2Proof.Machine

/-! PROOFS. The exception family (60_exceptions.md): what a locked block still does, and the only two ways out of a fault. -/

namespace Sys2Proof.Machine

/-! ### The registers a host write reaches -/

theorem regAt_offset {off : Nat} {r : Reg} (h : regAt off = some r) : r.offset = off := by
  unfold regAt at h
  split at h <;> cases h <;> rfl

/-- The read-only registers stand at every offset but those of CMD, the A-registers, CTRL and CRC (rule R30). -/
theorem State.setReg_readOnly {r : Reg} (h : r.offset ∉ [0x00, 0x04, 0x08, 0x0C, 0x24, 0x28]) (s : State) (v : Word) :
    s.setReg r v = s := by
  cases r with
  | cmd | a0 | a1 | a2 | ctrl | crc => exact absurd (by decide) h
  | _ => rfl

/-- A read-only register and a reserved offset ignore a host write alike (rules R30 and R53). -/
theorem writeOffset_ignored {off : Nat} (h : off ∉ [0x00, 0x04, 0x08, 0x0C, 0x24, 0x28]) (v : Word) (s : State) :
    writeOffset off v s = .next s := by
  unfold writeOffset
  split
  case h_1 hr => exact absurd (regAt_cmd hr ▸ List.mem_cons_self) h
  case h_2 r _ hr =>
    rw [← regAt_offset hr] at h
    rw [State.setReg_readOnly h]
  case h_3 => rfl

/-! ### The lock -/

theorem decode_sresetWord : decode sresetWord = .command .sreset := by decide

/-- No access that `HostFrame` covers reaches FAULT, FINFO0 or FINFO1 (rules R30 and R403). -/
theorem State.HostFrame.faultRegs_eq {s t : State} (h : s.HostFrame t) :
    t.fault = s.fault ∧ t.finfo0 = s.finfo0 ∧ t.finfo1 = s.finfo1 := by
  rw [h]
  exact ⟨rfl, rfl, rfl⟩

/-- In a locked block a CMD write could change the fault registers only by running, and the lock lets SRESET's word alone run
(rule R405). -/
theorem hostStep_locked_faultRegs_eq {op : HostOp} {s t : State} (hf : s.fault ≠ 0) (hreset : op ≠ .hardReset)
    (hsreset : op ≠ .regWrite 0x00 32 sresetWord) (e : hostStep op s = .next t) :
    t.fault = s.fault ∧ t.finfo0 = s.finfo0 ∧ t.finfo1 = s.finfo1 := by
  rcases hostStep_next e with ⟨hop, -⟩ | ⟨w, rfl, hrun⟩ | ⟨r, v, rfl⟩ | ⟨r, rfl⟩ | ⟨a, b, -, rfl⟩
  · exact absurd hop hreset
  · have hw : w ≠ sresetWord := fun hw => hsreset (congrArg _ hw)
    rw [execute_locked (s := { s with cmd := w }) hf hw] at hrun
    cases hrun
    exact ⟨rfl, rfl, rfl⟩
  · exact (s.setReg_hostFrame r v).faultRegs_eq
  · exact ⟨rfl, rfl, rfl⟩
  · exact ⟨rfl, rfl, rfl⟩

/-- Settles O7: the lock stands in `execute` alone, so it stops a command and no other access. -/
theorem lockedBlockIgnoresCommands : Obligations.LockedBlockIgnoresCommands := by
  intro s hf
  refine ⟨fun w hw => ?ignored, ?sreset, fun v => ⟨rfl, rfl, rfl, rfl, rfl⟩, fun off v halign hoff hro => ?readOnly,
    fun off halign hoff => regAccess_ok halign hoff, fun a b ha => ⟨bufAccess_ok ha, bufAccess_ok ha⟩,
    fun op t hreset hsreset e => hostStep_locked_faultRegs_eq hf hreset hsreset e⟩
  case ignored =>
    rw [hostStep_command]
    exact execute_locked (s := { s with cmd := w }) hf hw
  case sreset =>
    rw [hostStep_command]
    exact execute_command decode_sresetWord (.inr rfl)
  case readOnly =>
    rw [hostStep, regAccess_ok halign hoff, writeOffset_ignored hro]

/-! ### The ways out of a fault -/

/-- A step that leaves a next state found the host's queue empty and held, or ran the operation at its front (rules R99 and R417). -/
theorem step_next {s t : State} (e : step s = .next t) :
    s.hostOps = [] ∧ t = s
      ∨ ∃ op ops, s.hostOps = op :: ops ∧ hostStep op { s with hostOps := ops } = .next t := by
  cases h : s.hostOps with
  | nil =>
    simp only [step, runHost, h] at e
    cases e
    exact .inl ⟨rfl, rfl⟩
  | cons op ops =>
    rw [step_of_hostOps h] at e
    exact .inr ⟨op, ops, rfl, e⟩

/-- Settles O8: any other operation keeps FAULT, which is not 0. -/
theorem onlyResetEndsFault : Obligations.OnlyResetEndsFault := by
  intro s t hf e ht
  rcases step_next e with ⟨-, rfl⟩ | ⟨op, ops, hops, e⟩
  · exact absurd ht hf
  · refine ⟨ops, ?_⟩
    by_cases hreset : op = .hardReset
    · exact .inl (hreset ▸ hops)
    by_cases hsreset : op = .regWrite 0x00 32 sresetWord
    · exact .inr (hsreset ▸ hops)
    obtain ⟨hkept, -, -⟩ := hostStep_locked_faultRegs_eq (s := { s with hostOps := ops }) hf hreset hsreset e
    exact absurd (hkept ▸ ht) hf

end Sys2Proof.Machine

/-! PROOFS. The reset and hazard family (70_reset_and_hazards.md): the values both resets leave, and the host's accesses, each as
the table of rule R470 has it. -/

namespace Sys2Proof.Machine

open Sys2Proof.Claims

/-! ### The resets -/

/-- STATUS, CRC_OUT and the views of the LZW unit and the BSR in the reset state (rules R36, R42, R44 to R48 and R450). -/
theorem State.reset_views :
    State.reset.readOffset 0x2C = 0 ∧ State.reset.readOffset 0x14 = 0x00000002 ∧ State.reset.readOffset 0x34 = 0
      ∧ State.reset.readOffset 0x38 = 0 ∧ State.reset.readOffset 0x3C = 0 ∧ State.reset.readOffset 0x40 = 0
      ∧ State.reset.readOffset 0x44 = 0x00010000 := by
  decide

/-- The views read nothing that a reset leaves alone, so any reset gives them the values of the reset state. -/
theorem State.resetBlock_views (s : State) :
    s.resetBlock.readOffset 0x2C = 0 ∧ s.resetBlock.readOffset 0x14 = 0x00000002 ∧ s.resetBlock.readOffset 0x34 = 0
      ∧ s.resetBlock.readOffset 0x38 = 0 ∧ s.resetBlock.readOffset 0x3C = 0 ∧ s.resetBlock.readOffset 0x40 = 0
      ∧ s.resetBlock.readOffset 0x44 = 0x00010000 :=
  State.reset_views

/-- The views by `resetBlock_views`; every other clause names a field or a constant register that `resetBlock` sets or keeps. -/
theorem State.resetBlock_resetValues (s : State) : resetValues s s.resetBlock := by
  unfold resetValues
  simp only [s.resetBlock_views, true_and]
  and_intros <;> rfl

/-- The reset values do not speak of CMD. -/
theorem resetValues_cmd {s t : State} (w : Word) (h : resetValues s t) : resetValues s { t with cmd := w } := h

/-- Settles O9: both resets are `resetBlock`, but that SRESET puts CMD back. -/
theorem resetsLeaveResetValues : Obligations.ResetsLeaveResetValues := by
  intro s
  have h := s.resetBlock_resetValues
  exact ⟨⟨_, rfl, rfl, resetValues_cmd s.cmd h⟩, _, rfl, rfl, h⟩

/-- Settles O60: the units are at their reset values, no fault is recorded and CTRL is 0. -/
theorem resetMeetsInvariants : Obligations.ResetMeetsInvariants where
  units := State.reset_unitInv
  ctrlBits := Nat.zero_le 1
  faultCode := .inl rfl
  infoClear := fun _ => ⟨rfl, rfl⟩
  doneFaulted := fun hd => nomatch hd

/-! ### The host's accesses -/

/-- A register access that breaks a condition of rule R470 is refused, whatever it was to do. -/
theorem regAccess_refused {off bits : Nat} (h : off % 4 ≠ 0 ∨ off ≥ 0x100 ∨ bits ≠ 32)
    (k : Host.Outcome State Fault Refusal) : ∃ r, regAccess off bits k = .refused r := by
  by_cases hoff : off % 4 ≠ 0 ∨ off ≥ 0x100
  · exact ⟨_, if_pos hoff⟩
  · have hbits : bits ≠ 32 := (or_assoc.mpr h).resolve_left hoff
    exact ⟨.regWidth bits, by rw [regAccess, if_neg hoff, if_pos hbits]⟩

/-- A BUF access that breaks a condition of rule R470 is refused, whatever it was to do. -/
theorem bufAccess_refused {a bits : Nat} {s : State} (h : a ≥ s.bufBytes ∨ bits ≠ 8)
    (k : Host.Outcome State Fault Refusal) : ∃ r, bufAccess a bits s k = .refused r := by
  by_cases ha : a ≥ s.bufBytes
  · exact ⟨_, if_pos ha⟩
  · exact ⟨.bufWidth bits, by rw [bufAccess, if_neg ha, if_pos (h.resolve_left ha)]⟩

/-- Settles O11: an access that breaks a condition is refused by the check it passes first; the others get by it and do what their
register or byte of BUF says. -/
theorem hostAccessesFollowTable : Obligations.HostAccessesFollowTable := by
  intro s
  refine ⟨fun off bits v h => ⟨regAccess_refused h _, regAccess_refused h _⟩,
    fun a bits b h => ⟨bufAccess_refused h _, bufAccess_refused h _⟩,
    fun off halign hoff => regAccess_ok halign hoff, ?plainRegisters,
    fun v => ⟨hostStep_command v s, rfl, rfl, rfl, rfl, rfl⟩, fun off v halign hoff hro => ?readOnly, rfl,
    fun a ha => bufAccess_ok ha, fun a b ha => bufAccess_ok ha⟩
  case plainRegisters => and_intros <;> rfl
  case readOnly => rw [hostStep, regAccess_ok halign hoff, writeOffset_ignored hro]

end Sys2Proof.Machine
